-- ==== Sys2Proof/Word.lean ====
section
/-! DEFINITION. The word type of the unit: every operand, result and significand datapath is one
64-bit word (10_state.md R17, 00_scope.md R8), and a host keeps a pattern as 8 bytes (20_memory.md R27). -/

namespace Sys2Proof

/-- A 64-bit pattern on a port, or a 64-bit unsigned integer inside the unit (00_scope.md R8). -/
abbrev Word := BitVec 64

/-- One byte of a host's memory (20_memory.md R27). The unit itself sees no bytes. -/
abbrev Byte := BitVec 8

end Sys2Proof
end

