-- ==== Sys2Proof/Config.lean ====
section
/-! DEFINITION. What an implementation fixes: the parameters of 00_scope.md R7 as one record of plain
data, and the free values the spec leaves to "any value" (93_implementation_defined.md X7, X8, X10). -/

namespace Sys2Proof

/-- The sign of a NaN result made from a NaN operand (00_scope.md R7, 40_components.md R60). -/
inductive NaNSign where
  /-- The result keeps the operand's sign bit. -/
  | preserve
  /-- The result's sign bit is 0. -/
  | clear
  deriving DecidableEq, Repr

/-- The parameters a model takes (00_scope.md R7). A machine never changes them; they stand in
`State` so that a statement about every state is a statement about every implementation
(log entry 2). -/
structure Config where
  /-- `NAN_SIGN_ADD`, used by ADD and SUB (R60, R79). -/
  nanSignAdd : NaNSign
  /-- `NAN_SIGN_MUL` (R60). -/
  nanSignMul : NaNSign
  /-- `NAN_SIGN_DIV` (R60). -/
  nanSignDiv : NaNSign
  /-- `LATENCY_ADD` in cycles (R19, R117). -/
  latAdd : Nat
  /-- The latency of SUB. DESIGN CHOICE (log entry 3): R7 names no `LATENCY_SUB`, so it is a
  parameter of its own; safe, since it may equal `latAdd`. -/
  latSub : Nat
  /-- `LATENCY_MUL` in cycles. -/
  latMul : Nat
  /-- `LATENCY_DIV` in cycles. -/
  latDiv : Nat
  /-- `LATENCY_NEG` in cycles. -/
  latNeg : Nat
  /-- `II`, the initiation interval of the registered form, at least 1 (R117). -/
  ii : Nat
  /-- `EXPW`, the width of the signed exponent datapath, at least 14 (10_state.md R22). -/
  expw : Nat
  /-- `HOST_BYTE_ORDER`: which byte of a pattern (0 the least significant) lies at each of 8
  rising host addresses (20_memory.md R27, log entry 18). -/
  hostByteOrder : List (Fin 8)
  /-- `DIV_C` as a fixed-point number with `divHalfWidth` fraction bits (43_fp_divider.md R97). -/
  divC : Nat
  /-- `DIV_HALF_ITERS` (R97). -/
  divHalfIters : Nat
  /-- `DIV_HALF_WIDTH` (R97). -/
  divHalfWidth : Nat
  deriving DecidableEq, Repr

/-- The parameters `State.reset` carries: the spec's own choices (NaN signs Preserve, EXPW 32), the
combinational form and the log's values for the OPEN ones (DESIGN CHOICE, log entry 2; the three
reciprocal values are PRESUMED from 93_implementation_defined.md G6, log entry 17). No statement
about every state rests on them. -/
def Config.atReset : Config where
  nanSignAdd := .preserve
  nanSignMul := .preserve
  nanSignDiv := .preserve
  latAdd := 0
  latSub := 0
  latMul := 0
  latDiv := 0
  latNeg := 0
  ii := 1
  expw := 32
  hostByteOrder := [7, 6, 5, 4, 3, 2, 1, 0]
  divC := 0x17504F333
  divHalfIters := 3
  divHalfWidth := 32

/-- The free 64-bit values: what `y` carries where the spec says "any value" (X7, X8, X10). It has
no body, so nothing can be proved of a value of it; it is applied to `State.draws` (log entry 6). -/
opaque Config.freeWord : Nat → Word

/-- The free bits: what `out_valid` carries from power-up to the first reset (X7, log entry 6). -/
opaque Config.freeBit : Nat → Bool

end Sys2Proof
end

