-- ==== Sys2Proof/Syntax.lean ====
section
/-! DEFINITION. The requests of the unit: the raw request as the ports carry it (30_encoding.md R39) and
the five operations of spec/opcode_table.json with their operands. -/

namespace Sys2Proof

/-- A request as it stands on the input ports: a 3-bit op code beside two operand words
(30_encoding.md R39, R43). -/
structure Request where
  op : BitVec 3
  a : Word
  b : Word
  deriving DecidableEq, Repr

/-- One constructor per row of spec/opcode_table.json. The operands are taken whole as 64-bit
patterns (R41); NEG carries its `b` word too, "present but unused" (R43). -/
inductive Instr where
  /-- `y = a + b` (41_fp_adder.md R64). -/
  | add (a b : Word)
  /-- `y = a - b` (41_fp_adder.md R79). -/
  | sub (a b : Word)
  /-- `y = a · b` (42_fp_multiplier.md R81). -/
  | mul (a b : Word)
  /-- `y = a / b` (43_fp_divider.md R93). -/
  | div (a b : Word)
  /-- `y = -a`; `b` has no effect (41_fp_adder.md R80). -/
  | neg (a b : Word)
  deriving DecidableEq, Repr

end Sys2Proof
end

