-- ==== Sys2Proof/WellFormed.lean ====
section
/-! DEFINITION. The checks on requests and parameters. Every operand pattern is legal
(30_encoding.md R38), so an `Instr` needs no check of its own: what can be ill formed is a request's op
code, the way a NEG request is written, and a parameter. -/

namespace Sys2Proof

/-- The op code is one of the five defined ones; 101, 110 and 111 are reserved (30_encoding.md R40,
R42). -/
def Request.wf (r : Request) : Bool :=
  decide (r.op.toNat ≤ 4)

/-- The request is as the request notation writes it: a defined op code, and the unused `b` of NEG
is zero (30_encoding.md R44). -/
def Request.canonical (r : Request) : Bool :=
  r.wf && (decide (r.op ≠ 0b100#3) || decide (r.b = 0#64))

/-- A host byte order places each of the 8 bytes once (20_memory.md R27). -/
def byteOrderWf (order : List (Fin 8)) : Bool :=
  decide (order.length = 8) && decide order.Nodup

/-- The limits 00_scope.md R7 sets on the parameters: `II` at least 1, `EXPW` at least 14, and a
byte order that is one. -/
def Config.wf (c : Config) : Bool :=
  decide (1 ≤ c.ii) && decide (14 ≤ c.expw) && byteOrderWf c.hostByteOrder

end Sys2Proof
end

