-- ==== Sys2Proof/Decode.lean ====
section
/-! DEFINITION. The decoder from a request to an instruction, total and refusing reserved op codes by
name (30_encoding.md R40, R42); after it the encoder, the request as one number in the opcode table's
bit numbering, and the request lines of R44. -/

namespace Sys2Proof

/-- Why a request decodes to no instruction. -/
inductive DecodeError where
  /-- The op code is 101, 110 or 111 (30_encoding.md R42). -/
  | reservedOp (op : BitVec 3)
  deriving DecidableEq, Repr

/-- The op codes of 30_encoding.md R40. The operands are taken whole (R41). -/
def decode (r : Request) : Except DecodeError Instr :=
  if r.op = 0b000#3 then .ok (.add r.a r.b)
  else if r.op = 0b001#3 then .ok (.sub r.a r.b)
  else if r.op = 0b010#3 then .ok (.mul r.a r.b)
  else if r.op = 0b011#3 then .ok (.div r.a r.b)
  else if r.op = 0b100#3 then .ok (.neg r.a r.b)
  else .error (.reservedOp r.op)

/-- The op code of an instruction (30_encoding.md R40). -/
def Instr.opCode : Instr → BitVec 3
  | .add _ _ => 0b000#3
  | .sub _ _ => 0b001#3
  | .mul _ _ => 0b010#3
  | .div _ _ => 0b011#3
  | .neg _ _ => 0b100#3

/-- The word an instruction puts on port `a` (R41). -/
def Instr.operandA : Instr → Word
  | .add a _ => a
  | .sub a _ => a
  | .mul a _ => a
  | .div a _ => a
  | .neg a _ => a

/-- The word an instruction puts on port `b`; NEG's is present but unused (R43). -/
def Instr.operandB : Instr → Word
  | .add _ b => b
  | .sub _ b => b
  | .mul _ b => b
  | .div _ b => b
  | .neg _ b => b

/-- The request that asks for an instruction (R39, R40). -/
def encode (i : Instr) : Request where
  op := i.opCode
  a := i.operandA
  b := i.operandB

/-- A request as one number: `op` in bits 2:0 as the opcode table numbers them, then `a`, then `b`.
DESIGN CHOICE (log entry 15): the spec gives three ports and no packed word. -/
def Request.toBits (r : Request) : Nat :=
  r.op.toNat + 2 ^ 3 * r.a.toNat + 2 ^ 67 * r.b.toNat

/-- The request a packed number stands for (log entry 15). -/
def Request.ofBits (w : Nat) : Request where
  op := BitVec.ofNat 3 w
  a := BitVec.ofNat 64 (w / 2 ^ 3)
  b := BitVec.ofNat 64 (w / 2 ^ 67)

/-- What the decoder reads from an instruction given as the `nbits` low bits of `w`, in the opcode
table's numbering; every bit above them is 0, so an operand the table gives no bits is the zero
word. -/
def decodeTableWord (nbits w : Nat) : Option Instr :=
  (decode (Request.ofBits (w % 2 ^ nbits))).toOption

/-- The mnemonic of an instruction in the request notation (30_encoding.md R40, R44). -/
def Instr.mnemonic : Instr → String
  | .add _ _ => "ADD"
  | .sub _ _ => "SUB"
  | .mul _ _ => "MUL"
  | .div _ _ => "DIV"
  | .neg _ _ => "NEG"

/-- The hexadecimal digit of `n mod 16`, capitals as R44's examples have them. -/
def hexDigit (n : Nat) : Char :=
  if n % 16 < 10 then Char.ofNat (48 + n % 16) else Char.ofNat (55 + n % 16)

/-- The lowest `k` hexadecimal digits of `n`, most significant first. -/
def hexDigits : Nat → Nat → List Char
  | 0, _ => []
  | k + 1, n => hexDigits k (n / 16) ++ [hexDigit n]

/-- A 64-bit hexadecimal literal, `0x` and 16 digits (R44). -/
def hexLiteral (x : Word) : String :=
  "0x" ++ String.ofList (hexDigits 16 x.toNat)

/-- A 3-bit code in binary (R44). -/
def binDigits (c : BitVec 3) : String :=
  String.ofList ([c.getLsbD 2, c.getLsbD 1, c.getLsbD 0].map fun (t : Bool) => if t then '1' else '0')

/-- The request line `<dst> = <MNEMONIC> <src1>, <src2>`, or `<dst> = NEG <src1>`, with literal
sources (30_encoding.md R44). -/
def Instr.requestLine (dst : String) : Instr → String
  | .neg a _ => dst ++ " = NEG " ++ hexLiteral a
  | i => dst ++ " = " ++ i.mnemonic ++ " " ++ hexLiteral i.operandA ++ ", " ++ hexLiteral i.operandB

/-- The encoding of a request line, `op=<3 bits> a=0x<16 digits> b=0x<16 digits>`; the unused `b` of
NEG is written as zero (R44). -/
def Instr.encodingLine : Instr → String
  | .neg a _ => "op=100 a=" ++ hexLiteral a ++ " b=" ++ hexLiteral 0#64
  | i => "op=" ++ binDigits i.opCode ++ " a=" ++ hexLiteral i.operandA ++
      " b=" ++ hexLiteral i.operandB

end Sys2Proof
end

