-- ==== Sys2Proof/Machine/State.lean ====
section
/-! DEFINITION. The state of the unit as plain data: the ports of both forms (10_state.md R17, R19), the
requests in flight of the registered form (R20), the parameters, and the model's own bookkeeping; the
reasons a step can stop; the machine right after reset (R23). -/

namespace Sys2Proof.Machine

open Sys2Proof

/-- Faults: none. "A model has no fault outcome for a defined op code" (60_exceptions.md R102), and a
request with a reserved one is refused, so the type has no constructor. -/
inductive Fault where
  deriving DecidableEq, Repr

/-- Why the model gives a request, or a sub-block's input, no result. -/
inductive Refusal where
  /-- Raised by an arm of `exec` for an instruction without a meaning. No arm raises it; safe. -/
  | notModelled (mnemonic : String)
  /-- Raised by `step` for a request whose op code is 101, 110 or 111 (30_encoding.md R42, X1).
  Hardware may drive any value; safe. -/
  | reservedOp (op : BitVec 3)
  /-- Raised by `beginCycle` and `accept` when two results fall in one cycle of a registered unit
  with mixed latencies (70_reset_and_hazards.md R120, X9). Safe. -/
  | resultCollision
  /-- Raised by the sub-block port `normalizerPort` for a zero significand (40_components.md R53,
  X3). No request reaches it; safe. -/
  | normalizeZero
  /-- Raised by the sub-block port `roundingUnitPort` for category code 11 (40_components.md R57,
  X2). No request reaches it; safe. -/
  | roundingCategory
  /-- Raised by the sub-block ports of the sticky shifts for a shift outside 1 to 63
  (40_components.md R55, R56; X4, X5). No request reaches it; safe. -/
  | shiftOutOfRange (n : Nat)
  /-- Raised by the sub-block port `recomposePort` for a value wider than its field
  (40_components.md R47, X15). Unreachable in hardware; safe. -/
  | fieldOutOfRange
  deriving DecidableEq, Repr

/-- A request in flight in the registered form (10_state.md R20): a pipeline register holds it
between its acceptance and its result. -/
structure InFlight where
  /-- The request. -/
  request : Instr
  /-- Cycles since the cycle in which it was accepted (70_reset_and_hazards.md R117). -/
  age : Nat
  /-- The result its operation gives. -/
  result : Word
  /-- A request came less than `II` cycles before or after it, so its result is unspecified (R117,
  X8). -/
  overlapped : Bool
  deriving DecidableEq, Repr

/-- The state of the unit. A step is one settled evaluation of the combinational form, or one whole
clock cycle of the registered form: before the step the input ports hold that cycle's inputs, after
it `y` and `outValid` hold that cycle's outputs (DESIGN CHOICE, log entry 1). -/
structure State where
  /-- The parameters (00_scope.md R7); no step changes them. -/
  cfg : Config
  /-- Port `op` (10_state.md R17). -/
  op : BitVec 3
  /-- Port `a` (R17). -/
  a : Word
  /-- Port `b` (R17). -/
  b : Word
  /-- Port `in_valid` of the registered form (R19). -/
  inValid : Bool
  /-- Port `rst` of the registered form (R19). -/
  rst : Bool
  /-- Port `y` (R17). -/
  y : Word
  /-- Port `out_valid` of the registered form (R19). -/
  outValid : Bool
  /-- The requests in flight, oldest first (R20). -/
  pipe : List InFlight
  /-- The model's own: for how many more cycles a request would come sooner than `II` after the
  last accepted one (70_reset_and_hazards.md R117). -/
  busy : Nat
  /-- The model's own: powered up, with no edge with `rst = 1` yet (R116). -/
  awaitingReset : Bool
  /-- The model's own: how many free values have been drawn (log entry 6). -/
  draws : Nat
  deriving DecidableEq, Repr

/-- One step's outcome. -/
abbrev Result := Host.Outcome State Fault Refusal

/-- The unit right after reset: nothing in flight and `out_valid = 0` (10_state.md R23). The input
ports are the requester's and stand at zero (DESIGN CHOICE, log entry 4); the parameters are
`Config.atReset`, the combinational form, in which `y` is `F(op, a, b)`, here `ADD(+0, +0) = +0`
(R18, R23). -/
def State.reset : State where
  cfg := Config.atReset
  op := 0#3
  a := 0#64
  b := 0#64
  inValid := false
  rst := false
  y := 0#64
  outValid := false
  pipe := []
  busy := 0
  awaitingReset := false
  draws := 0

end Sys2Proof.Machine
end

