-- ==== Sys2Proof/Machine/Operands.lean ====
section
/-! DEFINITION. The operand side of the unit: the format constants (00_scope.md R11), the leaf sub-blocks
(40_components.md: codec, classifier, normalizer, widening multiplier, sticky shifts), the NaN results
(R59, R60) and the exponent arithmetic (R61). Every function here is total; the refusals of the
sub-blocks at their own ports stand in SubBlocks.lean (log entry 14). -/

namespace Sys2Proof.Machine

open Sys2Proof

/-- `SIGN`, the sign mask 2^63 (00_scope.md R11). -/
abbrev signMask : Word := 0x8000000000000000#64

/-- `ABS`, all bits but the sign (R11). -/
abbrev absMask : Word := 0x7FFFFFFFFFFFFFFF#64

/-- `INF`, positive infinity (R11). -/
abbrev infPattern : Word := 0x7FF0000000000000#64

/-- `IMPL`, the implicit bit 2^52 (R11). -/
abbrev implBit : Word := 0x0010000000000000#64

/-- `SIGMASK`, the significand mask 2^52 - 1 (R11). -/
abbrev sigMask : Word := 0x000FFFFFFFFFFFFF#64

/-- `QUIET`, the top significand bit 2^51 (R11). -/
abbrev quietBit : Word := 0x0008000000000000#64

/-- `QNAN`, the canonical quiet NaN (40_components.md R59). -/
abbrev qnan : Word := 0x7FF8000000000000#64

/-- The sign field, bit 63 (R46). -/
def signField (x : Word) : BitVec 1 :=
  x.extractLsb' 63 1

/-- The exponent field, bits 62:52 (R46). -/
def expField (x : Word) : BitVec 11 :=
  x.extractLsb' 52 11

/-- The significand field, bits 51:0 (R46). -/
def sigField (x : Word) : BitVec 52 :=
  x.extractLsb' 0 52

/-- `decompose` (40_components.md R46). -/
def decompose (x : Word) : BitVec 1 × BitVec 11 × BitVec 52 :=
  (signField x, expField x, sigField x)

/-- `recompose` (R47); total, because the port widths admit legal fields only. -/
def recompose (sign : BitVec 1) (exp : BitVec 11) (sig : BitVec 52) : Word :=
  (sign.setWidth 64 <<< 63) ||| (exp.setWidth 64 <<< 52) ||| sig.setWidth 64

/-- The six outputs of the special-value classifier (R49). -/
structure Classes where
  isZero : Bool
  isSubnormal : Bool
  isNormal : Bool
  isInf : Bool
  isNaN : Bool
  isQuiet : Bool
  deriving DecidableEq, Repr

/-- `classify`, from the fields (R49). -/
def classify (x : Word) : Classes :=
  let e := expField x
  let f := sigField x
  { isZero := decide (e = 0#11) && decide (f = 0#52)
    isSubnormal := decide (e = 0#11) && decide (f ≠ 0#52)
    isNormal := decide (e ≠ 0#11) && decide (e ≠ 2047#11)
    isInf := decide (e = 2047#11) && decide (f = 0#52)
    isNaN := decide (e = 2047#11) && decide (f ≠ 0#52)
    isQuiet := decide (e = 2047#11) && decide (f ≠ 0#52) && f.getLsbD 51 }

/-- `special(x)`: zero, infinity or NaN, by the wrap-around test of R50. -/
def special (x : Word) : Bool :=
  decide ((x &&& absMask) - 1#64 ≥ infPattern - 1#64)

/-- `is_nan` from the absolute value (R50). -/
def isNaN (x : Word) : Bool :=
  decide (x &&& absMask > infPattern)

/-- `is_inf` from the absolute value (R50). -/
def isInf (x : Word) : Bool :=
  decide (x &&& absMask = infPattern)

/-- `is_zero` from the absolute value (R50). -/
def isZero (x : Word) : Bool :=
  decide (x &&& absMask = 0#64)

/-- `special_or_subnormal(x)` from the exponent field (R52). -/
def specialOrSubnormal (x : Word) : Bool :=
  decide (expField x = 0#11) || decide (expField x = 2047#11)

/-- A finite pattern: neither infinity nor NaN (R37). -/
def isFinite (x : Word) : Bool :=
  decide (expField x ≠ 2047#11)

/-- The XOR of two operands' signs, in bit 63 (R83, R94). -/
def xorSign (a b : Word) : Word :=
  (a ^^^ b) &&& signMask

/-- `negate` flips the sign bit only (41_fp_adder.md R80). -/
def negate (x : Word) : Word :=
  x ^^^ signMask

/-- `NaNResult_op(x)` (40_components.md R60). -/
def nanResult (sign : NaNSign) (x : Word) : Word :=
  match sign with
  | .preserve => x ||| quietBit
  | .clear => (x ||| quietBit) &&& absMask

/-- `clz64`: 64 less the position of the highest set bit plus one, and 64 for zero (00_scope.md R9). -/
def clz64 (x : Word) : Nat :=
  if x = 0#64 then 64 else 63 - Nat.log2 x.toNat

/-- A signed integer as the `w`-bit exponent datapath holds it (40_components.md R61). Every exponent
the rules compute fits any `w` of at least 14, so nothing wraps (10_state.md R22). -/
def expWrap (w : Nat) (e : Int) : Int :=
  Int.bmod e (2 ^ w)

/-- An exponent field zero-extended into the exponent datapath (R61). -/
def expOfField (w : Nat) (x : Word) : Int :=
  expWrap w (expField x).toNat

/-- An exponent written back into bits 62:52 (R61). -/
def expToField (e : Int) : Word :=
  (BitVec.ofInt 11 e).setWidth 64 <<< 52

/-- `normalize` of a nonzero subnormal significand (40_components.md R53). The engines never give it
zero. -/
def normalize (sig : BitVec 52) : Int × BitVec 53 :=
  let shift := clz64 (sig.setWidth 64) - clz64 implBit
  (1 - (shift : Int), (sig.setWidth 64 <<< shift).setWidth 53)

/-- `wmul`: the full 128-bit product as its two halves (R54). -/
def wmul (x y : Word) : Word × Word :=
  let p : BitVec 128 := x.setWidth 128 * y.setWidth 128
  (p.extractLsb' 64 64, p.extractLsb' 0 64)

/-- A Boolean as a 64-bit 0 or 1 (`bool` of 00_scope.md R8). -/
def boolWord (c : Bool) : Word :=
  if c then 1#64 else 0#64

/-- `shr_sticky64(x, n)` for 1 ≤ n ≤ 63 (R55). -/
def shrSticky64 (x : Word) (n : Nat) : Word :=
  (x >>> n) ||| boolWord (decide (x <<< (64 - n) ≠ 0#64))

/-- `wide_shr_sticky(hi, lo, n)` for 1 ≤ n ≤ 63 (R56). -/
def wideShrSticky (hi lo : Word) (n : Nat) : Word × Word :=
  let sticky := boolWord (decide (lo <<< (64 - n) ≠ 0#64))
  (hi >>> n, (hi <<< (64 - n)) ||| (lo >>> n) ||| sticky)

/-- `unpack(x)` of a finite nonzero operand: exponent and significand, a subnormal one normalized
(41_fp_adder.md R68). -/
def unpack (w : Nat) (x : Word) : Int × Word :=
  if expField x = 0#11 then
    let n := normalize (sigField x)
    (expWrap w n.1, n.2.setWidth 64)
  else (expOfField w x, (sigField x).setWidth 64)

end Sys2Proof.Machine
end

