-- ==== Sys2Proof/Machine/Flags.lean ====
section
/-! DEFINITION. The unit has no flags, condition codes or status bits (10_state.md R16, 60_exceptions.md
R103), so no flag is computed. What stands here is the one decision each engine makes beside its
result: where the discarded part lies against half a unit in the last place, and the rounding unit
that acts on it (40_components.md R57). -/

namespace Sys2Proof.Machine

open Sys2Proof

/-- Where the discarded part of a result lies against half a unit in its last place (R57). -/
inductive Category where
  | below
  | half
  | above
  deriving DecidableEq, Repr

/-- The adder's category, from the guard, round and sticky bits (R57, 41_fp_adder.md R76). -/
def categoryOfGrs (grs : Word) : Category :=
  if grs > 0b100#64 then .above else if grs = 0b100#64 then .half else .below

/-- The multiplier's category, from the low half of the product (R57, 42_fp_multiplier.md R90). -/
def categoryOfLow (lo : Word) : Category :=
  if lo > signMask then .above else if lo = signMask then .half else .below

/-- The divider's category, from the doubled residual against the divisor (R57, 43_fp_divider.md
R99). -/
def categoryOfResidual (r d : Nat) : Category :=
  if 2 * r > d then .above else if 2 * r = d then .half else .below

/-- The increment of the rounding unit: a tie goes to the even packed value (R57). -/
def roundIncrement (packed : Word) : Category → Word
  | .above => 1#64
  | .half => packed &&& 1#64
  | .below => 0#64

/-- The rounding unit, applied to the whole packed pattern modulo 2^64 (R57). -/
def roundPacked (packed : Word) (cat : Category) : Word :=
  packed + roundIncrement packed cat

end Sys2Proof.Machine
end

