-- ==== Sys2Proof/Machine/Ops.lean ====
section
/-! DEFINITION. The named operations over the state: driving the input ports, accepting a request,
and the parts of a clock cycle of the registered form (10_state.md R19, R20; 70_reset_and_hazards.md
R116, R117, R120). There is no exception to take and none to return from: the unit raises none, saves
nothing and transfers no control (60_exceptions.md R102, R108, R109). -/

namespace Sys2Proof.Machine

open Sys2Proof

/-! ## Parameters of a state -/

/-- `LATENCY_<op>` of a request (70_reset_and_hazards.md R117). -/
def latencyOf (c : Config) : Instr → Nat
  | .add _ _ => c.latAdd
  | .sub _ _ => c.latSub
  | .mul _ _ => c.latMul
  | .div _ _ => c.latDiv
  | .neg _ _ => c.latNeg

/-- The combinational form: every latency is 0, and `clk`, `rst`, `in_valid` and `out_valid` do not
exist (10_state.md R19). -/
def isCombinational (c : Config) : Bool :=
  decide (c.latAdd = 0) && decide (c.latSub = 0) && decide (c.latMul = 0) && decide (c.latDiv = 0) &&
    decide (c.latNeg = 0)

/-! ## Single-field updates -/

/-- `y` and `out_valid` of the current cycle. -/
def State.setOutputs (s : State) (y : Word) (v : Bool) : State :=
  { s with y := y, outValid := v }

/-- `y` alone: the combinational form has no `out_valid`. -/
def State.setY (s : State) (y : Word) : State :=
  { s with y := y }

/-- The requests in flight. -/
def State.setPipe (s : State) (p : List InFlight) : State :=
  { s with pipe := p }

/-- The cycles in which a further request would come too soon. -/
def State.setBusy (s : State) (n : Nat) : State :=
  { s with busy := n }

/-- Whether the unit still waits for its first reset. -/
def State.setAwaiting (s : State) (w : Bool) : State :=
  { s with awaitingReset := w }

/-- One free value has been drawn. -/
def State.drawn (s : State) : State :=
  { s with draws := s.draws + 1 }

/-- A request on ports `op`, `a` and `b`. -/
def State.setRequest (s : State) (r : Request) : State :=
  { s with op := r.op, a := r.a, b := r.b }

/-- Ports `in_valid` and `rst`. -/
def State.setControl (s : State) (inValid rst : Bool) : State :=
  { s with inValid := inValid, rst := rst }

/-! ## The requester's side -/

/-- What a requester drives in one cycle (10_state.md R17, R19). -/
structure Inputs where
  req : Request
  inValid : Bool
  rst : Bool
  deriving DecidableEq, Repr

/-- The request on the input ports (30_encoding.md R39). -/
def requestOn (s : State) : Request where
  op := s.op
  a := s.a
  b := s.b

/-- The requester drives the input ports. In the combinational form `y` stays as it is while `op`, `a`
and `b` do (10_state.md R18; `in_valid` and `rst` do not exist there, R19), and is any value once one of
them has moved, until the next step settles it (70_reset_and_hazards.md R119, X10; log entries 6 and
20); a registered output does not move between edges. -/
def State.drive (s : State) (i : Inputs) : State :=
  let t := (s.setRequest i.req).setControl i.inValid i.rst
  if isCombinational s.cfg && decide (i.req ≠ requestOn s) then
    (t.setY (Config.freeWord s.draws)).drawn
  else t

/-- A request stands on the ports of a registered unit: `in_valid = 1` and `rst = 0` (R117). -/
def requestPresent (s : State) : Bool :=
  s.inValid && !s.rst

/-! ## The outputs of a cycle -/

/-- A cycle without a result: `out_valid = 0` and `y` any value (10_state.md R20, X7). -/
def State.showNone (s : State) : State :=
  (s.setOutputs (Config.freeWord s.draws) false).drawn

/-- A cycle with a result: all 64 bits of `y` and `out_valid = 1` in one cycle (20_memory.md R30). -/
def State.showResult (s : State) (r : Word) : State :=
  s.setOutputs r true

/-- The result of an overlapped request: `out_valid = 1` and `y` any value (R117, X8; log entry 7). -/
def State.showUnspecified (s : State) : State :=
  (s.setOutputs (Config.freeWord s.draws) true).drawn

/-- From power-up to the first reset `y` and `out_valid` are any value (R116, X7; log entry 12). -/
def State.showPowerUp (s : State) : State :=
  (s.setOutputs (Config.freeWord s.draws) (Config.freeBit s.draws)).drawn

/-- The result of a request leaving the pipeline, or an unspecified one if it was overlapped. -/
def State.showEntry (s : State) (e : InFlight) : State :=
  if e.overlapped then s.showUnspecified else s.showResult e.result

/-! ## The clock cycle of the registered form -/

/-- A request's result falls in the current cycle: `LATENCY_<op>` cycles after its acceptance
(R117). -/
def isDue (c : Config) (e : InFlight) : Bool :=
  decide (e.age = latencyOf c e.request)

/-- The start of a cycle: the one request whose result is due leaves the pipeline and shows it; with
none due there is no result; two due in one cycle are refused (R117, R120, X9; log entry 10). -/
def beginCycle (s : State) : Result :=
  if s.awaitingReset then .next s.showPowerUp
  else
    let rest := s.pipe.filter fun e => !isDue s.cfg e
    match s.pipe.filter (isDue s.cfg) with
    | [] => .next s.showNone
    | [e] => .next ((s.setPipe rest).showEntry e)
    | _ :: _ :: _ => .refused .resultCollision

/-- A request sooner than `II` after the last accepted one overlaps it: the result of the one it
overlaps is unspecified too (R117; log entry 7). -/
def markOverlapped (ii : Nat) (p : List InFlight) : List InFlight :=
  p.map fun e => if e.age < ii then { e with overlapped := true } else e

/-- The pipeline once a request has come: unchanged, or with the overlapped request marked. -/
def pipeAfterRequest (s : State) : List InFlight :=
  if s.busy = 0 then s.pipe else markOverlapped s.cfg.ii s.pipe

/-- A registered unit takes a request with its result `r`: at latency 0 the result falls in this very
cycle, otherwise it enters the pipeline (R117). At latency 0 this holds in the first cycle after a reset
too, where R116 and 10_state.md R23 say `out_valid = 0` (DESIGN CHOICE, log entry 25). -/
def enterPipeline (i : Instr) (r : Word) (s : State) : Result :=
  let t := (s.setPipe (pipeAfterRequest s)).setBusy s.cfg.ii
  if latencyOf s.cfg i = 0 then
    if s.outValid then .refused .resultCollision
    else if s.busy = 0 then .next (t.showResult r)
    else .next t.showUnspecified
  else
    .next (t.setPipe (pipeAfterRequest s ++
      [{ request := i, age := 0, result := r, overlapped := decide (s.busy ≠ 0) }]))

/-- The unit accepts request `i`, whose operation gives the pattern `r`. The combinational form
drives `y` with it (10_state.md R18). A registered unit that still waits for its first reset will
discard it unseen (R116; log entry 12); otherwise it enters the pipeline. -/
def accept (i : Instr) (r : Word) (s : State) : Result :=
  if isCombinational s.cfg then .next (s.setY r)
  else if s.awaitingReset then .next (s.setBusy s.cfg.ii)
  else enterPipeline i r s

/-- One cycle more since a request was accepted. -/
def InFlight.older (e : InFlight) : InFlight :=
  { e with age := e.age + 1 }

/-- The rising edge that ends a cycle: with `rst = 1` every request in flight is discarded and a
power-up ends (R116); otherwise every request in flight is one cycle older. -/
def clockEdge (s : State) : State :=
  ((s.setPipe (if s.rst then [] else s.pipe.map InFlight.older)).setBusy (s.busy - 1)).setAwaiting
    (s.awaitingReset && !s.rst)

/-- Sequencing of outcomes: a fault or a refusal ends the step. -/
def andThen (o : Result) (f : State → Result) : Result :=
  match o with
  | .next s => f s
  | .fault r => .fault r
  | .refused r => .refused r

/-! ## Reset and power-up -/

/-- A unit with parameters `c` right after reset: as `State.reset`, but `y` of the registered form is
any value while `out_valid = 0` (10_state.md R23). -/
def State.afterReset (c : Config) : State :=
  if isCombinational c then { State.reset with cfg := c }
  else { State.reset with cfg := c, y := Config.freeWord 0, draws := 1 }

/-- A unit at power-up. The combinational form needs no reset. In the registered form `y` and `out_valid` have any value until the first edge with
`rst = 1` (70_reset_and_hazards.md R116, 60_exceptions.md R115). -/
def State.powerUp (c : Config) : State :=
  if isCombinational c then State.afterReset c
  else { State.afterReset c with outValid := Config.freeBit 0, awaitingReset := true }

end Sys2Proof.Machine
end

