-- ==== Sys2Proof/Machine/AddSub.lean ====
section
/-! DEFINITION. The add/subtract engine, in the step order of 41_fp_adder.md (R64 to R76), and the meanings
of ADD (R64), SUB (R79) and NEG (R80). `w` is the exponent width EXPW throughout. -/

namespace Sys2Proof.Machine

open Sys2Proof

/-- `ADD_special(a, b)`, the special-case table in its order (R66). -/
def addSpecial (sign : NaNSign) (a b : Word) : Word :=
  if isNaN a then nanResult sign a
  else if isNaN b then nanResult sign b
  else if isInf a then
    if a ^^^ b = signMask then qnan else a
  else if isInf b then b
  else if isZero a then
    if isZero b then a &&& b else b
  else a

/-- The operands exchange when the second has the larger absolute bits (R67). -/
def swapNeeded (a b : Word) : Bool :=
  decide (b &&& absMask > a &&& absMask)

/-- The operand of larger magnitude, `a` after the swap of R67. -/
def largerOperand (a b : Word) : Word :=
  if swapNeeded a b then b else a

/-- The operand of smaller magnitude, `b` after the swap of R67. -/
def smallerOperand (a b : Word) : Word :=
  if swapNeeded a b then a else b

/-- An effective subtraction: the operand signs differ (R69). -/
def isSubtraction (a b : Word) : Bool :=
  decide ((a ^^^ b) &&& signMask ≠ 0#64)

/-- Widening: the implicit bit is set and 3 low bits make room for guard, round and sticky (R70). -/
def widenSig (sig : Word) : Word :=
  (sig ||| implBit) <<< 3

/-- `align(bSig, d)`: right shift by the exponent difference with a sticky bit, or the sticky-only
value 1 at a distance of 64 or more (R71). -/
def align (bSig : Word) (d : Int) : Word :=
  if d = 0 then bSig else if d < 64 then shrSticky64 bSig d.toNat else 1#64

/-- `sub_combine`: the difference, left-normalized after a partial cancellation (R72). Called only
when the significands differ. -/
def subCombine (w : Nat) (aExp : Int) (aSig bSig : Word) : Int × Word :=
  let diff := aSig - bSig
  if diff < implBit <<< 3 then
    let shift := clz64 diff - clz64 (implBit <<< 3)
    (expWrap w (aExp - shift), diff <<< shift)
  else (aExp, diff)

/-- `add_combine`: the sum, shifted right by one with a sticky bit when it carries into bit 56
(R73). -/
def addCombine (w : Nat) (aExp : Int) (aSig bSig : Word) : Int × Word :=
  let sum := aSig + bSig
  if sum &&& (implBit <<< 4) ≠ 0#64 then
    (expWrap w (aExp + 1), (sum >>> 1) ||| (sum &&& 1#64))
  else (aExp, sum)

/-- The shift of a subnormal result, `1 - aExp`; R75 shows it is 1 to 52 for every sum (D24, log
entry 14). -/
def underflowShift (w : Nat) (exp : Int) : Nat :=
  (expWrap w (1 - exp)).toNat

/-- `pack_round(resultSign, aExp, aSig)` (R76). -/
def packRound (resultSign : Word) (aExp : Int) (aSig : Word) : Word :=
  let packed := ((aSig >>> 3) &&& sigMask) ||| expToField aExp ||| resultSign
  roundPacked packed (categoryOfGrs (aSig &&& 7#64))

/-- Overflow (R74), underflow (R75), then packing and rounding (R76). -/
def addFinish (w : Nat) (resultSign : Word) (aExp : Int) (aSig : Word) : Word :=
  if aExp ≥ 2047 then infPattern ||| resultSign
  else if aExp ≤ 0 then packRound resultSign 0 (shrSticky64 aSig (underflowShift w aExp))
  else packRound resultSign aExp aSig

/-- The widened significand of the larger operand (R68, R70). -/
def widenedLarger (w : Nat) (a : Word) : Word :=
  widenSig (unpack w a).2

/-- The widened significand of the smaller operand, aligned to the larger (R68, R70, R71). -/
def alignedSmaller (w : Nat) (a b : Word) : Word :=
  align (widenSig (unpack w b).2) (expWrap w ((unpack w a).1 - (unpack w b).1))

/-- Exponent and significand after the effective subtraction (R72) or addition (R73). -/
def addCombined (w : Nat) (a b : Word) : Int × Word :=
  if isSubtraction a b then
    subCombine w (unpack w a).1 (widenedLarger w a) (alignedSmaller w a b)
  else addCombine w (unpack w a).1 (widenedLarger w a) (alignedSmaller w a b)

/-- The generic path of ADD with `a` the operand of larger magnitude: exact cancellation gives +0
(R72), otherwise the combined result is finished (R68 to R76). -/
def addOrdered (w : Nat) (a b : Word) : Word :=
  if isSubtraction a b && decide (widenedLarger w a = alignedSmaller w a b) then 0#64
  else addFinish w (a &&& signMask) (addCombined w a b).1 (addCombined w a b).2

/-- ADD: the special path of R65 and R66, or the generic path on the ordered operands (R64, R67). -/
def addEngine (sign : NaNSign) (w : Nat) (a b : Word) : Word :=
  if special a || special b then addSpecial sign a b
  else addOrdered w (largerOperand a b) (smallerOperand a b)

/-- SUB, by definition ADD of `a` and the negated `b` (R79, 30_encoding.md R45). -/
def subEngine (sign : NaNSign) (w : Nat) (a b : Word) : Word :=
  addEngine sign w a (negate b)

/-- NEG flips the sign bit only (R80). -/
def negEngine (a : Word) : Word :=
  negate a

/-- ADD (41_fp_adder.md R64). -/
def execAdd (a b : Word) (s : State) : Result :=
  accept (.add a b) (addEngine s.cfg.nanSignAdd s.cfg.expw a b) s

/-- SUB (41_fp_adder.md R79). -/
def execSub (a b : Word) (s : State) : Result :=
  accept (.sub a b) (subEngine s.cfg.nanSignAdd s.cfg.expw a b) s

/-- NEG (41_fp_adder.md R80); `b` stays in the request and has no effect on the result. -/
def execNeg (a b : Word) (s : State) : Result :=
  accept (.neg a b) (negEngine a) s

end Sys2Proof.Machine
end

