-- ==== Sys2Proof/Machine/Divide.lean ====
section
/-! DEFINITION. The divide engine, in the step order of 43_fp_divider.md (R93 to R100), and the meaning of
DIV. The quotient is the exact one of R98; the reciprocal scheme by which the source finds it (R97) is
in Reciprocal.lean and no result reads it (X13). `w` is the exponent width EXPW throughout. -/

namespace Sys2Proof.Machine

open Sys2Proof

/-- `DIV_special(a, b)` in its order (R94, conflicts C1 and C2). -/
def divSpecial (sign : NaNSign) (a b : Word) : Word :=
  if isNaN a then nanResult sign a
  else if isNaN b then nanResult sign b
  else if isInf a then
    if isInf b then qnan else infPattern ||| xorSign a b
  else if isInf b then xorSign a b
  else if isZero a then
    if isZero b then qnan else xorSign a b
  else infPattern ||| xorSign a b

/-- The 53-bit significand of an operand after `DIV_normalize`, an integer in 2^52 to 2^53 - 1
(R95). -/
def divSig (x : Word) : Nat :=
  ((if expField x = 0#11 then (normalize (sigField x)).2.setWidth 64
    else (sigField x).setWidth 64) ||| implBit).toNat

/-- The exponent correction of an operand in `DIV_normalize`; the divisor's is subtracted (R95). -/
def divScale (x : Word) : Int :=
  if expField x = 0#11 then (normalize (sigField x)).1 else 0

/-- The biased exponent of the quotient before its leading bit is placed (R96). -/
def quotientExp (w : Nat) (a b : Word) : Int :=
  expWrap w (expOfField w a - expOfField w b + expWrap w (divScale a - divScale b) + 1023)

/-- The dividend significand and quotient exponent once `A / B` lies in [1, 2) (R96). -/
def divAlign (w : Nat) (qExp : Int) (sigA sigB : Nat) : Int × Nat :=
  if sigA < sigB then (expWrap w (qExp - 1), 2 * sigA) else (qExp, sigA)

/-- How far a subnormal quotient is shifted out (R93, R100). -/
def quotientShift (w : Nat) (qExp : Int) : Int :=
  if qExp ≥ 1 then 0 else expWrap w (1 - qExp)

/-- The truncated quotient and the exact residual of the aligned significands (R98). -/
def quotientResidual (sigA sigB shift : Nat) : Nat × Nat :=
  let n := sigA * 2 ^ 52
  let d := sigB * 2 ^ shift
  (n / d, n % d)

/-- The packed result of R93: the quotient carries its leading bit into the exponent field. -/
def divPack (quotientSign : Word) (qExp : Int) (q : Nat) : Word :=
  quotientSign ||| BitVec.ofNat 64 ((max qExp 1 - 1).toNat * 2 ^ 52 + q)

/-- Overflow and flush (R100), quotient and residual (R98), rounding (R99). -/
def divFinish (w : Nat) (quotientSign : Word) (qExp : Int) (sigA sigB : Nat) : Word :=
  if qExp ≥ 2047 then infPattern ||| quotientSign
  else
    let shift := quotientShift w qExp
    if shift ≥ 64 then quotientSign
    else
      let d := sigB * 2 ^ shift.toNat
      let qr := quotientResidual sigA sigB shift.toNat
      roundPacked (divPack quotientSign qExp qr.1) (categoryOfResidual qr.2 d)

/-- The generic path of DIV, for finite nonzero operands (R95 to R100). -/
def divGeneric (w : Nat) (a b : Word) : Word :=
  let n := divAlign w (quotientExp w a b) (divSig a) (divSig b)
  divFinish w (xorSign a b) n.1 n.2 (divSig b)

/-- DIV (R93). -/
def divEngine (sign : NaNSign) (w : Nat) (a b : Word) : Word :=
  if special a || special b then divSpecial sign a b else divGeneric w a b

/-- DIV (43_fp_divider.md R93). -/
def execDiv (a b : Word) (s : State) : Result :=
  accept (.div a b) (divEngine s.cfg.nanSignDiv s.cfg.expw a b) s

end Sys2Proof.Machine
end

