-- ==== Sys2Proof/Machine/Multiply.lean ====
section
/-! DEFINITION. The multiply engine, in the step order of 42_fp_multiplier.md (R81 to R90), and the meaning
of MUL. `w` is the exponent width EXPW throughout. -/

namespace Sys2Proof.Machine

open Sys2Proof

/-- `MUL_special(a, b)` in its order (R83). -/
def mulSpecial (sign : NaNSign) (a b : Word) : Word :=
  if isNaN a then nanResult sign a
  else if isNaN b then nanResult sign b
  else if isInf a then
    if isZero b then qnan else infPattern ||| xorSign a b
  else if isInf b then
    if isZero a then qnan else infPattern ||| xorSign a b
  else xorSign a b

/-- A zero or subnormal operand by its absolute value (R84). -/
def belowNormal (x : Word) : Bool :=
  decide (x &&& absMask < implBit)

/-- The significand of an operand after `MUL_normalize`: a subnormal one normalized (R84). -/
def mulSig (x : Word) : Word :=
  if belowNormal x then (normalize (sigField x)).2.setWidth 64 else (sigField x).setWidth 64

/-- What an operand adds to `scale` in `MUL_normalize` (R84). -/
def mulScale (x : Word) : Int :=
  if belowNormal x then (normalize (sigField x)).1 else 0

/-- The widening product of the two significands, the second shifted left by the exponent width 11
(R85). -/
def mulProduct (aSig bSig : Word) : Word × Word :=
  wmul (aSig ||| implBit) ((bSig ||| implBit) <<< 11)

/-- The product's exponent and 128 bits with the leading bit in bit 52 of the high half (R86). -/
def mulAlign (w : Nat) (pExp : Int) (hi lo : Word) : Int × Word × Word :=
  if hi &&& implBit ≠ 0#64 then (expWrap w (pExp + 1), hi, lo)
  else (pExp, (hi <<< 1) ||| (lo >>> 63), lo <<< 1)

/-- Sign, packing and rounding on the discarded low half (R90). -/
def mulRound (productSign hi lo : Word) : Word :=
  roundPacked (hi ||| productSign) (categoryOfLow lo)

/-- Overflow (R87), underflow (R88), the normal result (R89), then rounding (R90). -/
def mulFinish (w : Nat) (productSign : Word) (pExp : Int) (hi lo : Word) : Word :=
  if pExp ≥ 2047 then infPattern ||| productSign
  else if pExp ≤ 0 then
    let shift := expWrap w (1 - pExp)
    if shift ≥ 64 then productSign
    else
      let p := wideShrSticky hi lo shift.toNat
      mulRound productSign p.1 p.2
  else mulRound productSign ((hi &&& sigMask) ||| expToField pExp) lo

/-- The product's biased exponent before its leading bit is placed (R86). -/
def productExp (w : Nat) (a b : Word) (scale : Int) : Int :=
  expWrap w (expOfField w a + expOfField w b + scale - 1023)

/-- The generic path of MUL on significands and a `scale` (R85 to R90). -/
def mulGeneric (w : Nat) (a b aSig bSig : Word) (scale : Int) : Word :=
  let p := mulProduct aSig bSig
  let n := mulAlign w (productExp w a b scale) p.1 p.2
  mulFinish w (xorSign a b) n.1 n.2.1 n.2.2

/-- MUL (R81, R82). -/
def mulEngine (sign : NaNSign) (w : Nat) (a b : Word) : Word :=
  if specialOrSubnormal a || specialOrSubnormal b then
    if special a || special b then mulSpecial sign a b
    else mulGeneric w a b (mulSig a) (mulSig b) (expWrap w (mulScale a + mulScale b))
  else mulGeneric w a b ((sigField a).setWidth 64) ((sigField b).setWidth 64) 0

/-- MUL (42_fp_multiplier.md R81). -/
def execMul (a b : Word) (s : State) : Result :=
  accept (.mul a b) (mulEngine s.cfg.nanSignMul s.cfg.expw a b) s

end Sys2Proof.Machine
end

