-- ==== Sys2Proof/Machine/Step.lean ====
section
/-! DEFINITION. One step: the combinational form settles on the request at its ports (10_state.md R18); the
registered form runs one whole clock cycle (70_reset_and_hazards.md R116, R117; log entry 1). -/

namespace Sys2Proof.Machine

open Sys2Proof

/-- The request on the ports is decoded and executed, or refused by name (30_encoding.md R42). -/
def issue (s : State) : Result :=
  match decode (requestOn s) with
  | .ok i => exec i s
  | .error (.reservedOp op) => .refused (.reservedOp op)

/-- One step. A registered cycle shows the result due in it, then takes the request if `in_valid = 1`
and `rst = 0`, and ends with the rising edge. -/
def step (s : State) : Host.Outcome State Fault Refusal :=
  if isCombinational s.cfg then issue s
  else
    andThen (beginCycle s) fun t =>
      andThen (if requestPresent t then issue t else .next t) fun u => .next (clockEdge u)

/-- The request given as the `nbits` low bits of `w` in the opcode table's numbering, with every bit
above them 0, stands on the input ports as the next step's request: `in_valid = 1`, `rst = 0` (log
entries 15 and 16). -/
def State.withFetchWord (s : State) (nbits w : Nat) : State :=
  (s.setRequest (Request.ofBits (w % 2 ^ nbits))).setControl true false

end Sys2Proof.Machine
end

