-- ==== Sys2Proof/Machine/HostBoundary.lean ====
section
/-! DEFINITION. The boundary where a host hands patterns to the unit (20_memory.md R27, R28). The unit
never sees bytes: these functions are the host's side of it, for any `HOST_BYTE_ORDER`. -/

namespace Sys2Proof.Machine

open Sys2Proof

/-- Byte number `k` of a pattern, 0 the least significant. -/
def patternByte (x : Word) (k : Nat) : Byte :=
  x.extractLsb' (8 * k) 8

/-- The bytes of a pattern at rising host addresses (R27). -/
def patternToBytes (order : List (Fin 8)) (x : Word) : List Byte :=
  order.map fun k => patternByte x k

/-- The pattern a host must present for the bytes it stores: "the same 64-bit integer whose bit 63 is
the sign" (R27). -/
def patternOfBytes : List (Fin 8) → List Byte → Word
  | k :: ks, v :: vs => (v.setWidth 64 <<< (8 * k.val)) ||| patternOfBytes ks vs
  | _, _ => 0#64

/-- A host's floating-point value, held as the pattern it is: "a true bit-level reinterpretation"
(R28). -/
structure HostValue where
  pattern : Word
  deriving DecidableEq, Repr

/-- `from_bits(u)` (R28). -/
def fromBits (u : Word) : HostValue :=
  { pattern := u }

/-- `to_bits(v)` (R28). -/
def toBits (v : HostValue) : Word :=
  v.pattern

end Sys2Proof.Machine
end

