-- ==== Sys2Proof/Machine/Reciprocal.lean ====
section
/-! DEFINITION. The reciprocal scheme by which the source finds the quotient (43_fp_divider.md R97), with
its open parameters taken from `Config`, and the correction that brings a candidate at most one off to the
quotient and residual of R98. No result reads it: R93 takes the exact quotient (X13, D18). The fixed-point
formats are not in the source; those here are the model's own (DESIGN CHOICE, log entry 17). -/

namespace Sys2Proof.Machine

open Sys2Proof

/-- `DIV_FULL_ITERS`: "then one full-width iteration" (00_scope.md R7). -/
def divFullIters : Nat := 1

/-- `RECIPROCAL_PRECISION`, in units of the last place of the working precision (00_scope.md R7). -/
def reciprocalPrecision : Nat := 220

/-- The fraction bits of the full width. -/
def fullWidth : Nat := 64

/-- The divisor significand as a fixed-point value in [1, 2) with `k` fraction bits (R95, R97). -/
def divisorFixed (k sigB : Nat) : Nat :=
  sigB * 2 ^ k / 2 ^ 52

/-- The first approximation `x0 = C − b/2`, with `k` fraction bits (R97 step 1). -/
def recipSeed (k c sigB : Nat) : Nat :=
  c - divisorFixed k sigB / 2

/-- One Newton-Raphson iteration `x · (2 − b · x)` with `k` fraction bits (R97 step 2). -/
def newtonStep (k b x : Nat) : Nat :=
  x * (2 * 2 ^ k - b * x / 2 ^ k) / 2 ^ k

/-- `n` Newton-Raphson iterations (R97 step 2). -/
def newtonIterate (k b : Nat) : Nat → Nat → Nat
  | 0, x => x
  | n + 1, x => newtonIterate k b n (newtonStep k b x)

/-- The refined reciprocal with 64 fraction bits: half-width iterations, then the full-width one
(R97 steps 1 and 2). -/
def reciprocal (c : Config) (sigB : Nat) : Nat :=
  let h := c.divHalfWidth
  let x := newtonIterate h (divisorFixed h sigB) c.divHalfIters (recipSeed h c.divC sigB)
  newtonIterate fullWidth (divisorFixed fullWidth sigB) divFullIters (x * 2 ^ fullWidth / 2 ^ h)

/-- The reciprocal `x` is within `RECIPROCAL_PRECISION` units of the last place of the reciprocal of
the divisor significand `sigB / 2^52` (R97 step 3). -/
def reciprocalAccurate (x sigB : Nat) : Prop :=
  ((x : ℤ) * sigB - 2 ^ 116).natAbs ≤ reciprocalPrecision * sigB

/-- The candidate quotient: the reciprocal times the dividend significand through the widening
multiplier, at the place the result's last bit has (R97 step 4, R98). -/
def candidateQuotient (x sigA shift : Nat) : Nat :=
  (wmul (BitVec.ofNat 64 sigA) (BitVec.ofNat 64 x)).1.toNat / 2 ^ shift

/-- The residual `N − q·D` of a candidate is computed exactly, and the candidate corrected by one where
the residual is negative or still holds a divisor (R97, R98). The source does not count its
corrections; one is the model's number (DESIGN CHOICE, log entry 17), so a candidate further off
stays wrong. -/
def correctQuotient (n d cand : Nat) : Nat × Nat :=
  let r : ℤ := (n : ℤ) - cand * d
  if r < 0 then (cand - 1, (r + d).toNat)
  else if r < d then (cand, r.toNat)
  else (cand + 1, (r - d).toNat)

/-- The quotient and residual as the source's scheme finds them (R97, R98). -/
def reciprocalQuotient (c : Config) (sigA sigB shift : Nat) : Nat × Nat :=
  correctQuotient (sigA * 2 ^ 52) (sigB * 2 ^ shift)
    (candidateQuotient (reciprocal c sigB) sigA shift)

end Sys2Proof.Machine
end

