-- ==== Sys2Proof/Machine/Reference.lean ====
section
/-! DEFINITION. The exact values of patterns and the reference rounding the engines are held to
(40_components.md R62, R63; 00_scope.md R10), over the rationals: every exact sum, product and quotient
of finite patterns is rational (log entry 19). -/

namespace Sys2Proof.Machine

open Sys2Proof

/-- `value(x)` of a finite pattern (R62). -/
def value (x : Word) : ℚ :=
  (if signField x = 1#1 then -1 else 1) *
    (if expField x = 0#11 then ((sigField x).toNat : ℚ) * 2 ^ (-1074 : ℤ)
     else ((2 ^ 52 + (sigField x).toNat : ℕ) : ℚ) * 2 ^ (((expField x).toNat : ℤ) - 1075))

/-- `sign(v)`: 1 for a negative number, else 0 (41_fp_adder.md R77). -/
def signOf (v : ℚ) : BitVec 1 :=
  if v < 0 then 1#1 else 0#1

/-- `floor(log2(v))` of a positive rational: the e with 2^e ≤ v < 2^(e+1) (R63). -/
def floorLog2 (v : ℚ) : ℤ :=
  let k : ℤ := (Nat.log2 v.num.toNat : ℤ) - Nat.log2 v.den
  if (2 : ℚ) ^ k ≤ v then k else k - 1

/-- `round_half_even(t)`: the nearest integer, the even one of two equally near (R10). -/
def roundHalfEven (t : ℚ) : ℤ :=
  let f := ⌊t⌋
  if t - f < 1 / 2 then f
  else if t - f > 1 / 2 then f + 1
  else if f % 2 = 0 then f else f + 1

/-- The sign bit of a result, `zext_64(s) << 63` (R63). -/
def signWord (s : BitVec 1) : Word :=
  s.setWidth 64 <<< 63

/-- The exponent `RNE64` rounds at: that of the value, or -1022 in the subnormal range (R63). -/
def rneExp (v : ℚ) : ℤ :=
  max (floorLog2 v) (-1022)

/-- The magnitude of `RNE64`, the pattern without its sign, with overflow to infinity (R63). -/
def rneMag (v : ℚ) : ℤ :=
  let e := rneExp v
  let n := roundHalfEven (v / 2 ^ (e - 52))
  let mag : ℤ := (e + 1023 - 1) * 2 ^ 52 + n
  if mag ≥ (infPattern.toNat : ℤ) then (infPattern.toNat : ℤ) else mag

/-- `RNE64(s, v)` for v ≥ 0 (R63). -/
def rne64 (s : BitVec 1) (v : ℚ) : Word :=
  if v = 0 then signWord s else signWord s ||| BitVec.ofInt 64 (rneMag v)

end Sys2Proof.Machine
end

