-- ==== Sys2Proof/Machine/SubBlocks.lean ====
section
/-! DEFINITION. The sub-blocks at their own ports (10_state.md R21, D21). A requester cannot reach them
through `op`. Where the spec lets a model refuse an input that no engine drives, the port refuses it by
name (93_implementation_defined.md X2 to X5, X15). -/

namespace Sys2Proof.Machine

open Sys2Proof

/-- `bit_field_codec.decompose` (40_components.md R46). -/
def decomposePort (x : Word) : BitVec 1 × BitVec 11 × BitVec 52 :=
  decompose x

/-- `bit_field_codec.recompose` on integers: "callers must supply already-legal field values", and a
value wider than its field is refused (R47, X15). -/
def recomposePort (sign exp sig : Nat) : Except Refusal Word :=
  if sign < 2 ^ 1 ∧ exp < 2 ^ 11 ∧ sig < 2 ^ 52 then
    .ok (recompose (BitVec.ofNat 1 sign) (BitVec.ofNat 11 exp) (BitVec.ofNat 52 sig))
  else .error .fieldOutOfRange

/-- `special_value_classifier` (R49). -/
def classifierPort (x : Word) : Classes :=
  classify x

/-- `normalizer`; a zero significand is refused (R53, X3). -/
def normalizerPort (sig : BitVec 52) : Except Refusal (Int × BitVec 53) :=
  if sig = 0#52 then .error .normalizeZero else .ok (normalize sig)

/-- `widening_multiplier` (R54). -/
def wideningMultiplierPort (x y : Word) : Word × Word :=
  wmul x y

/-- `shr_sticky64` on the shifts it is defined for (R55, X4). -/
def shrStickyPort (x : Word) (n : Nat) : Except Refusal Word :=
  if 1 ≤ n ∧ n ≤ 63 then .ok (shrSticky64 x n) else .error (.shiftOutOfRange n)

/-- `wide_shr_sticky` on the shifts it is defined for (R56, X5). -/
def wideShrStickyPort (hi lo : Word) (n : Nat) : Except Refusal (Word × Word) :=
  if 1 ≤ n ∧ n ≤ 63 then .ok (wideShrSticky hi lo n) else .error (.shiftOutOfRange n)

/-- The 2-bit category code of the rounding unit: 00 below, 01 half, 10 above; 11 is refused
(R57, X2). -/
def categoryOfCode (cat : BitVec 2) : Except Refusal Category :=
  if cat = 0b00#2 then .ok .below
  else if cat = 0b01#2 then .ok .half
  else if cat = 0b10#2 then .ok .above
  else .error .roundingCategory

/-- `rounding_unit` (R57). -/
def roundingUnitPort (packed : Word) (cat : BitVec 2) : Except Refusal Word :=
  match categoryOfCode cat with
  | .ok c => .ok (roundPacked packed c)
  | .error r => .error r

end Sys2Proof.Machine
end

