-- ==== Sys2Proof/Machine/Schedule.lean ====
section
/-! DEFINITION. A requester's schedule: the inputs it drives, cycle by cycle (30_encoding.md R44 routes
results into operands outside the unit; 70_reset_and_hazards.md R117, R120). -/

namespace Sys2Proof.Machine

open Sys2Proof

/-- One cycle under given inputs: the requester drives them, then the unit steps. -/
def cycle (i : Inputs) (s : State) : Result :=
  step (s.drive i)

/-- The cycles of a schedule in turn, stopping at the first refusal. -/
def cycles : List Inputs → State → Result
  | [], s => .next s
  | i :: is, s => andThen (cycle i s) (cycles is)

/-- The inputs that carry request `i` in a registered form (R117). -/
def requesting (i : Instr) : Inputs where
  req := encode i
  inValid := true
  rst := false

end Sys2Proof.Machine
end

