-- ==== Sys2Proof/Machine/UnitFunction.lean ====
section
/-! DEFINITION. The result function `F(op, a, b)` of the combinational contract (10_state.md R18): total on
every defined op code and every pair of operands. -/

namespace Sys2Proof.Machine

open Sys2Proof

/-- `F` on a decoded request (10_state.md R18). -/
def unitFunction (c : Config) : Instr → Word
  | .add a b => addEngine c.nanSignAdd c.expw a b
  | .sub a b => subEngine c.nanSignAdd c.expw a b
  | .mul a b => mulEngine c.nanSignMul c.expw a b
  | .div a b => divEngine c.nanSignDiv c.expw a b
  | .neg a _ => negEngine a

end Sys2Proof.Machine
end

