-- ==== Sys2Proof/Safety.lean ====
section
/-! DEFINITION. What a lawful state, a lawful requester and a delivered result are, in the terms claims
use (70_reset_and_hazards.md R116, R117, R120; 10_state.md R18). -/

namespace Sys2Proof.Machine

open Sys2Proof

/-- A request in flight between two cycles: accepted at least one cycle ago, not past its latency, and
holding the result of its operation (R117, 10_state.md R20). -/
def InFlight.lawful (c : Config) (e : InFlight) : Prop :=
  1 ≤ e.age ∧ e.age ≤ latencyOf c e.request ∧ e.result = unitFunction c e.request

/-- Two requests in flight, the first the older: accepted in different cycles, and at least `II`
cycles apart unless both are marked as overlapped (R117). -/
def spaced (c : Config) (e f : InFlight) : Prop :=
  f.age < e.age ∧ (e.overlapped = false ∨ f.overlapped = false → f.age + c.ii ≤ e.age)

/-- The invariant of the unit between steps, from any state that has it and under any inputs. -/
structure State.Inv (s : State) : Prop where
  /-- The parameters keep the limits of 00_scope.md R7. -/
  cfgWf : s.cfg.wf = true
  /-- The combinational form has no registers, no `out_valid` and no reset (10_state.md R19). -/
  combinationalIdle : isCombinational s.cfg = true →
    s.pipe = [] ∧ s.outValid = false ∧ s.busy = 0 ∧ s.awaitingReset = false
  /-- Every request in flight is lawful. -/
  inFlightLawful : ∀ e ∈ s.pipe, e.lawful s.cfg
  /-- The requests in flight are spaced, oldest first. -/
  inFlightSpaced : s.pipe.Pairwise (spaced s.cfg)
  /-- A further request would come too soon for less than `II` cycles more. -/
  busyBound : s.busy < s.cfg.ii
  /-- While a request in flight is younger than `II` cycles, a further one would come too soon. -/
  busyCovers : ∀ e ∈ s.pipe, s.cfg.ii ≤ s.busy + e.age
  /-- Before the first reset nothing is in flight. -/
  powerUpEmpty : s.awaitingReset = true → s.pipe = []

/-- All operations have one latency (R120). -/
def latenciesEqual (c : Config) : Prop :=
  ∀ i j : Instr, latencyOf c i = latencyOf c j

/-- The request on the ports has a defined op code (30_encoding.md R42). -/
def requestDefined (s : State) : Bool :=
  (requestOn s).wf

/-- The requests whose result falls in the cycle about to run (R117). -/
def dueNow (s : State) : List InFlight :=
  s.pipe.filter (isDue s.cfg)

/-- No two results fall in the cycle a registered unit is about to run, the request on its ports
included (R120). -/
def noCollision (s : State) : Prop :=
  s.awaitingReset = true ∨
    ((dueNow s).length ≤ 1 ∧
      (dueNow s ≠ [] → requestPresent s = true →
        ∀ i, decode (requestOn s) = .ok i → latencyOf s.cfg i ≠ 0))

/-- The unit, in state `s`, takes request `i` and gives it the pattern `r`, in each form it may have:
the combinational form drives `y` with it (10_state.md R18); a registered unit past its first reset,
with no request less than `II` cycles before, puts it into the pipeline, or shows it in this very cycle
at latency 0 (R117; in the first cycle after a reset the model's choice, log entry 25). -/
def Delivers (s : State) (i : Instr) (r : Word) : Prop :=
  (isCombinational s.cfg = true → exec i s = .next (s.setY r)) ∧
  (isCombinational s.cfg = false → s.awaitingReset = false → s.busy = 0 →
    (latencyOf s.cfg i ≠ 0 →
      exec i s = .next ((s.setBusy s.cfg.ii).setPipe
        (s.pipe ++ [{ request := i, age := 0, result := r, overlapped := false }]))) ∧
    (latencyOf s.cfg i = 0 → s.outValid = false →
      exec i s = .next ((s.setBusy s.cfg.ii).setOutputs r true)))

/-- The operands of a request are finite patterns (30_encoding.md R37). -/
def bothFinite (a b : Word) : Prop :=
  isFinite a = true ∧ isFinite b = true

/-- The operands of a request are finite and nonzero. -/
def bothFiniteNonzero (a b : Word) : Prop :=
  bothFinite a b ∧ isZero a = false ∧ isZero b = false

end Sys2Proof.Machine
end

