-- ==== Sys2Proof/Certificates/Slice0/Obligations.lean ====
section
/-! DEFINITION. The statements for the provers, in the order of the spec's files. OBLIGATIONS.json gives
each its number, tier, rule and quotation. -/

open Sys2Proof Sys2Proof.Machine

/-! ## Requests and decoding (30_encoding.md) -/

/-- R40: the op codes select their operations, with the operands as they stand; three are reserved. -/
def Obligations.OpCodesSelectTheirOperations : Prop :=
  ∀ a b : Word,
    decode ⟨0b000#3, a, b⟩ = .ok (.add a b) ∧
    decode ⟨0b001#3, a, b⟩ = .ok (.sub a b) ∧
    decode ⟨0b010#3, a, b⟩ = .ok (.mul a b) ∧
    decode ⟨0b011#3, a, b⟩ = .ok (.div a b) ∧
    decode ⟨0b100#3, a, b⟩ = .ok (.neg a b) ∧
    decode ⟨0b101#3, a, b⟩ = .error (.reservedOp 0b101#3) ∧
    decode ⟨0b110#3, a, b⟩ = .error (.reservedOp 0b110#3) ∧
    decode ⟨0b111#3, a, b⟩ = .error (.reservedOp 0b111#3)

/-- R39 to R41, R43: every instruction decodes from its own request, and from the packed number of that
request (the packing is the model's choice, log entry 15). -/
def Obligations.EncodedInstructionsDecodeFromThePackedWord : Prop :=
  ∀ (i : Instr) (nbits : Nat), 131 ≤ nbits →
    decode (encode i) = .ok i ∧ decodeTableWord nbits (encode i).toBits = some i

/-- R40, R42, R43: a request with a defined op code is the request of exactly the instruction it decodes
to; any other is refused by its op code. -/
def Obligations.DecodingIsOneToOneOnDefinedOpCodes : Prop :=
  ∀ r : Request,
    (r.wf = true → ∃ i, decode r = .ok i ∧ encode i = r ∧ ∀ j, encode j = r → j = i) ∧
    (r.wf = false → decode r = .error (.reservedOp r.op))

/-- R42: a request with op code 101, 110 or 111 is refused by name, in both forms. -/
def Obligations.ReservedOpCodesAreRefused : Prop :=
  ∀ s : State, s.op = 0b101#3 ∨ s.op = 0b110#3 ∨ s.op = 0b111#3 →
    issue s = .refused (.reservedOp s.op) ∧
    (isCombinational s.cfg = true → step s = .refused (.reservedOp s.op)) ∧
    (isCombinational s.cfg = false → requestPresent s = true → noCollision s →
      step s = .refused (.reservedOp s.op))

/-! ## The step (10_state.md, 70_reset_and_hazards.md) -/

/-- A step runs the decoded instruction: in the combinational form it is `exec` of it; a registered
cycle shows the result due in it, then runs `exec` if a request is present, then ends with the edge. -/
def Obligations.StepRunsTheDecodedInstruction : Prop :=
  ∀ (s : State) (i : Instr), decode (requestOn s) = .ok i →
    (isCombinational s.cfg = true → step s = exec i s) ∧
    (isCombinational s.cfg = false → requestPresent s = true →
      step s = andThen (beginCycle s) fun t => andThen (exec i t) fun u => .next (clockEdge u)) ∧
    (isCombinational s.cfg = false → requestPresent s = false →
      step s = andThen (beginCycle s) fun t => .next (clockEdge t))

/-- R18: in the combinational form `y` is `F(op, a, b)`, and stays so while the inputs do. -/
def Obligations.CombinationalOutputIsTheUnitFunction : Prop :=
  ∀ (s : State) (i : Instr), isCombinational s.cfg = true → decode (requestOn s) = .ok i →
    step s = .next (s.setY (unitFunction s.cfg i)) ∧
    step (s.setY (unitFunction s.cfg i)) = .next (s.setY (unitFunction s.cfg i))

/-- R13: in the combinational form nothing but the parameters and the request reaches `y`. -/
def Obligations.ResultsDependOnTheRequestAlone : Prop :=
  ∀ s s' t : State, isCombinational s.cfg = true → s'.cfg = s.cfg → requestOn s' = requestOn s →
    step s = .next t → ∃ t', step s' = .next t' ∧ t'.y = t.y

/-- R102: ADD, SUB, MUL, DIV and NEG all complete, in every form and whatever the operands, except that
a result of latency 0 may not fall beside another one (R120). The combinational form shows `F`; before
the first reset nothing of a request is kept but the spacing of `II` (log entries 8 and 12). -/
def Obligations.AllFiveOperationsComplete : Prop :=
  ∀ (s : State) (i : Instr),
    isCombinational s.cfg = true ∨ s.awaitingReset = true ∨ latencyOf s.cfg i ≠ 0 ∨
      s.outValid = false →
    ∃ t, exec i s = .next t ∧ (isCombinational s.cfg = true → t = s.setY (unitFunction s.cfg i)) ∧
      (isCombinational s.cfg = false → s.awaitingReset = true → t = s.setBusy s.cfg.ii)

/-- What ADD, SUB, MUL, DIV and NEG leave unchanged: the parameters, the input ports and the wait for a
reset always; all but `y` in the combinational form; the outputs and the free values in a registered
unit whose latency is not 0; the older requests' order, ages and results. That a request before the
first reset leaves outputs, pipeline and free values unchanged is the model's choice (log entry 12). -/
def Obligations.AcceptingARequestLeavesTheRest : Prop :=
  ∀ (s t : State) (i : Instr), exec i s = .next t →
    t.cfg = s.cfg ∧ requestOn t = requestOn s ∧ t.inValid = s.inValid ∧ t.rst = s.rst ∧
    t.awaitingReset = s.awaitingReset ∧
    (isCombinational s.cfg = true →
      t.outValid = s.outValid ∧ t.pipe = s.pipe ∧ t.busy = s.busy ∧ t.draws = s.draws) ∧
    (isCombinational s.cfg = false → s.awaitingReset = true →
      t.y = s.y ∧ t.outValid = s.outValid ∧ t.pipe = s.pipe ∧ t.draws = s.draws) ∧
    (isCombinational s.cfg = false → s.awaitingReset = false →
      (latencyOf s.cfg i ≠ 0 → t.y = s.y ∧ t.outValid = s.outValid ∧ t.draws = s.draws) ∧
      ∀ (n : Nat) (e : InFlight), s.pipe[n]? = some e →
        ∃ d, t.pipe[n]? = some d ∧ d.request = e.request ∧ d.age = e.age ∧ d.result = e.result)

/-- No step changes a parameter or an input port (00_scope.md R7; the ports are the requester's, log
entry 4). -/
def Obligations.StepsChangeNoParameterAndNoInput : Prop :=
  ∀ s t : State, step s = .next t →
    t.cfg = s.cfg ∧ requestOn t = requestOn s ∧ t.inValid = s.inValid ∧ t.rst = s.rst

/-- R102: no request with a defined op code stops the unit, and the only stops there are, are the
refusals of a reserved op code (R42) and of two results in one cycle (R120). -/
def Obligations.OnlyReservedCodesAndCollisionsStop : Prop :=
  ∀ s : State,
    (isCombinational s.cfg = true → requestDefined s = true → ∃ t, step s = .next t) ∧
    (isCombinational s.cfg = false → noCollision s →
      (requestPresent s = true → requestDefined s = true) → ∃ t, step s = .next t) ∧
    (∀ r, step s = .refused r →
      (r = .reservedOp s.op ∧ requestDefined s = false) ∨
      (r = .resultCollision ∧ isCombinational s.cfg = false))

/-! ## The registered form (10_state.md, 70_reset_and_hazards.md) -/

/-- R117, R19: a request accepted with no request less than `II` cycles before it and none less than
`II` cycles after it has its result on `y`, with `out_valid = 1`, `LATENCY_<op>` cycles after the cycle
of its acceptance, whatever else is in flight or asked for. A reset may be asked for in the very cycle
of the result; that the result is still shown there is the model's reading of R116 (DEDUCED, log entry
9, unsafe for this claim). That a result of latency 0 is shown in the first cycle after a reset is the
model's choice (log entry 25). -/
def Obligations.ResultAppearsAfterItsLatency : Prop :=
  ∀ (s t : State) (i : Instr) (ins : List Inputs),
    isCombinational s.cfg = false → s.awaitingReset = false → s.busy = 0 →
    ins.length = latencyOf s.cfg i →
    (∀ j ∈ ins.dropLast, j.rst = false) →
    (∀ (n : Nat) (j : Inputs), ins[n]? = some j → n + 1 < s.cfg.ii → j.inValid = false) →
    cycles (requesting i :: ins) s = .next t →
    t.y = unitFunction s.cfg i ∧ t.outValid = true

/-- R117, R23: an idle unit given one request and then left alone runs on, shows the result in the one
cycle that lies `LATENCY_<op>` cycles after the acceptance, and has `out_valid = 0` in every other. That
this holds at latency 0 in the first cycle after a reset is the model's choice (log entry 25). -/
def Obligations.AnIdleUnitAnswersExactlyOnce : Prop :=
  ∀ (s : State) (i : Instr) (ins : List Inputs),
    isCombinational s.cfg = false → s.awaitingReset = false → s.busy = 0 → s.pipe = [] →
    (∀ j ∈ ins, j.inValid = false ∧ j.rst = false) →
    ∃ t, cycles (requesting i :: ins) s = .next t ∧
      (t.outValid = true ↔ ins.length = latencyOf s.cfg i) ∧
      (ins.length = latencyOf s.cfg i → t.y = unitFunction s.cfg i)

/-- R117, X8: a request sooner than `II` after the last accepted one is taken, but its result and that
of the request it overlaps are unspecified (the free values of log entries 6 and 7). -/
def Obligations.RequestsTooSoonAreUnspecified : Prop :=
  ∀ (s : State) (i : Instr),
    isCombinational s.cfg = false → s.awaitingReset = false → s.busy ≠ 0 →
    (latencyOf s.cfg i ≠ 0 →
      ∃ t e, exec i s = .next t ∧ t.pipe = markOverlapped s.cfg.ii s.pipe ++ [e] ∧
        e.request = i ∧ e.age = 0 ∧ e.overlapped = true ∧ t.busy = s.cfg.ii) ∧
    (latencyOf s.cfg i = 0 → s.outValid = false →
      ∃ t, exec i s = .next t ∧ t.pipe = markOverlapped s.cfg.ii s.pipe ∧
        t.y = Config.freeWord s.draws ∧ t.outValid = true ∧ t.busy = s.cfg.ii) ∧
    (∀ (p : List InFlight) (e : InFlight), e ∈ p → e.age < s.cfg.ii →
      { e with overlapped := true } ∈ markOverlapped s.cfg.ii p) ∧
    (∀ t e, e.overlapped = true → t = s.showEntry e →
      t.y = Config.freeWord s.draws ∧ t.outValid = true)

/-- R120, X9: two results in one cycle are refused, whether two requests in flight are due in it or one
is and a request of latency 0 comes. -/
def Obligations.TwoResultsInOneCycleAreRefused : Prop :=
  ∀ s : State, isCombinational s.cfg = false → s.awaitingReset = false →
    (2 ≤ (dueNow s).length → step s = .refused .resultCollision) ∧
    ((dueNow s).length = 1 → requestPresent s = true →
      ∀ i, decode (requestOn s) = .ok i → latencyOf s.cfg i = 0 →
        step s = .refused .resultCollision)

/-- R120: with all latencies equal, results come out in the order of acceptance and never two in one
cycle. -/
def Obligations.EqualLatenciesKeepOrderAndNeverCollide : Prop :=
  ∀ s : State, s.Inv → isCombinational s.cfg = false → latenciesEqual s.cfg →
    (∀ e ∈ dueNow s, s.pipe.head? = some e) ∧ (dueNow s).length ≤ 1 ∧
    step s ≠ .refused .resultCollision

/-- R116: an edge with `rst = 1` discards every request in flight, ends a power-up and takes no request;
from the next cycle on, with no request made, `out_valid` is 0. Until the first such edge the outputs
are any value. The combinational form has no reset input: `rst` and `in_valid` change nothing. The
model's choices: the spacing of `II` goes on through a reset (`t.busy = s.busy - 1`, log entry 8), any
value is a free value (log entry 6), and nothing else is shown before the first reset (log entry 12). -/
def Obligations.ResetDiscardsEverythingInFlight : Prop :=
  (∀ s t : State, isCombinational s.cfg = false → s.rst = true → step s = .next t →
    t.pipe = [] ∧ t.awaitingReset = false ∧ t.busy = s.busy - 1) ∧
  (∀ s t : State, isCombinational s.cfg = false → s.rst = true → step s = .next t →
    ∀ (ins : List Inputs), ins ≠ [] → (∀ j ∈ ins, j.inValid = false) →
      ∃ u, cycles ins t = .next u ∧ u.outValid = false) ∧
  (∀ s t : State, isCombinational s.cfg = false → s.awaitingReset = true → step s = .next t →
    t.y = Config.freeWord s.draws ∧ t.outValid = Config.freeBit s.draws) ∧
  (∀ (s t : State) (v r : Bool), isCombinational s.cfg = true → step s = .next t →
    step (s.setControl v r) = .next (t.setControl v r))

/-- The invariant of the unit holds after reset and at power-up, for all lawful parameters (R23,
R116). -/
def Obligations.LawfulAtResetAndPowerUp : Prop :=
  State.reset.Inv ∧
  ∀ c : Config, c.wf = true → (State.afterReset c).Inv ∧ (State.powerUp c).Inv

/-- Every step keeps the invariant, and so does every action of the requester: what is in flight is
lawful and spaced, and holds the results of its operations (R20, R117). -/
def Obligations.StepsKeepTheInvariant : Prop :=
  ∀ s : State, s.Inv →
    (∀ t, step s = .next t → t.Inv) ∧ (∀ i : Inputs, (s.drive i).Inv)

/-- R23: what reset leaves. The combinational form shows `F` of its inputs (which stand at ADD of two
zeros, the model's choice, log entry 4); the registered form has `out_valid = 0`, nothing in flight
and any value on `y`. -/
def Obligations.ResetLeavesTheSpecifiedState : Prop :=
  State.reset.outValid = false ∧ State.reset.pipe = [] ∧
  (∃ i, decode (requestOn State.reset) = .ok i ∧
    State.reset.y = unitFunction State.reset.cfg i) ∧
  ∀ c : Config, isCombinational c = false →
    (State.afterReset c).outValid = false ∧ (State.afterReset c).pipe = [] ∧
    (State.afterReset c).awaitingReset = false ∧ (State.afterReset c).y = Config.freeWord 0

/-- R119, R18, X10: in the combinational form `y` is any value once `op`, `a` or `b` has moved, and the
next step settles it on `F` of the new inputs (log entry 6); while they do not move `y` stays, so after
a step it is still `F` of them. -/
def Obligations.UnsettledOutputIsAnyValue : Prop :=
  ∀ (s : State) (j : Inputs) (i : Instr), isCombinational s.cfg = true → decode j.req = .ok i →
    (j.req ≠ requestOn s → (s.drive j).y = Config.freeWord s.draws) ∧
    (j.req = requestOn s → (s.drive j).y = s.y ∧
      ∀ u, step s = .next u → (u.drive j).y = unitFunction s.cfg i) ∧
    ∃ t, step (s.drive j) = .next t ∧ t.y = unitFunction s.cfg i

/-! ## Sub-blocks (40_components.md) -/

/-- R48: the codec's laws. -/
def Obligations.CodecIsABijection : Prop :=
  (∀ x : Word, recompose (decompose x).1 (decompose x).2.1 (decompose x).2.2 = x) ∧
  (∀ (s : BitVec 1) (e : BitVec 11) (f : BitVec 52), decompose (recompose s e f) = (s, e, f))

/-- R47, X15: the fields are combined at their places, and a value wider than its field is refused. -/
def Obligations.RecomposePlacesItsFields : Prop :=
  ∀ s e f : Nat,
    (s < 2 → e < 2 ^ 11 → f < 2 ^ 52 →
      ∃ x, recomposePort s e f = .ok x ∧ x.toNat = s * 2 ^ 63 + e * 2 ^ 52 + f) ∧
    (2 ≤ s ∨ 2 ^ 11 ≤ e ∨ 2 ^ 52 ≤ f → recomposePort s e f = .error .fieldOutOfRange)

/-- R49: the classifier's outputs from the numbers in the fields; exactly one of the first five is set,
and the sign does not change the class. -/
def Obligations.ClassifierSetsExactlyOneClass : Prop :=
  ∀ x : Word,
    let e := x.toNat / 2 ^ 52 % 2 ^ 11
    let f := x.toNat % 2 ^ 52
    let c := classify x
    (c.isZero = true ↔ e = 0 ∧ f = 0) ∧
    (c.isSubnormal = true ↔ e = 0 ∧ f ≠ 0) ∧
    (c.isNormal = true ↔ e ≠ 0 ∧ e ≠ 2047) ∧
    (c.isInf = true ↔ e = 2047 ∧ f = 0) ∧
    (c.isNaN = true ↔ e = 2047 ∧ f ≠ 0) ∧
    (c.isQuiet = true ↔ c.isNaN = true ∧ 2 ^ 51 ≤ f) ∧
    [c.isZero, c.isSubnormal, c.isNormal, c.isInf, c.isNaN].count true = 1 ∧
    classify (x ^^^ signMask) = c

/-- R50, R52: the tests on the absolute value and on the exponent field agree with the classifier. -/
def Obligations.AbsoluteValueTestsAgreeWithTheClassifier : Prop :=
  ∀ x : Word,
    let c := classify x
    special x = (c.isZero || c.isInf || c.isNaN) ∧
    isNaN x = c.isNaN ∧ isInf x = c.isInf ∧ isZero x = c.isZero ∧
    specialOrSubnormal x = !c.isNormal ∧
    (special x = true ↔ x.toNat % 2 ^ 63 = 0 ∨ infPattern.toNat ≤ x.toNat % 2 ^ 63)

/-- R51: the absolute bits of two patterns that are not NaN order their magnitudes, infinity above every
finite value; equal bits mean equal magnitude. -/
def Obligations.AbsoluteBitsOrderMagnitudes : Prop :=
  ∀ x z : Word, isNaN x = false → isNaN z = false →
    (isFinite x = true → isFinite z = true →
      ((x &&& absMask < z &&& absMask ↔ |value x| < |value z|) ∧
       (x &&& absMask = z &&& absMask ↔ |value x| = |value z|))) ∧
    (isFinite x = true → isInf z = true → x &&& absMask < z &&& absMask) ∧
    (isInf x = true → ¬ x &&& absMask < z &&& absMask)

/-- R53: the normalizer restores the implicit bit and keeps the value; zero is refused (X3). -/
def Obligations.NormalizerKeepsTheValue : Prop :=
  (∀ sig : BitVec 52, sig ≠ 0#52 →
    ∃ (shift : Nat) (nsig : BitVec 53), normalizerPort sig = .ok (1 - (shift : Int), nsig) ∧
      1 ≤ shift ∧ shift ≤ 52 ∧ nsig.toNat = sig.toNat * 2 ^ shift ∧
      2 ^ 52 ≤ nsig.toNat ∧ nsig.toNat ≤ 2 ^ 53 - 1 ∧
      (sig.toNat : ℚ) * 2 ^ (-1074 : ℤ) = nsig.toNat * 2 ^ ((1 - (shift : ℤ)) - 1075)) ∧
  normalizerPort 0#52 = .error .normalizeZero

/-- R54: the widening multiplier loses no bit. -/
def Obligations.WideningMultiplierIsExact : Prop :=
  ∀ x y : Word, x.toNat * y.toNat = (wmul x y).1.toNat * 2 ^ 64 + (wmul x y).2.toNat

/-- R55: the sticky shift divides, and sets bit 0 when anything was lost; other shifts are refused
(X4). -/
def Obligations.StickyShiftRemembersLostBits : Prop :=
  ∀ (x : Word) (n : Nat),
    (1 ≤ n → n ≤ 63 → ∃ r, shrStickyPort x n = .ok r ∧
      r.toNat = (x.toNat / 2 ^ n) ||| (if x.toNat % 2 ^ n = 0 then 0 else 1)) ∧
    (n = 0 ∨ 64 ≤ n → shrStickyPort x n = .error (.shiftOutOfRange n))

/-- R56: the wide sticky shift does the same for the 128 bits of two halves; other shifts are refused
(X5). -/
def Obligations.WideStickyShiftRemembersLostBits : Prop :=
  ∀ (hi lo : Word) (n : Nat),
    (1 ≤ n → n ≤ 63 → ∃ hi' lo', wideShrStickyPort hi lo n = .ok (hi', lo') ∧
      hi'.toNat * 2 ^ 64 + lo'.toNat =
        ((hi.toNat * 2 ^ 64 + lo.toNat) / 2 ^ n) |||
          (if (hi.toNat * 2 ^ 64 + lo.toNat) % 2 ^ n = 0 then 0 else 1)) ∧
    (n = 0 ∨ 64 ≤ n → wideShrStickyPort hi lo n = .error (.shiftOutOfRange n))

/-- R57: the rounding unit by its category code, and each engine's category from what it discards. -/
def Obligations.RoundingUnitFollowsItsCategory : Prop :=
  (∀ packed : Word,
    roundingUnitPort packed 0b00#2 = .ok packed ∧
    roundingUnitPort packed 0b01#2 = .ok (packed + (packed &&& 1#64)) ∧
    roundingUnitPort packed 0b10#2 = .ok (packed + 1#64) ∧
    roundingUnitPort packed 0b11#2 = .error .roundingCategory) ∧
  (∀ grs : Word, (categoryOfGrs grs = .above ↔ 4 < grs.toNat) ∧
    (categoryOfGrs grs = .half ↔ grs.toNat = 4) ∧ (categoryOfGrs grs = .below ↔ grs.toNat < 4)) ∧
  (∀ lo : Word, (categoryOfLow lo = .above ↔ 2 ^ 63 < lo.toNat) ∧
    (categoryOfLow lo = .half ↔ lo.toNat = 2 ^ 63) ∧
    (categoryOfLow lo = .below ↔ lo.toNat < 2 ^ 63)) ∧
  (∀ r d : Nat, (categoryOfResidual r d = .above ↔ d < 2 * r) ∧
    (categoryOfResidual r d = .half ↔ 2 * r = d) ∧ (categoryOfResidual r d = .below ↔ 2 * r < d))

/-- R58: below infinity the increment counts the magnitude up by at most one, through the exponent
field, and never reaches the sign. -/
def Obligations.RoundingNeverReachesTheSign : Prop :=
  ∀ (packed : Word) (c : Category), isFinite packed = true →
    signField (roundPacked packed c) = signField packed ∧
    (roundPacked packed c &&& absMask).toNat =
      (packed &&& absMask).toNat + (roundIncrement packed c).toNat ∧
    (roundIncrement packed c).toNat ≤ 1

/-- R60: a NaN result is the operand's NaN made quiet: exponent 2047, bit 51 set, bits 50:0 kept, the
sign as the parameter says; a quiet NaN is unchanged where the sign is preserved. -/
def Obligations.NaNResultsAreQuietAndKeepThePayload : Prop :=
  ∀ (p : NaNSign) (x : Word), isNaN x = true →
    let r := nanResult p x
    expField r = 2047#11 ∧ (classify r).isQuiet = true ∧
    r.extractLsb' 0 51 = x.extractLsb' 0 51 ∧
    (p = .preserve → signField r = signField x) ∧ (p = .clear → signField r = 0#1) ∧
    (p = .preserve → (classify x).isQuiet = true → r = x)

/-- R63: for every rational v ≥ 0, `RNE64` gives the binary64 pattern nearest v: no finite pattern is
nearer, one equally near leaves an even result, and infinity comes exactly from 2^1024 − 2^970 on. -/
def Obligations.ReferenceRoundingIsNearestEven : Prop :=
  ∀ (sg : BitVec 1) (v : ℚ), 0 ≤ v →
    let r := rne64 0#1 v
    rne64 sg v = signWord sg ||| r ∧
    (v < 2 ^ 1024 - 2 ^ 970 →
      isFinite r = true ∧ signField r = 0#1 ∧
      ∀ z : Word, isFinite z = true →
        |value r - v| ≤ |value z - v| ∧
        (|value r - v| = |value z - v| → value z ≠ value r → r.getLsbD 0 = false)) ∧
    (2 ^ 1024 - 2 ^ 970 ≤ v → r = infPattern)

/-- R63: a value that is a pattern's own rounds to that pattern. -/
def Obligations.ReferenceRoundingFixesFinitePatterns : Prop :=
  ∀ x : Word, isFinite x = true → rne64 (signField x) |value x| = x

/-! ## ADD, SUB and NEG (41_fp_adder.md) -/

/-- R66: the special cases of ADD, by the classes of the operands. -/
def Obligations.AddSpecialCasesFollowTheTable : Prop :=
  ∀ (s : State) (a b : Word),
    let ca := classify a
    let cb := classify b
    (ca.isNaN = true → Delivers s (.add a b) (nanResult s.cfg.nanSignAdd a)) ∧
    (ca.isNaN = false → cb.isNaN = true →
      Delivers s (.add a b) (nanResult s.cfg.nanSignAdd b)) ∧
    (ca.isInf = true → cb.isInf = true → signField a ≠ signField b →
      Delivers s (.add a b) qnan) ∧
    (ca.isInf = true → cb.isInf = true → signField a = signField b →
      Delivers s (.add a b) a) ∧
    (ca.isInf = true → isFinite b = true → Delivers s (.add a b) a) ∧
    (isFinite a = true → cb.isInf = true → Delivers s (.add a b) b) ∧
    (ca.isZero = true → cb.isZero = true → Delivers s (.add a b) (a &&& b)) ∧
    (ca.isZero = true → isFinite b = true → cb.isZero = false → Delivers s (.add a b) b) ∧
    (isFinite a = true → ca.isZero = false → cb.isZero = true → Delivers s (.add a b) a)

/-- R77: ADD of finite operands, not both zero, is the exact sum rounded; an exact sum of zero is +0. -/
def Obligations.AddOfFiniteOperandsIsTheRoundedSum : Prop :=
  ∀ (s : State) (a b : Word), 14 ≤ s.cfg.expw → bothFinite a b →
    isZero a = false ∨ isZero b = false →
    let v := value a + value b
    (v ≠ 0 → Delivers s (.add a b) (rne64 (signOf v) |v|)) ∧
    (v = 0 → Delivers s (.add a b) 0x0000000000000000#64)

/-- R72: exact cancellation gives +0 whatever the sign: x + (−x) and x − x for finite nonzero x. -/
def Obligations.ExactCancellationGivesPositiveZero : Prop :=
  ∀ (s : State) (x : Word), isFinite x = true → isZero x = false →
    Delivers s (.add x (negate x)) 0x0000000000000000#64 ∧
    Delivers s (.sub x x) 0x0000000000000000#64

/-- R71, R70: after alignment the smaller operand's significand is not above the larger one's, and is
below the implicit bit's place when the exponents differ. -/
def Obligations.AlignedOperandIsNotLarger : Prop :=
  ∀ (w : Nat) (a b : Word), 14 ≤ w → special a = false → special b = false →
    let x := largerOperand a b
    let z := smallerOperand a b
    (unpack w z).1 ≤ (unpack w x).1 ∧ alignedSmaller w x z ≤ widenedLarger w x ∧
    2 ^ 55 ≤ (widenedLarger w x).toNat ∧ (widenedLarger w x).toNat ≤ 2 ^ 56 - 8 ∧
    ((unpack w z).1 < (unpack w x).1 → (alignedSmaller w x z).toNat < 2 ^ 55)

/-- R75: the shift of a subnormal sum is 1 to 52, so the sticky shift is never asked for another. -/
def Obligations.AddUnderflowShiftIsInRange : Prop :=
  ∀ (w : Nat) (a b : Word), 14 ≤ w → special a = false → special b = false →
    let x := largerOperand a b
    let z := smallerOperand a b
    ¬ (isSubtraction x z = true ∧ widenedLarger w x = alignedSmaller w x z) →
    (addCombined w x z).1 ≤ 0 →
    1 ≤ underflowShift w (addCombined w x z).1 ∧ underflowShift w (addCombined w x z).1 ≤ 52

/-- R75: a subnormal or zero sum of finite operands is exact. -/
def Obligations.SubnormalSumsAreExact : Prop :=
  ∀ (c : Config) (a b : Word), 14 ≤ c.expw → bothFinite a b →
    expField (unitFunction c (.add a b)) = 0#11 →
    value (unitFunction c (.add a b)) = value a + value b

/-- R78: ADD commutes unless both operands are NaN; then each order gives its own first operand's NaN.
(R78 adds that two different NaNs then differ in result, which this does not say: a signaling NaN
and its quieted twin do not.) -/
def Obligations.AddCommutesUnlessBothAreNaN : Prop :=
  ∀ (s : State) (a b : Word),
    (isNaN a = false ∨ isNaN b = false →
      unitFunction s.cfg (.add a b) = unitFunction s.cfg (.add b a)) ∧
    (isNaN a = true → isNaN b = true →
      Delivers s (.add a b) (nanResult s.cfg.nanSignAdd a) ∧
      Delivers s (.add b a) (nanResult s.cfg.nanSignAdd b))

/-- R79: SUB gives what ADD gives with the second operand's sign flipped; its corner cases. -/
def Obligations.SubIsAddOfTheNegatedOperand : Prop :=
  ∀ (s : State) (a b : Word),
    (encode (.sub a b)).op = 0b001#3 ∧
    Delivers s (.sub a b) (unitFunction s.cfg (.add a (b ^^^ signMask))) ∧
    (isFinite a = true → isZero a = false → Delivers s (.sub a a) 0x0000000000000000#64) ∧
    Delivers s (.sub 0x0000000000000000#64 0x0000000000000000#64) 0x0000000000000000#64 ∧
    Delivers s (.sub 0x8000000000000000#64 0x8000000000000000#64) 0x0000000000000000#64 ∧
    Delivers s (.sub 0x0000000000000000#64 0x8000000000000000#64) 0x0000000000000000#64 ∧
    Delivers s (.sub 0x8000000000000000#64 0x0000000000000000#64) 0x8000000000000000#64 ∧
    Delivers s (.sub 0x7FF0000000000000#64 0x7FF0000000000000#64) 0x7FF8000000000000#64 ∧
    Delivers s (.sub 0x7FF0000000000000#64 0xFFF0000000000000#64) 0x7FF0000000000000#64 ∧
    (isNaN a = false → isNaN b = true →
      Delivers s (.sub a b) (nanResult s.cfg.nanSignAdd (b ^^^ signMask))) ∧
    (14 ≤ s.cfg.expw →
      Delivers s (.sub 0x4008000000000000#64 0x3FF0000000000000#64) 0x4000000000000000#64)

/-- R77 with R79: SUB of finite operands, not both zero, is the exact difference rounded. -/
def Obligations.SubOfFiniteOperandsIsTheRoundedDifference : Prop :=
  ∀ (s : State) (a b : Word), 14 ≤ s.cfg.expw → bothFinite a b →
    isZero a = false ∨ isZero b = false →
    let v := value a - value b
    (v ≠ 0 → Delivers s (.sub a b) (rne64 (signOf v) |v|)) ∧
    (v = 0 → Delivers s (.sub a b) 0x0000000000000000#64)

/-- R80: NEG flips the sign bit only, of any pattern and whatever stands on `b`; a signaling NaN stays
signaling; twice gives the operand back. -/
def Obligations.NegFlipsOnlyTheSign : Prop :=
  ∀ (s : State) (a b c : Word),
    let y := a ^^^ signMask
    (encode (.neg a b)).op = 0b100#3 ∧
    Delivers s (.neg a b) y ∧
    unitFunction s.cfg (.neg a c) = y ∧
    signField y ≠ signField a ∧ expField y = expField a ∧ sigField y = sigField a ∧
    classify y = classify a ∧
    Delivers s (.neg y b) a ∧
    (isFinite a = true → value y = -value a)

/-! ## MUL (42_fp_multiplier.md) -/

/-- R83: the special cases of MUL, by the classes of the operands. -/
def Obligations.MulSpecialCasesFollowTheTable : Prop :=
  ∀ (s : State) (a b : Word),
    let ca := classify a
    let cb := classify b
    let sign := signWord (signField a ^^^ signField b)
    (ca.isNaN = true → Delivers s (.mul a b) (nanResult s.cfg.nanSignMul a)) ∧
    (ca.isNaN = false → cb.isNaN = true →
      Delivers s (.mul a b) (nanResult s.cfg.nanSignMul b)) ∧
    (ca.isInf = true → cb.isNaN = false → cb.isZero = false →
      Delivers s (.mul a b) (infPattern ||| sign)) ∧
    (ca.isInf = true → cb.isZero = true → Delivers s (.mul a b) qnan) ∧
    (cb.isInf = true → ca.isNaN = false → ca.isZero = false →
      Delivers s (.mul a b) (infPattern ||| sign)) ∧
    (ca.isZero = true → cb.isInf = true → Delivers s (.mul a b) qnan) ∧
    (ca.isZero = true → isFinite b = true → Delivers s (.mul a b) sign) ∧
    (isFinite a = true → cb.isZero = true → Delivers s (.mul a b) sign)

/-- R85, R86: the 128-bit product of two 53-bit significands keeps every bit, and its leading bit stands
in bit 52 of the high half once aligned. -/
def Obligations.ProductLeadingBitIsPlaced : Prop :=
  ∀ (w : Nat) (e : Int) (x z : Word), 14 ≤ w → -1125 ≤ e → e ≤ 3069 →
    x.toNat < 2 ^ 53 → z.toNat < 2 ^ 53 →
    let p := mulProduct x z
    let n := mulAlign w e p.1 p.2
    p.1.toNat * 2 ^ 64 + p.2.toNat =
      (x ||| implBit).toNat * ((z ||| implBit).toNat * 2 ^ 11) ∧
    2 ^ 51 ≤ p.1.toNat ∧ p.1.toNat ≤ 2 ^ 53 - 1 ∧
    2 ^ 52 ≤ n.2.1.toNat ∧ n.2.1.toNat ≤ 2 ^ 53 - 1 ∧
    (n.1 = e + 1 ∧ n.2.1.toNat * 2 ^ 64 + n.2.2.toNat = p.1.toNat * 2 ^ 64 + p.2.toNat ∨
     n.1 = e ∧ n.2.1.toNat * 2 ^ 64 + n.2.2.toNat = 2 * (p.1.toNat * 2 ^ 64 + p.2.toNat))

/-- R91: MUL of finite nonzero operands is the exact product rounded. -/
def Obligations.MulOfFiniteOperandsIsTheRoundedProduct : Prop :=
  ∀ (s : State) (a b : Word), 14 ≤ s.cfg.expw → bothFiniteNonzero a b →
    Delivers s (.mul a b) (rne64 (signField a ^^^ signField b) |value a * value b|)

/-- R92: MUL commutes unless both operands are NaN; two NaNs give that of the first. -/
def Obligations.MulCommutesUnlessBothAreNaN : Prop :=
  ∀ (s : State) (a b : Word),
    (isNaN a = false ∨ isNaN b = false →
      unitFunction s.cfg (.mul a b) = unitFunction s.cfg (.mul b a)) ∧
    (isNaN a = true → isNaN b = true → Delivers s (.mul a b) (nanResult s.cfg.nanSignMul a))

/-! ## DIV (43_fp_divider.md) -/

/-- R94: the special cases of DIV, by the classes of the operands. -/
def Obligations.DivSpecialCasesFollowTheTable : Prop :=
  ∀ (s : State) (a b : Word),
    let ca := classify a
    let cb := classify b
    let sign := signWord (signField a ^^^ signField b)
    (ca.isNaN = true → Delivers s (.div a b) (nanResult s.cfg.nanSignDiv a)) ∧
    (ca.isNaN = false → cb.isNaN = true →
      Delivers s (.div a b) (nanResult s.cfg.nanSignDiv b)) ∧
    (ca.isInf = true → cb.isInf = true → Delivers s (.div a b) qnan) ∧
    (ca.isInf = true → isFinite b = true → Delivers s (.div a b) (infPattern ||| sign)) ∧
    (isFinite a = true → cb.isInf = true → Delivers s (.div a b) sign) ∧
    (ca.isZero = true → cb.isZero = true → Delivers s (.div a b) qnan) ∧
    (ca.isZero = true → isFinite b = true → cb.isZero = false → Delivers s (.div a b) sign) ∧
    (isFinite a = true → ca.isZero = false → cb.isZero = true →
      Delivers s (.div a b) (infPattern ||| sign))

/-- R98: quotient and residual of aligned significands with A / B in [1, 2), and their ranges. -/
def Obligations.QuotientAndResidualAreExact : Prop :=
  ∀ sigA sigB shift : Nat, 2 ^ 52 ≤ sigB → sigB ≤ 2 ^ 53 - 1 → sigB ≤ sigA → sigA < 2 * sigB →
    let n := sigA * 2 ^ 52
    let d := sigB * 2 ^ shift
    let q := (quotientResidual sigA sigB shift).1
    let r := (quotientResidual sigA sigB shift).2
    n = q * d + r ∧ r < d ∧
    (shift = 0 → 2 ^ 52 ≤ q ∧ q ≤ 2 ^ 53 - 1) ∧ (0 < shift → q ≤ 2 ^ 52 - 1)

/-- R99: a normal quotient is never a tie. -/
def Obligations.NormalQuotientsNeverTie : Prop :=
  ∀ sigA sigB : Nat, 2 ^ 52 ≤ sigB → sigB ≤ 2 ^ 53 - 1 → sigB ≤ sigA → sigA < 2 * sigB →
    categoryOfResidual (quotientResidual sigA sigB 0).2 sigB ≠ .half

/-- R101: DIV of finite nonzero operands is the exact quotient rounded. -/
def Obligations.DivOfFiniteOperandsIsTheRoundedQuotient : Prop :=
  ∀ (s : State) (a b : Word), 14 ≤ s.cfg.expw → bothFiniteNonzero a b →
    Delivers s (.div a b) (rne64 (signField a ^^^ signField b) |value a / value b|)

/-- R93: a finite nonzero operand divided by itself is 1.0. -/
def Obligations.DividingByItselfGivesOne : Prop :=
  ∀ (s : State) (a : Word), 14 ≤ s.cfg.expw → isFinite a = true → isZero a = false →
    Delivers s (.div a a) 0x3FF0000000000000#64

/-- R97, R98, X13: whatever the reciprocal's parameters, a refined reciprocal within 220 units of the
last place has its candidate corrected to the exact quotient and residual that DIV rounds; and the
parameters of log entry 17 (PRESUMED), with 3 half-width iterations or more, give such a reciprocal for
every divisor significand. The fixed-point formats and the single correction are the model's own
(DESIGN CHOICE, log entry 17). -/
def Obligations.ReciprocalSchemeDeliversTheExactQuotient : Prop :=
  ∀ (c : Config) (sigB : Nat), 2 ^ 52 ≤ sigB → sigB ≤ 2 ^ 53 - 1 →
    (reciprocal c sigB < 2 ^ 64 → reciprocalAccurate (reciprocal c sigB) sigB →
      ∀ sigA shift : Nat, sigA < 2 ^ 54 →
        reciprocalQuotient c sigA sigB shift = quotientResidual sigA sigB shift) ∧
    (c.divHalfWidth = 32 → c.divC = 0x17504F333 → 3 ≤ c.divHalfIters →
      reciprocal c sigB < 2 ^ 64 ∧ reciprocalAccurate (reciprocal c sigB) sigB)

/-- R97 with R98: a reciprocal within 220 units of the last place leaves the candidate quotient at most
one away from the truncated quotient (in the model's formats, log entry 17). -/
def Obligations.AccurateReciprocalLeavesOneCorrection : Prop :=
  ∀ x sigA sigB shift : Nat, x < 2 ^ 64 → sigA < 2 ^ 54 → 0 < sigB → reciprocalAccurate x sigB →
    candidateQuotient x sigA shift ≤ (quotientResidual sigA sigB shift).1 + 1 ∧
    (quotientResidual sigA sigB shift).1 ≤ candidateQuotient x sigA shift + 1

/-! ## Exponents, NaN parameters and the host boundary -/

/-- R22, R61: every exponent datapath of at least 14 bits gives the same results. -/
def Obligations.ExponentWidthNeverMatters : Prop :=
  ∀ (c : Config) (w : Nat) (i : Instr), 14 ≤ c.expw → 14 ≤ w →
    unitFunction { c with expw := w } i = unitFunction c i

/-- R86, R96, R68: the exponents of finite nonzero operands, products and quotients stay in their
ranges. -/
def Obligations.InternalExponentsStayInRange : Prop :=
  ∀ (w : Nat) (a b : Word), 14 ≤ w → special a = false → special b = false →
    let pExp := productExp w a b (expWrap w (mulScale a + mulScale b))
    let qExp := quotientExp w a b
    (unpack w a).1 ≤ 2046 ∧ -51 ≤ (unpack w a).1 ∧
    -1125 ≤ pExp ∧ pExp ≤ 3069 ∧
    -1074 ≤ qExp ∧ qExp ≤ 3120 ∧
    -1075 ≤ (divAlign w qExp (divSig a) (divSig b)).1

/-- R60, X6: the NaN sign parameters change no result without a NaN operand, and of those with one only
bit 63. -/
def Obligations.NaNSignChangesOnlyTheSignOfNaNs : Prop :=
  ∀ (c : Config) (p q r : NaNSign) (i : Instr),
    let d := { c with nanSignAdd := p, nanSignMul := q, nanSignDiv := r }
    (isNaN i.operandA = false → isNaN i.operandB = false →
      unitFunction d i = unitFunction c i) ∧
    unitFunction d i &&& absMask = unitFunction c i &&& absMask

/-- R27, R28: a host that stores a pattern's bytes in any order presents the same pattern again, and the
bit-cast changes no pattern. -/
def Obligations.HostBytesRoundTrip : Prop :=
  ∀ (order : List (Fin 8)) (x : Word), byteOrderWf order = true →
    (patternToBytes order x).length = 8 ∧ patternOfBytes order (patternToBytes order x) = x ∧
    toBits (fromBits x) = x
end

