-- ==== Sys2Proof/Laws/Operands.lean ====
section
/-! SUPPORT. The arithmetic of the operand helpers, said once: the fields as numbers, the leading-zero
count, the exponent datapath, and the two parts of the reference rounding. -/

namespace Sys2Proof.Machine

open Sys2Proof

/-! ## Fields -/

theorem signField_toNat (x : Word) : (signField x).toNat = x.toNat / 2 ^ 63 := by
  have := x.isLt
  simp only [signField, BitVec.extractLsb'_toNat, Nat.shiftRight_eq_div_pow]
  omega

theorem expField_toNat (x : Word) : (expField x).toNat = x.toNat / 2 ^ 52 % 2 ^ 11 := by
  simp only [expField, BitVec.extractLsb'_toNat, Nat.shiftRight_eq_div_pow]

theorem sigField_toNat (x : Word) : (sigField x).toNat = x.toNat % 2 ^ 52 := by
  simp only [sigField, BitVec.extractLsb'_toNat, Nat.shiftRight_zero]

/-- A pattern is the number its three fields make. -/
theorem toNat_eq_fields (x : Word) :
    x.toNat = (signField x).toNat * 2 ^ 63 + (expField x).toNat * 2 ^ 52 + (sigField x).toNat := by
  have := x.isLt
  rw [signField_toNat, expField_toNat, sigField_toNat]
  omega

/-- The absolute value of a pattern is its low 63 bits. -/
theorem and_absMask_toNat (x : Word) : (x &&& absMask).toNat = x.toNat % 2 ^ 63 := by
  have h : absMask.toNat = 2 ^ 63 - 1 := by decide
  rw [BitVec.toNat_and, h, Nat.and_two_pow_sub_one_eq_mod]

/-- The sign bit of a pattern, in place. -/
theorem and_signMask_toNat (x : Word) : (x &&& signMask).toNat = x.toNat / 2 ^ 63 * 2 ^ 63 := by
  have hx := x.isLt
  have h : x &&& signMask = x - (x &&& absMask) := by
    have hm : signMask = ~~~ absMask := by decide
    have hle : x &&& absMask ≤ x := by
      rw [BitVec.le_def, BitVec.toNat_and]; exact Nat.and_le_left
    have hs : x = (x &&& signMask) + (x &&& absMask) := by
      have hd : (x &&& signMask) &&& (x &&& absMask) = 0#64 := by
        ext i hi
        simp only [hm, BitVec.getElem_and, BitVec.getElem_not]
        cases x[i] <;> cases absMask[i] <;> simp
      rw [BitVec.add_eq_or_of_and_eq_zero _ _ hd]
      ext i hi
      simp only [hm, BitVec.getElem_or, BitVec.getElem_and, BitVec.getElem_not]
      cases x[i] <;> cases absMask[i] <;> simp
    conv_rhs => lhs; rw [hs]
    simp
  rw [h, BitVec.toNat_sub, and_absMask_toNat]
  omega

/-! ## Leading zeros -/

/-- The highest set bit of a nonzero word stands at `63 - clz64 x`. -/
theorem clz64_spec {x : Word} (h : x ≠ 0#64) :
    clz64 x ≤ 63 ∧ 2 ^ (63 - clz64 x) ≤ x.toNat ∧ x.toNat < 2 ^ (64 - clz64 x) := by
  have hx : x.toNat ≠ 0 := by simpa [BitVec.toNat_eq] using h
  have hl : Nat.log2 x.toNat < 64 := (Nat.log2_lt hx).mpr x.isLt
  have hc : clz64 x = 63 - Nat.log2 x.toNat := by simp [clz64, h]
  have e1 : 63 - clz64 x = Nat.log2 x.toNat := by omega
  have e2 : 64 - clz64 x = Nat.log2 x.toNat + 1 := by omega
  rw [e1, e2]
  exact ⟨by omega, Nat.log2_self_le hx, Nat.lt_log2_self⟩

@[simp] theorem clz64_implBit : clz64 implBit = 11 := by decide

/-! ## The exponent datapath -/

/-- An exponent in the range of 13 bits and a sign never wraps (10_state.md R22). -/
theorem expWrap_eq {w : Nat} {e : Int} (hw : 14 ≤ w) (hl : -8192 ≤ e) (hu : e < 8192) :
    expWrap w e = e := by
  have h14 : (2 : Int) ^ 14 ≤ 2 ^ w := by exact_mod_cast Nat.pow_le_pow_right (by decide) hw
  have h : ((2 ^ w : Nat) : Int) = 2 ^ w := by push_cast; rfl
  unfold expWrap
  apply Int.bmod_eq_of_le <;> rw [h] <;> omega

/-! ## The parts of the reference rounding -/

/-- `floor(log2(v))` of a positive rational. -/
theorem floorLog2_spec {v : ℚ} (hv : 0 < v) :
    (2 : ℚ) ^ floorLog2 v ≤ v ∧ v < (2 : ℚ) ^ (floorLog2 v + 1) := by
  have hn : v.num.toNat ≠ 0 := by
    have := Rat.num_pos.mpr hv
    omega
  have hd : v.den ≠ 0 := v.den_nz
  have hnz : (v.num.toNat : ℚ) = v.num := by
    have := Rat.num_pos.mpr hv
    exact_mod_cast Int.toNat_of_nonneg this.le
  have hval : v = (v.num.toNat : ℚ) / v.den := by rw [hnz]; exact (Rat.num_div_den v).symm
  have hdpos : (0 : ℚ) < v.den := by exact_mod_cast Nat.pos_of_ne_zero hd
  have n1 : ((2 : ℚ) ^ Nat.log2 v.num.toNat) ≤ v.num.toNat := by
    exact_mod_cast Nat.log2_self_le hn
  have n2 : (v.num.toNat : ℚ) < 2 ^ (Nat.log2 v.num.toNat + 1) := by
    exact_mod_cast Nat.lt_log2_self
  have d1 : ((2 : ℚ) ^ Nat.log2 v.den) ≤ v.den := by exact_mod_cast Nat.log2_self_le hd
  have d2 : (v.den : ℚ) < 2 ^ (Nat.log2 v.den + 1) := by exact_mod_cast Nat.lt_log2_self
  set a := Nat.log2 v.num.toNat
  set b := Nat.log2 v.den
  have p : ∀ n : ℕ, (0 : ℚ) < 2 ^ n := fun n => by positivity
  have zsub : (2 : ℚ) ^ ((a : ℤ) - b) = 2 ^ a / 2 ^ b := by
    rw [zpow_sub₀ (by norm_num)]; simp
  have lower : (2 : ℚ) ^ ((a : ℤ) - b - 1) ≤ v := by
    rw [zpow_sub_one₀ (by norm_num), zsub, hval, le_div_iff₀ hdpos]
    have : (2 : ℚ) ^ a / 2 ^ b * 2⁻¹ * v.den ≤ 2 ^ a / 2 ^ b * 2⁻¹ * 2 ^ (b + 1) :=
      mul_le_mul_of_nonneg_left d2.le (by positivity)
    have e : (2 : ℚ) ^ a / 2 ^ b * 2⁻¹ * 2 ^ (b + 1) = 2 ^ a := by
      rw [pow_succ]; field_simp
    linarith
  have upper : v < (2 : ℚ) ^ ((a : ℤ) - b + 1) := by
    rw [zpow_add_one₀ (by norm_num), zsub, hval, div_lt_iff₀ hdpos]
    have : (2 : ℚ) ^ a / 2 ^ b * 2 * 2 ^ b ≤ 2 ^ a / 2 ^ b * 2 * v.den :=
      mul_le_mul_of_nonneg_left d1 (by positivity)
    have e : (2 : ℚ) ^ a / 2 ^ b * 2 * 2 ^ b = 2 ^ (a + 1) := by
      rw [pow_succ]; field_simp
    linarith
  unfold floorLog2
  dsimp only
  split
  · exact ⟨‹_›, upper⟩
  · exact ⟨lower, by simpa using not_le.mp ‹_›⟩

/-- `round_half_even` is within half a unit, and an exact half goes to an even integer. -/
theorem roundHalfEven_spec (t : ℚ) :
    |t - roundHalfEven t| ≤ 1 / 2 ∧ (|t - roundHalfEven t| = 1 / 2 → roundHalfEven t % 2 = 0) := by
  have h0 : (⌊t⌋ : ℚ) ≤ t := Int.floor_le t
  have h1 : t < ⌊t⌋ + 1 := Int.lt_floor_add_one t
  unfold roundHalfEven
  dsimp only
  split_ifs with c1 c2 c3
  · have e : |t - ⌊t⌋| = t - ⌊t⌋ := abs_of_nonneg (by linarith)
    exact ⟨by linarith, fun h => by linarith⟩
  · have e : |t - (↑(⌊t⌋ + 1) : ℚ)| = ⌊t⌋ + 1 - t := by
      rw [abs_sub_comm]; push_cast; exact abs_of_nonneg (by linarith)
    exact ⟨by linarith, fun h => by linarith⟩
  · have e : |t - ⌊t⌋| = t - ⌊t⌋ := abs_of_nonneg (by linarith)
    exact ⟨by linarith, fun _ => c3⟩
  · have e : |t - (↑(⌊t⌋ + 1) : ℚ)| = ⌊t⌋ + 1 - t := by
      rw [abs_sub_comm]; push_cast; exact abs_of_nonneg (by linarith)
    exact ⟨by linarith, fun _ => by omega⟩

/-- Only one exponent satisfies the bounds of `floorLog2`. -/
theorem floorLog2_eq {v : ℚ} {k : ℤ} (hl : (2 : ℚ) ^ k ≤ v) (hu : v < (2 : ℚ) ^ (k + 1)) :
    floorLog2 v = k := by
  have hv : 0 < v := lt_of_lt_of_le (by positivity) hl
  obtain ⟨h1, h2⟩ := floorLog2_spec hv
  have a := (zpow_lt_zpow_iff_right₀ (by norm_num : (1 : ℚ) < 2)).mp (lt_of_le_of_lt h1 hu)
  have b := (zpow_lt_zpow_iff_right₀ (by norm_num : (1 : ℚ) < 2)).mp (lt_of_le_of_lt hl h2)
  omega

/-- A whole part and a fraction round by where the fraction lies against a half. -/
theorem roundHalfEven_add (q : ℕ) {δ : ℚ} (h0 : 0 ≤ δ) (h1 : δ < 1) :
    roundHalfEven (q + δ) =
      (q : ℤ) + (if δ < 1 / 2 then 0 else if 1 / 2 < δ then 1 else (q : ℤ) % 2) := by
  have hf : ⌊(q : ℚ) + δ⌋ = (q : ℤ) := by
    rw [Int.floor_eq_iff]; push_cast; constructor <;> linarith
  have hs : (q : ℚ) + δ - ((q : ℤ) : ℚ) = δ := by push_cast; ring
  unfold roundHalfEven
  dsimp only
  rw [hf, hs]
  split_ifs <;> omega

/-- The exponent `RNE64` rounds at, from the quantum the value is written in: a significand with its
leading bit in bit 52, or the quantum of the subnormals. -/
theorem rneExp_of_parts {v δ : ℚ} {e : ℤ} {q : ℕ} (he : 1 ≤ e) (hq : q < 2 ^ 53)
    (hn : e = 1 ∨ 2 ^ 52 ≤ q) (h0 : 0 ≤ δ) (h1 : δ < 1) (hpos : 0 < v)
    (hv : v = (q + δ) * 2 ^ (e - 1075)) : rneExp v = e - 1023 := by
  have hp : (0 : ℚ) < 2 ^ (e - 1075) := by positivity
  have hq' : (q : ℚ) + 1 ≤ 2 ^ 53 := by exact_mod_cast hq
  have hup : v < 2 ^ (e - 1022) := by
    have : (2 : ℚ) ^ (e - 1022) = 2 ^ 53 * 2 ^ (e - 1075) := by
      rw [← zpow_natCast, ← zpow_add₀ (by norm_num)]; congr 1; push_cast; ring
    rw [hv, this]
    exact mul_lt_mul_of_pos_right (by linarith) hp
  unfold rneExp
  by_cases hb : 2 ^ 52 ≤ q
  · have hlo : (2 : ℚ) ^ (e - 1023) ≤ v := by
      have : (2 : ℚ) ^ (e - 1023) = 2 ^ 52 * 2 ^ (e - 1075) := by
        rw [← zpow_natCast, ← zpow_add₀ (by norm_num)]; congr 1; push_cast; ring
      have hb' : (2 : ℚ) ^ 52 ≤ q := by exact_mod_cast hb
      rw [hv, this]
      exact mul_le_mul_of_nonneg_right (by linarith) hp.le
    rw [floorLog2_eq hlo (by convert hup using 2; ring)]
    omega
  · obtain rfl : e = 1 := by tauto
    have h := (floorLog2_spec hpos).1
    have := (zpow_lt_zpow_iff_right₀ (by norm_num : (1 : ℚ) < 2)).mp (lt_of_le_of_lt h hup)
    omega

/-- `RNE64`'s magnitude from the packed form the engines round: biased exponent `e`, truncated
significand `q` and discarded fraction `δ`. -/
theorem rneMag_of_parts {v δ : ℚ} {e : ℤ} {q : ℕ} (he : 1 ≤ e) (hq : q < 2 ^ 53)
    (hn : e = 1 ∨ 2 ^ 52 ≤ q) (h0 : 0 ≤ δ) (h1 : δ < 1) (hpos : 0 < v)
    (hv : v = (q + δ) * 2 ^ (e - 1075)) :
    rneMag v = min (infPattern.toNat : ℤ) ((e - 1) * 2 ^ 52 +
      (q + (if δ < 1 / 2 then 0 else if 1 / 2 < δ then 1 else (q : ℤ) % 2))) := by
  have hp : (2 : ℚ) ^ (e - 1075) ≠ 0 := by positivity
  have hE : e - 1023 - 52 = e - 1075 := by ring
  unfold rneMag
  dsimp only
  rw [rneExp_of_parts he hq hn h0 h1 hpos hv, hE, hv, mul_div_cancel_right₀ _ hp,
    roundHalfEven_add q h0 h1, show e - 1023 + 1023 - 1 = e - 1 by ring]
  split_ifs <;> omega

end Sys2Proof.Machine
end

