-- ==== Sys2Proof/Laws/State.lean ====
section
/-! SUPPORT. One lemma per field per named update of the state, so that no proof unfolds a record
update. -/

namespace Sys2Proof.Machine

open Sys2Proof

/-! ## setOutputs -/

@[simp] theorem State.setOutputs_cfg (s : State) (y : Word) (v : Bool) :
    (s.setOutputs y v).cfg = s.cfg := rfl

@[simp] theorem State.setOutputs_op (s : State) (y : Word) (v : Bool) :
    (s.setOutputs y v).op = s.op := rfl

@[simp] theorem State.setOutputs_a (s : State) (y : Word) (v : Bool) :
    (s.setOutputs y v).a = s.a := rfl

@[simp] theorem State.setOutputs_b (s : State) (y : Word) (v : Bool) :
    (s.setOutputs y v).b = s.b := rfl

@[simp] theorem State.setOutputs_inValid (s : State) (y : Word) (v : Bool) :
    (s.setOutputs y v).inValid = s.inValid := rfl

@[simp] theorem State.setOutputs_rst (s : State) (y : Word) (v : Bool) :
    (s.setOutputs y v).rst = s.rst := rfl

@[simp] theorem State.setOutputs_y (s : State) (y : Word) (v : Bool) :
    (s.setOutputs y v).y = y := rfl

@[simp] theorem State.setOutputs_outValid (s : State) (y : Word) (v : Bool) :
    (s.setOutputs y v).outValid = v := rfl

@[simp] theorem State.setOutputs_pipe (s : State) (y : Word) (v : Bool) :
    (s.setOutputs y v).pipe = s.pipe := rfl

@[simp] theorem State.setOutputs_busy (s : State) (y : Word) (v : Bool) :
    (s.setOutputs y v).busy = s.busy := rfl

@[simp] theorem State.setOutputs_awaitingReset (s : State) (y : Word) (v : Bool) :
    (s.setOutputs y v).awaitingReset = s.awaitingReset := rfl

@[simp] theorem State.setOutputs_draws (s : State) (y : Word) (v : Bool) :
    (s.setOutputs y v).draws = s.draws := rfl

/-! ## setY -/

@[simp] theorem State.setY_cfg (s : State) (y : Word) :
    (s.setY y).cfg = s.cfg := rfl

@[simp] theorem State.setY_op (s : State) (y : Word) :
    (s.setY y).op = s.op := rfl

@[simp] theorem State.setY_a (s : State) (y : Word) :
    (s.setY y).a = s.a := rfl

@[simp] theorem State.setY_b (s : State) (y : Word) :
    (s.setY y).b = s.b := rfl

@[simp] theorem State.setY_inValid (s : State) (y : Word) :
    (s.setY y).inValid = s.inValid := rfl

@[simp] theorem State.setY_rst (s : State) (y : Word) :
    (s.setY y).rst = s.rst := rfl

@[simp] theorem State.setY_y (s : State) (y : Word) :
    (s.setY y).y = y := rfl

@[simp] theorem State.setY_outValid (s : State) (y : Word) :
    (s.setY y).outValid = s.outValid := rfl

@[simp] theorem State.setY_pipe (s : State) (y : Word) :
    (s.setY y).pipe = s.pipe := rfl

@[simp] theorem State.setY_busy (s : State) (y : Word) :
    (s.setY y).busy = s.busy := rfl

@[simp] theorem State.setY_awaitingReset (s : State) (y : Word) :
    (s.setY y).awaitingReset = s.awaitingReset := rfl

@[simp] theorem State.setY_draws (s : State) (y : Word) :
    (s.setY y).draws = s.draws := rfl

/-! ## setPipe -/

@[simp] theorem State.setPipe_cfg (s : State) (p : List InFlight) :
    (s.setPipe p).cfg = s.cfg := rfl

@[simp] theorem State.setPipe_op (s : State) (p : List InFlight) :
    (s.setPipe p).op = s.op := rfl

@[simp] theorem State.setPipe_a (s : State) (p : List InFlight) :
    (s.setPipe p).a = s.a := rfl

@[simp] theorem State.setPipe_b (s : State) (p : List InFlight) :
    (s.setPipe p).b = s.b := rfl

@[simp] theorem State.setPipe_inValid (s : State) (p : List InFlight) :
    (s.setPipe p).inValid = s.inValid := rfl

@[simp] theorem State.setPipe_rst (s : State) (p : List InFlight) :
    (s.setPipe p).rst = s.rst := rfl

@[simp] theorem State.setPipe_y (s : State) (p : List InFlight) :
    (s.setPipe p).y = s.y := rfl

@[simp] theorem State.setPipe_outValid (s : State) (p : List InFlight) :
    (s.setPipe p).outValid = s.outValid := rfl

@[simp] theorem State.setPipe_pipe (s : State) (p : List InFlight) :
    (s.setPipe p).pipe = p := rfl

@[simp] theorem State.setPipe_busy (s : State) (p : List InFlight) :
    (s.setPipe p).busy = s.busy := rfl

@[simp] theorem State.setPipe_awaitingReset (s : State) (p : List InFlight) :
    (s.setPipe p).awaitingReset = s.awaitingReset := rfl

@[simp] theorem State.setPipe_draws (s : State) (p : List InFlight) :
    (s.setPipe p).draws = s.draws := rfl

/-! ## setBusy -/

@[simp] theorem State.setBusy_cfg (s : State) (n : Nat) :
    (s.setBusy n).cfg = s.cfg := rfl

@[simp] theorem State.setBusy_op (s : State) (n : Nat) :
    (s.setBusy n).op = s.op := rfl

@[simp] theorem State.setBusy_a (s : State) (n : Nat) :
    (s.setBusy n).a = s.a := rfl

@[simp] theorem State.setBusy_b (s : State) (n : Nat) :
    (s.setBusy n).b = s.b := rfl

@[simp] theorem State.setBusy_inValid (s : State) (n : Nat) :
    (s.setBusy n).inValid = s.inValid := rfl

@[simp] theorem State.setBusy_rst (s : State) (n : Nat) :
    (s.setBusy n).rst = s.rst := rfl

@[simp] theorem State.setBusy_y (s : State) (n : Nat) :
    (s.setBusy n).y = s.y := rfl

@[simp] theorem State.setBusy_outValid (s : State) (n : Nat) :
    (s.setBusy n).outValid = s.outValid := rfl

@[simp] theorem State.setBusy_pipe (s : State) (n : Nat) :
    (s.setBusy n).pipe = s.pipe := rfl

@[simp] theorem State.setBusy_busy (s : State) (n : Nat) :
    (s.setBusy n).busy = n := rfl

@[simp] theorem State.setBusy_awaitingReset (s : State) (n : Nat) :
    (s.setBusy n).awaitingReset = s.awaitingReset := rfl

@[simp] theorem State.setBusy_draws (s : State) (n : Nat) :
    (s.setBusy n).draws = s.draws := rfl

/-! ## setAwaiting -/

@[simp] theorem State.setAwaiting_cfg (s : State) (w : Bool) :
    (s.setAwaiting w).cfg = s.cfg := rfl

@[simp] theorem State.setAwaiting_op (s : State) (w : Bool) :
    (s.setAwaiting w).op = s.op := rfl

@[simp] theorem State.setAwaiting_a (s : State) (w : Bool) :
    (s.setAwaiting w).a = s.a := rfl

@[simp] theorem State.setAwaiting_b (s : State) (w : Bool) :
    (s.setAwaiting w).b = s.b := rfl

@[simp] theorem State.setAwaiting_inValid (s : State) (w : Bool) :
    (s.setAwaiting w).inValid = s.inValid := rfl

@[simp] theorem State.setAwaiting_rst (s : State) (w : Bool) :
    (s.setAwaiting w).rst = s.rst := rfl

@[simp] theorem State.setAwaiting_y (s : State) (w : Bool) :
    (s.setAwaiting w).y = s.y := rfl

@[simp] theorem State.setAwaiting_outValid (s : State) (w : Bool) :
    (s.setAwaiting w).outValid = s.outValid := rfl

@[simp] theorem State.setAwaiting_pipe (s : State) (w : Bool) :
    (s.setAwaiting w).pipe = s.pipe := rfl

@[simp] theorem State.setAwaiting_busy (s : State) (w : Bool) :
    (s.setAwaiting w).busy = s.busy := rfl

@[simp] theorem State.setAwaiting_awaitingReset (s : State) (w : Bool) :
    (s.setAwaiting w).awaitingReset = w := rfl

@[simp] theorem State.setAwaiting_draws (s : State) (w : Bool) :
    (s.setAwaiting w).draws = s.draws := rfl

/-! ## drawn -/

@[simp] theorem State.drawn_cfg (s : State) :
    s.drawn.cfg = s.cfg := rfl

@[simp] theorem State.drawn_op (s : State) :
    s.drawn.op = s.op := rfl

@[simp] theorem State.drawn_a (s : State) :
    s.drawn.a = s.a := rfl

@[simp] theorem State.drawn_b (s : State) :
    s.drawn.b = s.b := rfl

@[simp] theorem State.drawn_inValid (s : State) :
    s.drawn.inValid = s.inValid := rfl

@[simp] theorem State.drawn_rst (s : State) :
    s.drawn.rst = s.rst := rfl

@[simp] theorem State.drawn_y (s : State) :
    s.drawn.y = s.y := rfl

@[simp] theorem State.drawn_outValid (s : State) :
    s.drawn.outValid = s.outValid := rfl

@[simp] theorem State.drawn_pipe (s : State) :
    s.drawn.pipe = s.pipe := rfl

@[simp] theorem State.drawn_busy (s : State) :
    s.drawn.busy = s.busy := rfl

@[simp] theorem State.drawn_awaitingReset (s : State) :
    s.drawn.awaitingReset = s.awaitingReset := rfl

@[simp] theorem State.drawn_draws (s : State) :
    s.drawn.draws = s.draws + 1 := rfl

/-! ## setRequest -/

@[simp] theorem State.setRequest_cfg (s : State) (r : Request) :
    (s.setRequest r).cfg = s.cfg := rfl

@[simp] theorem State.setRequest_op (s : State) (r : Request) :
    (s.setRequest r).op = r.op := rfl

@[simp] theorem State.setRequest_a (s : State) (r : Request) :
    (s.setRequest r).a = r.a := rfl

@[simp] theorem State.setRequest_b (s : State) (r : Request) :
    (s.setRequest r).b = r.b := rfl

@[simp] theorem State.setRequest_inValid (s : State) (r : Request) :
    (s.setRequest r).inValid = s.inValid := rfl

@[simp] theorem State.setRequest_rst (s : State) (r : Request) :
    (s.setRequest r).rst = s.rst := rfl

@[simp] theorem State.setRequest_y (s : State) (r : Request) :
    (s.setRequest r).y = s.y := rfl

@[simp] theorem State.setRequest_outValid (s : State) (r : Request) :
    (s.setRequest r).outValid = s.outValid := rfl

@[simp] theorem State.setRequest_pipe (s : State) (r : Request) :
    (s.setRequest r).pipe = s.pipe := rfl

@[simp] theorem State.setRequest_busy (s : State) (r : Request) :
    (s.setRequest r).busy = s.busy := rfl

@[simp] theorem State.setRequest_awaitingReset (s : State) (r : Request) :
    (s.setRequest r).awaitingReset = s.awaitingReset := rfl

@[simp] theorem State.setRequest_draws (s : State) (r : Request) :
    (s.setRequest r).draws = s.draws := rfl

/-! ## setControl -/

@[simp] theorem State.setControl_cfg (s : State) (v r : Bool) :
    (s.setControl v r).cfg = s.cfg := rfl

@[simp] theorem State.setControl_op (s : State) (v r : Bool) :
    (s.setControl v r).op = s.op := rfl

@[simp] theorem State.setControl_a (s : State) (v r : Bool) :
    (s.setControl v r).a = s.a := rfl

@[simp] theorem State.setControl_b (s : State) (v r : Bool) :
    (s.setControl v r).b = s.b := rfl

@[simp] theorem State.setControl_inValid (s : State) (v r : Bool) :
    (s.setControl v r).inValid = v := rfl

@[simp] theorem State.setControl_rst (s : State) (v r : Bool) :
    (s.setControl v r).rst = r := rfl

@[simp] theorem State.setControl_y (s : State) (v r : Bool) :
    (s.setControl v r).y = s.y := rfl

@[simp] theorem State.setControl_outValid (s : State) (v r : Bool) :
    (s.setControl v r).outValid = s.outValid := rfl

@[simp] theorem State.setControl_pipe (s : State) (v r : Bool) :
    (s.setControl v r).pipe = s.pipe := rfl

@[simp] theorem State.setControl_busy (s : State) (v r : Bool) :
    (s.setControl v r).busy = s.busy := rfl

@[simp] theorem State.setControl_awaitingReset (s : State) (v r : Bool) :
    (s.setControl v r).awaitingReset = s.awaitingReset := rfl

@[simp] theorem State.setControl_draws (s : State) (v r : Bool) :
    (s.setControl v r).draws = s.draws := rfl

/-! ## Requests in flight -/

@[simp] theorem InFlight.older_request (e : InFlight) : e.older.request = e.request := rfl

@[simp] theorem InFlight.older_age (e : InFlight) : e.older.age = e.age + 1 := rfl

@[simp] theorem InFlight.older_result (e : InFlight) : e.older.result = e.result := rfl

@[simp] theorem InFlight.older_overlapped (e : InFlight) : e.older.overlapped = e.overlapped := rfl

end Sys2Proof.Machine
end

