-- ==== Sys2Proof/Laws/Ops.lean ====
section
/-! SUPPORT. What each shared operation over the state can do, said once: the cases of accepting a
request, of the start of a cycle and of a step, and the fields each part leaves alone. -/

namespace Sys2Proof.Machine

open Sys2Proof

/-! ## Sequencing -/

@[simp] theorem andThen_next (s : State) (f : State → Result) : andThen (.next s) f = f s := rfl

@[simp] theorem andThen_refused (r : Refusal) (f : State → Result) :
    andThen (.refused r) f = .refused r := rfl

/-- A sequence answers a next state exactly when both its parts do. -/
theorem andThen_eq_next {o : Result} {f : State → Result} {u : State} :
    andThen o f = .next u ↔ ∃ t, o = .next t ∧ f t = .next u := by
  cases o <;> simp [andThen]

/-- A sequence is refused by its first part, or by its second after a next state. -/
theorem andThen_eq_refused {o : Result} {f : State → Result} {r : Refusal} :
    andThen o f = .refused r ↔ o = .refused r ∨ ∃ t, o = .next t ∧ f t = .refused r := by
  cases o <;> simp [andThen]

/-! ## Accepting a request -/

/-- Every instruction is accepted with the pattern the unit function gives it. -/
theorem exec_eq_accept (i : Instr) (s : State) :
    exec i s = accept i (unitFunction s.cfg i) s := by
  cases i <;> rfl

/-- What accepting a request can do when it answers a next state. -/
theorem accept_cases {i : Instr} {r : Word} {s t : State} (h : accept i r s = .next t) :
    (isCombinational s.cfg = true ∧ t = s.setY r) ∨
    (isCombinational s.cfg = false ∧ s.awaitingReset = true ∧ t = s.setBusy s.cfg.ii) ∨
    (isCombinational s.cfg = false ∧ s.awaitingReset = false ∧ latencyOf s.cfg i = 0 ∧
      s.outValid = false ∧ s.busy = 0 ∧ t = (s.setBusy s.cfg.ii).showResult r) ∨
    (isCombinational s.cfg = false ∧ s.awaitingReset = false ∧ latencyOf s.cfg i = 0 ∧
      s.outValid = false ∧ s.busy ≠ 0 ∧
      t = ((s.setPipe (pipeAfterRequest s)).setBusy s.cfg.ii).showUnspecified) ∨
    (isCombinational s.cfg = false ∧ s.awaitingReset = false ∧ latencyOf s.cfg i ≠ 0 ∧
      t = ((s.setBusy s.cfg.ii).setPipe (pipeAfterRequest s ++
        [{ request := i, age := 0, result := r, overlapped := decide (s.busy ≠ 0) }]))) := by
  unfold accept at h
  split at h
  · left; exact ⟨‹_›, by cases h; rfl⟩
  rename_i hc
  replace hc : isCombinational s.cfg = false := Bool.eq_false_of_not_eq_true hc
  split at h
  · right; left; exact ⟨hc, ‹_›, by cases h; rfl⟩
  rename_i ha
  replace ha : s.awaitingReset = false := Bool.eq_false_of_not_eq_true ha
  unfold enterPipeline at h
  split at h
  · rename_i hl
    split at h
    · cases h
    rename_i hv
    replace hv : s.outValid = false := Bool.eq_false_of_not_eq_true hv
    split at h
    · rename_i hb
      right; right; left
      refine ⟨hc, ha, hl, hv, hb, ?_⟩
      cases h
      simp only [pipeAfterRequest, if_pos hb]
      rfl
    · right; right; right; left
      exact ⟨hc, ha, hl, hv, ‹_›, by cases h; rfl⟩
  · right; right; right; right
    exact ⟨hc, ha, ‹_›, by cases h; rfl⟩

/-- Accepting a request is refused only where its result would fall beside another one. -/
theorem accept_refused {i : Instr} {r : Word} {s : State} {e : Refusal}
    (h : accept i r s = .refused e) :
    e = .resultCollision ∧ isCombinational s.cfg = false ∧ s.awaitingReset = false ∧
      latencyOf s.cfg i = 0 ∧ s.outValid = true := by
  unfold accept enterPipeline at h
  split at h
  · cases h
  rename_i hc
  split at h
  · cases h
  rename_i ha
  split at h
  · split at h
    · cases h
      exact ⟨rfl, Bool.eq_false_of_not_eq_true hc, Bool.eq_false_of_not_eq_true ha, ‹_›, ‹_›⟩
    · split at h <;> cases h
  · cases h

/-- An overlapped marking changes no request, age or result. -/
theorem mem_markOverlapped {ii : Nat} {p : List InFlight} {e : InFlight}
    (h : e ∈ markOverlapped ii p) :
    ∃ d ∈ p, e.request = d.request ∧ e.age = d.age ∧ e.result = d.result ∧
      (e.overlapped = false → d.overlapped = false ∧ ii ≤ d.age) := by
  obtain ⟨d, hd, rfl⟩ := List.mem_map.mp h
  refine ⟨d, hd, ?_⟩
  split <;> simp_all

/-! ## The parts of a cycle -/

/-- What the start of a cycle can do when it answers a next state. -/
theorem beginCycle_cases {s t : State} (h : beginCycle s = .next t) :
    (s.awaitingReset = true ∧ t = s.showPowerUp) ∨
    (s.awaitingReset = false ∧ s.pipe.filter (isDue s.cfg) = [] ∧ t = s.showNone) ∨
    (s.awaitingReset = false ∧ ∃ e, s.pipe.filter (isDue s.cfg) = [e] ∧
      t = (s.setPipe (s.pipe.filter fun d => !isDue s.cfg d)).showEntry e) := by
  unfold beginCycle at h
  split at h
  · left; exact ⟨‹_›, by cases h; rfl⟩
  rename_i ha
  replace ha : s.awaitingReset = false := Bool.eq_false_of_not_eq_true ha
  dsimp only at h
  split at h
  · right; left; exact ⟨ha, ‹_›, by cases h; rfl⟩
  · right; right; exact ⟨ha, _, ‹_›, by cases h; rfl⟩
  · cases h

/-- The start of a cycle is refused only where two results are due. -/
theorem beginCycle_refused {s : State} {r : Refusal} (h : beginCycle s = .refused r) :
    r = .resultCollision ∧ s.awaitingReset = false ∧
      2 ≤ (s.pipe.filter (isDue s.cfg)).length := by
  unfold beginCycle at h
  split at h
  · cases h
  rename_i ha
  dsimp only at h
  split at h
  · cases h
  · cases h
  · rename_i hd
    cases h
    exact ⟨rfl, Bool.eq_false_of_not_eq_true ha, by simp [hd]⟩

/-- The start of a cycle changes the outputs, the pipeline and the count of free values alone. -/
theorem beginCycle_frame {s t : State} (h : beginCycle s = .next t) :
    t.cfg = s.cfg ∧ requestOn t = requestOn s ∧ t.inValid = s.inValid ∧ t.rst = s.rst ∧
      t.busy = s.busy ∧ t.awaitingReset = s.awaitingReset := by
  rcases beginCycle_cases h with ⟨_, rfl⟩ | ⟨_, _, rfl⟩ | ⟨_, e, _, rfl⟩
  · exact ⟨rfl, rfl, rfl, rfl, rfl, rfl⟩
  · exact ⟨rfl, rfl, rfl, rfl, rfl, rfl⟩
  · unfold State.showEntry
    split <;> exact ⟨rfl, rfl, rfl, rfl, rfl, rfl⟩

@[simp] theorem clockEdge_cfg (s : State) : (clockEdge s).cfg = s.cfg := rfl

@[simp] theorem clockEdge_requestOn (s : State) : requestOn (clockEdge s) = requestOn s := rfl

@[simp] theorem clockEdge_y (s : State) : (clockEdge s).y = s.y := rfl

@[simp] theorem clockEdge_outValid (s : State) : (clockEdge s).outValid = s.outValid := rfl

@[simp] theorem clockEdge_pipe (s : State) :
    (clockEdge s).pipe = if s.rst then [] else s.pipe.map InFlight.older := rfl

@[simp] theorem clockEdge_busy (s : State) : (clockEdge s).busy = s.busy - 1 := rfl

@[simp] theorem clockEdge_awaitingReset (s : State) :
    (clockEdge s).awaitingReset = (s.awaitingReset && !s.rst) := rfl

@[simp] theorem clockEdge_draws (s : State) : (clockEdge s).draws = s.draws := rfl

/-! ## Driving the ports -/

@[simp] theorem drive_cfg (s : State) (i : Inputs) : (s.drive i).cfg = s.cfg := by
  unfold State.drive; split <;> rfl

@[simp] theorem drive_requestOn (s : State) (i : Inputs) : requestOn (s.drive i) = i.req := by
  unfold State.drive; split <;> rfl

@[simp] theorem drive_inValid (s : State) (i : Inputs) : (s.drive i).inValid = i.inValid := by
  unfold State.drive; split <;> rfl

@[simp] theorem drive_rst (s : State) (i : Inputs) : (s.drive i).rst = i.rst := by
  unfold State.drive; split <;> rfl

@[simp] theorem drive_outValid (s : State) (i : Inputs) : (s.drive i).outValid = s.outValid := by
  unfold State.drive; split <;> rfl

@[simp] theorem drive_pipe (s : State) (i : Inputs) : (s.drive i).pipe = s.pipe := by
  unfold State.drive; split <;> rfl

@[simp] theorem drive_busy (s : State) (i : Inputs) : (s.drive i).busy = s.busy := by
  unfold State.drive; split <;> rfl

@[simp] theorem drive_awaitingReset (s : State) (i : Inputs) :
    (s.drive i).awaitingReset = s.awaitingReset := by
  unfold State.drive; split <;> rfl

/-- What driving the ports does to `y`: nothing, but in the combinational form under a new request. -/
theorem drive_y (s : State) (i : Inputs) :
    (s.drive i).y = if isCombinational s.cfg = true ∧ i.req ≠ requestOn s then
      Config.freeWord s.draws else s.y := by
  simp only [State.drive, Bool.and_eq_true, decide_eq_true_eq]
  split <;> rfl

/-! ## A step -/

/-- Issuing answers a next state exactly when the request decodes and its instruction is accepted. -/
theorem issue_eq_next {s t : State} :
    issue s = .next t ↔ ∃ i, decode (requestOn s) = .ok i ∧ exec i s = .next t := by
  unfold issue
  cases h : decode (requestOn s) with
  | ok i => simp
  | error e => cases e; simp

/-- What a step can do when it answers a next state: the combinational form executes its request; a
registered cycle begins, takes the request if one is present, and ends with the edge. -/
theorem step_cases {s u : State} (h : step s = .next u) :
    (isCombinational s.cfg = true ∧
      ∃ i, decode (requestOn s) = .ok i ∧ exec i s = .next u) ∨
    (isCombinational s.cfg = false ∧ ∃ t, beginCycle s = .next t ∧
      ((requestPresent t = false ∧ u = clockEdge t) ∨
        (requestPresent t = true ∧ ∃ i v, decode (requestOn t) = .ok i ∧ exec i t = .next v ∧
          u = clockEdge v))) := by
  unfold step at h
  split at h
  · left; exact ⟨‹_›, issue_eq_next.mp h⟩
  · right
    rename_i hc
    refine ⟨Bool.eq_false_of_not_eq_true hc, ?_⟩
    obtain ⟨t, ht, h⟩ := andThen_eq_next.mp h
    refine ⟨t, ht, ?_⟩
    obtain ⟨v, hv, h⟩ := andThen_eq_next.mp h
    cases h
    split at hv
    · right
      obtain ⟨i, hi, he⟩ := issue_eq_next.mp hv
      exact ⟨‹_›, i, v, hi, he, rfl⟩
    · rename_i hp
      left
      cases hv
      exact ⟨Bool.eq_false_of_not_eq_true hp, rfl⟩

/-- A schedule runs its first cycle, then the rest. -/
theorem cycles_cons (i : Inputs) (is : List Inputs) (s : State) :
    cycles (i :: is) s = andThen (step (s.drive i)) (cycles is) := rfl

@[simp] theorem cycles_nil (s : State) : cycles [] s = .next s := rfl

end Sys2Proof.Machine
end

