-- ==== Sys2Proof/Laws/PerInstr.lean ====
section
/-! SUPPORT. A law of every instruction as syntax: its encoding is a defined request that carries the
operand words whole (30_encoding.md R40, R41). -/

namespace Sys2Proof.Laws.EncodedRequest

open Sys2Proof

/-- The request of an instruction has a defined op code, and its operand words are the instruction's
own. -/
def Statement (i : Instr) : Prop :=
  (encode i).wf = true ∧ (encode i).a = i.operandA ∧ (encode i).b = i.operandB

theorem add (a b : Word) : Statement (.add a b) := ⟨rfl, rfl, rfl⟩

theorem sub (a b : Word) : Statement (.sub a b) := ⟨rfl, rfl, rfl⟩

theorem mul (a b : Word) : Statement (.mul a b) := ⟨rfl, rfl, rfl⟩

theorem div (a b : Word) : Statement (.div a b) := ⟨rfl, rfl, rfl⟩

theorem neg (a b : Word) : Statement (.neg a b) := ⟨rfl, rfl, rfl⟩

end Sys2Proof.Laws.EncodedRequest
end

