-- ==== Sys2Proof/Laws/Reciprocal.lean ====
section
/-! SUPPORT. What the parts of the reciprocal scheme can do (43_fp_divider.md R97, R98). -/

namespace Sys2Proof.Machine

open Sys2Proof

/-- The correction brings a candidate at most one off to the quotient and the remainder. -/
theorem correctQuotient_eq {n d cand : Nat} (hd : 0 < d) (hhi : cand ≤ n / d + 1)
    (hlo : n / d ≤ cand + 1) : correctQuotient n d cand = (n / d, n % d) := by
  have key : ∀ q r : Nat, r < d → cand ≤ q + 1 → q ≤ cand + 1 →
      correctQuotient (q * d + r) d cand = (q, r) := by
    intro q r hr hhi hlo
    have hres : (((q * d + r : ℕ) : ℤ) - cand * d) = ((q : ℤ) - cand) * d + r := by push_cast; ring
    unfold correctQuotient
    rw [hres]
    obtain h | h | h : (q : ℤ) - cand = -1 ∨ (q : ℤ) - cand = 0 ∨ (q : ℤ) - cand = 1 := by omega
    all_goals
      dsimp only
      rw [h]
      split_ifs <;> simp only [Prod.mk.injEq] <;> omega
  have h := key (n / d) (n % d) (Nat.mod_lt n hd) hhi hlo
  rwa [Nat.div_add_mod'] at h

/-- One Newton-Raphson iteration is `x · (2 − b · x)`, less than one unit below it and at most `x`
above it, both in units of the last place. -/
theorem newtonStep_bounds {k b x : Nat} (h : b * x ≤ 2 * 2 ^ k * 2 ^ k) :
    newtonStep k b x * (2 ^ k * 2 ^ k) + b * x * x ≤ x * (2 * 2 ^ k * 2 ^ k) + x * 2 ^ k ∧
    x * (2 * 2 ^ k * 2 ^ k) < newtonStep k b x * (2 ^ k * 2 ^ k) + b * x * x + 2 ^ k * 2 ^ k := by
  have hk : 0 < 2 ^ k := by positivity
  unfold newtonStep
  generalize 2 ^ k = K at *
  have ht : b * x / K ≤ 2 * K := Nat.div_le_of_le_mul (by rw [mul_comm K]; exact h)
  have e1 := Nat.div_add_mod (b * x) K
  have e2 := Nat.mod_lt (b * x) hk
  obtain ⟨u, hu⟩ := Nat.exists_eq_add_of_le ht
  have f1 := Nat.div_add_mod (x * (2 * K - b * x / K)) K
  have f2 := Nat.mod_lt (x * (2 * K - b * x / K)) hk
  generalize b * x / K = t at *
  rw [hu, Nat.add_sub_cancel_left] at f1 f2 ⊢
  generalize x * u / K = y at *
  generalize x * u % K = m at *
  generalize b * x % K = r at *
  have g1 : x * ((t + u) * K) = (K * t) * x + (K * y + m) * K := by rw [f1]; ring
  have g2 : b * x * x = (K * t) * x + r * x := by rw [← e1]; ring
  constructor
  · rw [g1, g2]; nlinarith [Nat.mul_le_mul_right x e2.le]
  · rw [g1, g2]; nlinarith [Nat.mul_lt_mul_of_pos_right f2 hk, Nat.zero_le (r * x)]

end Sys2Proof.Machine
end

