-- ==== Sys2Proof/Tests/Slice0.lean ====
section
/-! SUPPORT. The model's own tests. Every expected value is the spec's: 95_test_vectors.md, or a rule's own
example, as each comment says. The last section shows, for every statement with hypotheses, operands and
states that meet them. -/

namespace Sys2Proof.Tests

open Sys2Proof Sys2Proof.Machine

/-! ## Helpers -/

/-- Parameters of a registered unit with mixed latencies and `II = 2`. -/
def regCfg : Config :=
  { Config.atReset with latAdd := 3, latSub := 3, latMul := 4, latDiv := 5, latNeg := 1, ii := 2 }

/-- Parameters of a registered unit with every latency 2. -/
def evenCfg : Config :=
  { Config.atReset with latAdd := 2, latSub := 2, latMul := 2, latDiv := 2, latNeg := 2 }

/-- Parameters of a registered unit in which NEG alone has latency 0. -/
def mixedCfg : Config := { regCfg with latNeg := 0 }

/-- An idle unit with given parameters. -/
def idle (c : Config) : State := { State.reset with cfg := c }

/-- The combinational unit with a request on its ports. -/
def asked (i : Instr) : State := State.reset.setRequest (encode i)

/-- A unit with given parameters and a request on its ports. -/
def askedOf (c : Config) (i : Instr) : State :=
  ((idle c).setRequest (encode i)).setControl true false

/-- Inputs that carry no request. -/
def quiet : Inputs := { req := encode (.add 0 0), inValid := false, rst := false }

/-- Inputs that reset the unit. -/
def resetting : Inputs := { quiet with rst := true }

/-- A request in flight of a given age. -/
def flying (i : Instr) (age : Nat) : InFlight :=
  { request := i, age := age, result := unitFunction Config.atReset i, overlapped := false }

/-- The next state of an outcome. -/
def nextOf : Result → Option State
  | .next s => some s
  | _ => none

/-- The refusal of an outcome. -/
def refusalOf : Result → Option Refusal
  | .refused r => some r
  | _ => none

/-- `y` after an outcome. -/
def yOf (r : Result) : Option Word := (nextOf r).map State.y

/-- `out_valid` after an outcome. -/
def validOf (r : Result) : Option Bool := (nextOf r).map State.outValid

/-- `y` after one step of the combinational unit on a request. -/
def answer (i : Instr) : Option Word := yOf (step (asked i))

/-! ## Well-formedness smoke tests: an ill-formed term for each check -/

theorem test_wf_refuses_reserved_code : (Request.mk 0b101#3 0 0).wf = false := by decide

theorem test_wf_accepts_neg_code : (Request.mk 0b100#3 7 9).wf = true := by decide

theorem test_canonical_refuses_neg_with_operand : (Request.mk 0b100#3 7 9).canonical = false := by
  decide

theorem test_cfg_refuses_ii_zero : Config.wf { Config.atReset with ii := 0 } = false := by decide

theorem test_cfg_refuses_narrow_exponents : Config.wf { Config.atReset with expw := 13 } = false := by
  decide

theorem test_cfg_refuses_repeated_byte :
    Config.wf { Config.atReset with hostByteOrder := [0, 1, 2, 3, 4, 5, 6, 6] } = false := by decide

theorem test_cfg_accepts_reset : Config.atReset.wf = true := by decide

/-! ## Decoding: words from the op codes of 30_encoding.md R40, operand words zero -/

theorem test_decode_add_word : decodeTableWord 8 0b000 = some (.add 0 0) := by decide

theorem test_decode_sub_word : decodeTableWord 8 0b001 = some (.sub 0 0) := by decide

theorem test_decode_mul_word : decodeTableWord 8 0b010 = some (.mul 0 0) := by decide

theorem test_decode_div_word : decodeTableWord 8 0b011 = some (.div 0 0) := by decide

theorem test_decode_neg_word : decodeTableWord 8 0b100 = some (.neg 0 0) := by decide

theorem test_decode_reserved_words :
    [0b101, 0b110, 0b111].map (decodeTableWord 8) = [none, none, none] := by decide

/-- P1's first request (95_test_vectors.md section 3): op=000 a=1.0 b=2.0. -/
theorem test_decode_p1_request :
    decode ⟨0b000#3, 0x3FF0000000000000#64, 0x4000000000000000#64⟩ =
      .ok (.add 0x3FF0000000000000#64 0x4000000000000000#64) := by decide

/-- The op code stands in the lowest bits of the packed number, `a` above it. -/
theorem test_packed_operand_bits :
    decodeTableWord 131 (0b011 + 2 ^ 3 * 5 + 2 ^ 67 * 9) = some (.div 5#64 9#64) := by decide

/-- 30_encoding.md R44, with P1's fifth request. -/
theorem test_neg_line :
    Instr.requestLine "t5" (.neg 0#64 7#64) = "t5 = NEG 0x0000000000000000" ∧
      Instr.encodingLine (.neg 0#64 7#64) =
        "op=100 a=0x0000000000000000 b=0x0000000000000000" := by decide +kernel

/-- 30_encoding.md R44, with P1's fourth request. -/
theorem test_sub_line :
    Instr.encodingLine (.sub 0x4008000000000000#64 0x400800000000000A#64) =
      "op=001 a=0x4008000000000000 b=0x400800000000000A" := by decide +kernel

/-- The first request after reset runs. -/
theorem test_fetch_word_runs :
    [0, 1, 2, 3, 4].map (fun w => yOf (step (State.reset.withFetchWord 8 w))) =
      [some 0#64, some 0#64, some 0#64, some 0x7FF8000000000000#64, some 0x8000000000000000#64] := by
  decide +kernel

/-! ## Sub-blocks (95_test_vectors.md sections 2.1 to 2.7) -/

/-- Section 2.1. -/
theorem test_codec :
    decompose 0xC008000000000000#64 = (1#1, 0x400#11, 0x8000000000000#52) ∧
      recompose 1#1 0x7FF#11 0#52 = 0xFFF0000000000000#64 := by decide

/-- Section 2.2: the largest signaling NaN, and the wrap of `special` at -0. -/
theorem test_classifier :
    (classify 0x7FF7FFFFFFFFFFFF#64).isNaN = true ∧
      (classify 0x7FF7FFFFFFFFFFFF#64).isQuiet = false ∧
      special 0x8000000000000000#64 = true ∧ special 0x800FFFFFFFFFFFFF#64 = false := by decide

/-- Section 2.3. -/
theorem test_normalizer :
    normalize 0x0000000000003#52 = (-50, 0x18000000000000#53) ∧
      normalize 0xFFFFFFFFFFFFF#52 = (0, 0x1FFFFFFFFFFFFE#53) := by decide

/-- Section 2.4, last row. -/
theorem test_widening_multiplier :
    wmul 0x001FFFFFFFFFFFFF#64 0xFFFFFFFFFFFFF800#64 =
      (0x001FFFFFFFFFFFFE#64, 0x0000000000000800#64) := by decide

/-- Section 2.5: a lost bit, and bits that cross from the high half. -/
theorem test_sticky_shifts :
    shrSticky64 0x0080000000000008#64 4 = 0x0008000000000001#64 ∧
      wideShrSticky 0x001FFFFFFFFFFFFF#64 0x8000000000000000#64 63 =
        (0#64, 0x003FFFFFFFFFFFFF#64) := by decide

/-- Section 2.6: ties to even both ways. -/
theorem test_rounding_unit :
    roundPacked 0x3FF0000000000000#64 .half = 0x3FF0000000000000#64 ∧
      roundPacked 0xFFEFFFFFFFFFFFFF#64 .half = 0xFFF0000000000000#64 := by decide

/-- 40_components.md R60: the payload kept and the NaN quieted, with and without its sign. -/
theorem test_nan_result :
    nanResult .preserve 0xFFF4000000000001#64 = 0xFFFC000000000001#64 ∧
      nanResult .clear 0xFFF4000000000001#64 = 0x7FFC000000000001#64 := by decide

/-- Section 2.7: 1/3, and the tie between the largest subnormal and the smallest normal. -/
theorem test_reference_rounding :
    rne64 0#1 (1 / 3) = 0x3FD5555555555555#64 ∧
      rne64 0#1 ((2 : ℚ) ^ (-1022 : ℤ) - (2 : ℚ) ^ (-1075 : ℤ)) = 0x0010000000000000#64 ∧
      rne64 1#1 ((2 : ℚ) ^ 1024 - (2 : ℚ) ^ 970) = 0xFFF0000000000000#64 := by decide +kernel

/-! ## Instructions (95_test_vectors.md sections 2.8 to 2.12), through one step -/

/-- Section 2.8: a tie to even above, and a carry at bit 56. -/
theorem test_add_ties_to_even :
    answer (.add 0x3FF0000000000001#64 0x3CA0000000000000#64) = some 0x3FF0000000000002#64 ∧
      answer (.add 0x433FFFFFFFFFFFFF#64 0x3FE0000000000000#64) = some 0x4340000000000000#64 := by
  decide +kernel

/-- Section 2.8: partial cancellation by 52, and an alignment of 64 or more. -/
theorem test_add_cancels_and_aligns :
    answer (.add 0x3FF0000000000001#64 0xBFF0000000000000#64) = some 0x3CB0000000000000#64 ∧
      answer (.add 0x3FF0000000000000#64 0x3B00000000000000#64) = some 0x3FF0000000000000#64 := by
  decide +kernel

/-- Section 2.9: neighbours at the subnormal boundary, and a NaN second operand (Preserve). -/
theorem test_sub_boundary_and_nan :
    answer (.sub 0x0010000000000000#64 0x000FFFFFFFFFFFFF#64) = some 0x0000000000000001#64 ∧
      answer (.sub 0x3FF0000000000000#64 0x7FF8000000000000#64) = some 0xFFF8000000000000#64 := by
  decide +kernel

/-- Section 2.11: a subnormal tie, and an overflow by rounding. -/
theorem test_mul_tie_and_overflow :
    answer (.mul 0x0000000000000003#64 0x3FE0000000000000#64) = some 0x0000000000000002#64 ∧
      answer (.mul 0x7FEFFFFFFFFFFFFF#64 0x3FF0000000000001#64) = some 0x7FF0000000000000#64 := by
  decide +kernel

/-- Section 2.11: MINS squared is flushed; a product rounds up out of the subnormal range. -/
theorem test_mul_flush_and_carry :
    answer (.mul 0x0000000000000001#64 0x0000000000000001#64) = some 0x0000000000000000#64 ∧
      answer (.mul 0x3FEFFFFFFFFFFFFF#64 0x0010000000000000#64) = some 0x0010000000000000#64 := by
  decide +kernel

/-- Section 2.12: 10 / 3 rounds up; the subnormal tie of R99. -/
theorem test_div_rounds :
    answer (.div 0x4024000000000000#64 0x4008000000000000#64) = some 0x400AAAAAAAAAAAAB#64 ∧
      answer (.div 0x0000000000000003#64 0x4000000000000000#64) = some 0x0000000000000002#64 := by
  decide +kernel

/-- Section 2.12: 1 / -0 (conflict C1), and inf / -inf (conflict C2). -/
theorem test_div_by_zero_and_invalid :
    answer (.div 0x3FF0000000000000#64 0x8000000000000000#64) = some 0xFFF0000000000000#64 ∧
      answer (.div 0x7FF0000000000000#64 0xFFF0000000000000#64) = some 0x7FF8000000000000#64 := by
  decide +kernel

/-- Section 2.10: a signaling NaN stays signaling (conflict C5), whatever stands on `b`. -/
theorem test_neg_keeps_signaling :
    answer (.neg 0x7FF0000000000001#64 0x123#64) = some 0xFFF0000000000001#64 := by decide +kernel

/-! ## The registered form (70_reset_and_hazards.md R116, R117, R120) -/

/-- LATENCY_NEG is 1 here: no result in the cycle of acceptance, the result in the next (R117). -/
theorem test_neg_after_one_cycle :
    validOf (cycles [requesting (.neg 1 0)] (idle regCfg)) = some false ∧
      yOf (cycles [requesting (.neg 1 0), quiet] (idle regCfg)) = some 0x8000000000000001#64 ∧
      validOf (cycles [requesting (.neg 1 0), quiet] (idle regCfg)) = some true := by
  decide +kernel

/-- A result is on `y` for exactly one cycle (R117). -/
theorem test_result_lasts_one_cycle :
    validOf (cycles [requesting (.neg 1 0), quiet, quiet] (idle regCfg)) = some false := by
  decide +kernel

/-- A request in flight is discarded by a reset (R116). -/
theorem test_reset_discards :
    validOf (cycles [requesting (.mul 1 0), quiet, resetting, quiet, quiet] (idle regCfg)) =
      some false := by decide +kernel

/-- ADD (latency 3), then NEG (latency 1) two cycles later, fall in one cycle (R120, X9). -/
theorem test_collision_refused :
    refusalOf (cycles [requesting (.add 1 2), quiet, requesting (.neg 1 0), quiet] (idle regCfg)) =
      some .resultCollision := by decide +kernel

/-- A reserved op code is refused (R42). -/
theorem test_reserved_refused :
    refusalOf (step (State.reset.setRequest ⟨0b110#3, 1, 2⟩)) = some (.reservedOp 0b110#3) := by
  decide +kernel

/-! ## Hypotheses are met

One theorem for each statement that has hypotheses, named after it. -/

theorem test_meets_EncodedInstructionsDecodeFromThePackedWord : 131 ≤ 136 := by decide

theorem test_meets_DecodingIsOneToOneOnDefinedOpCodes :
    (Request.mk 0b100#3 1 2).wf = true ∧ (Request.mk 0b101#3 1 2).wf = false := by decide

theorem test_meets_ReservedOpCodesAreRefused :
    (State.reset.setRequest ⟨0b101#3, 0, 0⟩).op = 0b101#3 ∧ isCombinational State.reset.cfg = true ∧
      isCombinational regCfg = false ∧
      requestPresent (((idle regCfg).setRequest ⟨0b111#3, 0, 0⟩).setControl true false) = true ∧
      (dueNow (((idle regCfg).setRequest ⟨0b111#3, 0, 0⟩).setControl true false)).length ≤ 1 := by
  decide

theorem test_meets_StepRunsTheDecodedInstruction :
    decode (requestOn (asked (.add 1 2))) = .ok (.add 1 2) ∧
      isCombinational (asked (.add 1 2)).cfg = true ∧
      decode (requestOn (askedOf regCfg (.div 1 2))) = .ok (.div 1 2) ∧
      isCombinational (askedOf regCfg (.div 1 2)).cfg = false ∧
      requestPresent (askedOf regCfg (.div 1 2)) = true ∧ requestPresent (idle regCfg) = false := by
  decide

theorem test_meets_CombinationalOutputIsTheUnitFunction :
    isCombinational (asked (.mul 1 2)).cfg = true ∧
      decode (requestOn (asked (.mul 1 2))) = .ok (.mul 1 2) := by decide

theorem test_meets_ResultsDependOnTheRequestAlone :
    isCombinational (asked (.sub 1 2)).cfg = true ∧
      ((asked (.sub 1 2)).setY 5).cfg = (asked (.sub 1 2)).cfg ∧
      requestOn ((asked (.sub 1 2)).setY 5) = requestOn (asked (.sub 1 2)) ∧
      (nextOf (step (asked (.sub 1 2)))).isSome = true := by decide +kernel

theorem test_meets_AllFiveOperationsComplete :
    isCombinational (asked (.add 1 2)).cfg = true ∧
      latencyOf (idle regCfg).cfg (.neg 1 2) ≠ 0 ∧ (idle mixedCfg).outValid = false ∧
      ((idle regCfg).setAwaiting true).awaitingReset = true := by decide

theorem test_meets_AcceptingARequestLeavesTheRest :
    (nextOf (exec (.add 1 2) (asked (.add 1 2)))).isSome = true ∧
      (nextOf (exec (.neg 1 2) ((idle regCfg).setAwaiting true))).isSome = true ∧
      (nextOf (exec (.neg 1 2) ((idle regCfg).setPipe [flying (.mul 1 2) 1]))).isSome = true := by
  decide +kernel

theorem test_meets_StepsChangeNoParameterAndNoInput :
    (nextOf (step (asked (.div 1 2)))).isSome = true ∧
      (nextOf (step (askedOf regCfg (.div 1 2)))).isSome = true := by decide +kernel

theorem test_meets_OnlyReservedCodesAndCollisionsStop :
    requestDefined (asked (.add 1 2)) = true ∧ (dueNow (askedOf regCfg (.mul 1 2))).length ≤ 1 ∧
      dueNow (askedOf regCfg (.mul 1 2)) = [] ∧ requestDefined (askedOf regCfg (.mul 1 2)) = true ∧
      refusalOf (step (State.reset.setRequest ⟨0b111#3, 0, 0⟩)) = some (.reservedOp 0b111#3) ∧
      refusalOf (step ((idle evenCfg).setPipe [flying (.neg 1 2) 2, flying (.neg 3 2) 2])) =
        some .resultCollision := by decide +kernel

theorem test_meets_ResultAppearsAfterItsLatency :
    isCombinational regCfg = false ∧ (idle regCfg).awaitingReset = false ∧ (idle regCfg).busy = 0 ∧
      [quiet, requesting (.div 3 4), resetting].length = latencyOf regCfg (.add 1 2) ∧
      (∀ j ∈ [quiet, requesting (.div 3 4), resetting].dropLast, j.rst = false) ∧
      quiet.inValid = false ∧ ¬ 1 + 1 < regCfg.ii ∧
      (nextOf (cycles [requesting (.add 1 2), quiet, requesting (.div 3 4), resetting]
        (idle regCfg))).isSome = true := by decide +kernel

theorem test_meets_AnIdleUnitAnswersExactlyOnce :
    isCombinational regCfg = false ∧ (idle regCfg).awaitingReset = false ∧ (idle regCfg).busy = 0 ∧
      (idle regCfg).pipe = [] ∧ (∀ j ∈ [quiet], j.inValid = false ∧ j.rst = false) ∧
      [quiet].length = latencyOf regCfg (.neg 1 2) := by decide

theorem test_meets_RequestsTooSoonAreUnspecified :
    isCombinational regCfg = false ∧ ((idle regCfg).setBusy 1).awaitingReset = false ∧
      ((idle regCfg).setBusy 1).busy ≠ 0 ∧ latencyOf regCfg (.add 1 2) ≠ 0 ∧
      isCombinational mixedCfg = false ∧ latencyOf mixedCfg (.neg 1 2) = 0 ∧
      ((idle mixedCfg).setBusy 1).outValid = false ∧
      (flying (.add 1 2) 1).age < regCfg.ii := by decide +kernel

theorem test_meets_TwoResultsInOneCycleAreRefused :
    isCombinational evenCfg = false ∧
      2 ≤ (dueNow ((idle evenCfg).setPipe [flying (.neg 1 2) 2, flying (.neg 3 2) 2])).length ∧
      isCombinational mixedCfg = false ∧
      (dueNow ((askedOf mixedCfg (.neg 1 2)).setPipe [flying (.add 1 2) 3])).length = 1 ∧
      requestPresent ((askedOf mixedCfg (.neg 1 2)).setPipe [flying (.add 1 2) 3]) = true ∧
      latencyOf mixedCfg (.neg 1 2) = 0 := by decide +kernel

/-- An idle registered unit is lawful, and so is one with a request in flight. -/
theorem test_meets_EqualLatenciesKeepOrderAndNeverCollide :
    ((idle evenCfg).setPipe [flying (.neg 1 2) 2]).Inv ∧ isCombinational evenCfg = false ∧
      latenciesEqual evenCfg ∧
      dueNow ((idle evenCfg).setPipe [flying (.neg 1 2) 2]) = [flying (.neg 1 2) 2] := by
  have one : ∀ e ∈ ((idle evenCfg).setPipe [flying (.neg 1 2) 2]).pipe,
      e = flying (.neg 1 2) 2 := by simp
  refine ⟨⟨by decide, by decide, ?_, ?_, by decide, ?_, by decide⟩, by decide, ?_,
    by decide +kernel⟩
  · intro e he
    obtain rfl := one e he
    exact ⟨by decide, by decide, by decide +kernel⟩
  · rw [State.setPipe_pipe]
    exact List.pairwise_singleton _ _
  · intro e he
    obtain rfl := one e he
    decide
  · intro i j
    cases i <;> cases j <;> rfl

theorem test_meets_ResetDiscardsEverythingInFlight :
    isCombinational regCfg = false ∧
      (((idle regCfg).setPipe [flying (.mul 1 2) 1]).setControl true true).rst = true ∧
      (nextOf (step (((idle regCfg).setPipe [flying (.mul 1 2) 1]).setControl true true))).isSome =
        true ∧
      [quiet, resetting] ≠ [] ∧ (∀ j ∈ [quiet, resetting], j.inValid = false) ∧
      (nextOf (step ((askedOf regCfg (.mul 1 2)).setAwaiting true))).isSome = true ∧
      isCombinational (asked (.neg 1 2)).cfg = true ∧
      (nextOf (step (asked (.neg 1 2)))).isSome = true := by decide +kernel

theorem test_meets_LawfulAtResetAndPowerUp : regCfg.wf = true ∧ Config.atReset.wf = true := by decide

/-- A lawful registered state from which a step goes on. -/
theorem test_meets_StepsKeepTheInvariant :
    (askedOf regCfg (.add 1 2)).Inv ∧ (nextOf (step (askedOf regCfg (.add 1 2)))).isSome = true := by
  refine ⟨⟨by decide, by decide, ?_, by simp [askedOf, idle, State.reset, State.setRequest,
    State.setControl], by decide, ?_, by decide⟩, by decide +kernel⟩ <;>
  · intro e he
    simp [askedOf, idle, State.reset, State.setRequest, State.setControl] at he

theorem test_meets_ResetLeavesTheSpecifiedState : isCombinational regCfg = false := by decide

theorem test_meets_UnsettledOutputIsAnyValue :
    isCombinational State.reset.cfg = true ∧
      decode (requesting (.div 1 2)).req = .ok (.div 1 2) ∧
      (requesting (.div 1 2)).req ≠ requestOn State.reset ∧
      decode (requesting (.add 0 0)).req = .ok (.add 0 0) ∧
      (requesting (.add 0 0)).req = requestOn State.reset ∧
      (nextOf (step State.reset)).isSome = true := by decide +kernel

/-- R18: `y` is still 1.0 + 2.0 when only `in_valid` and `rst` move, which the combinational form does
not have. -/
theorem test_y_stays_while_the_request_does :
    (((asked (.add 0x3FF0000000000000#64 0x4000000000000000#64)).setY 0x4008000000000000#64).drive
      { requesting (.add 0x3FF0000000000000#64 0x4000000000000000#64) with
        inValid := false, rst := true }).y = 0x4008000000000000#64 := by decide +kernel

theorem test_meets_RecomposePlacesItsFields :
    (1 < 2 ∧ 2 ^ 11 - 1 < 2 ^ 11 ∧ 2 ^ 52 - 1 < 2 ^ 52) ∧ (2 ≤ 2 ∨ 2 ^ 11 ≤ 0 ∨ 2 ^ 52 ≤ 0) := by
  decide

theorem test_meets_AbsoluteBitsOrderMagnitudes :
    isNaN 0x8000000000000001#64 = false ∧ isNaN 0x7FEFFFFFFFFFFFFF#64 = false ∧
      isFinite 0x8000000000000001#64 = true ∧ isFinite 0x7FEFFFFFFFFFFFFF#64 = true ∧
      isInf 0xFFF0000000000000#64 = true ∧ isNaN 0xFFF0000000000000#64 = false := by decide

theorem test_meets_NormalizerKeepsTheValue : 0x0000000000001#52 ≠ 0#52 := by decide

theorem test_meets_StickyShiftRemembersLostBits :
    (1 ≤ 1 ∧ 1 ≤ 63) ∧ (1 ≤ 63 ∧ 63 ≤ 63) ∧ ((64 : Nat) = 0 ∨ 64 ≤ 64) := by decide

theorem test_meets_WideStickyShiftRemembersLostBits :
    (1 ≤ 63 ∧ 63 ≤ 63) ∧ ((0 : Nat) = 0 ∨ 64 ≤ 0) := by decide

theorem test_meets_RoundingNeverReachesTheSign : isFinite 0xFFEFFFFFFFFFFFFF#64 = true := by decide

theorem test_meets_NaNResultsAreQuietAndKeepThePayload :
    isNaN 0xFFF0000000000001#64 = true ∧ isNaN 0x7FF8000000000000#64 = true ∧
      (classify 0x7FF8000000000000#64).isQuiet = true := by decide

theorem test_meets_ReferenceRoundingIsNearestEven :
    (0 : ℚ) ≤ 2 ^ 1024 - 2 ^ 970 ∧ (1 : ℚ) / 3 < 2 ^ 1024 - 2 ^ 970 ∧
      isFinite 0x7FEFFFFFFFFFFFFF#64 = true := by decide +kernel

theorem test_meets_ReferenceRoundingFixesFinitePatterns :
    isFinite 0x800FFFFFFFFFFFFF#64 = true := by decide

/-- Every row of R66, in the statement's order. -/
theorem test_meets_AddSpecialCasesFollowTheTable :
    (classify 0x7FF0000000000001#64).isNaN = true ∧ (classify 0x7FF0000000000000#64).isNaN = false ∧
      (classify 0x7FF0000000000000#64).isInf = true ∧ (classify 0xFFF0000000000000#64).isInf = true ∧
      signField 0x7FF0000000000000#64 ≠ signField 0xFFF0000000000000#64 ∧
      isFinite 0x7FEFFFFFFFFFFFFF#64 = true ∧ (classify 0x8000000000000000#64).isZero = true ∧
      isFinite 0x0000000000000001#64 = true ∧
      (classify 0x0000000000000001#64).isZero = false := by decide

/-- A nonzero sum, and a sum of zero of nonzero operands. -/
theorem test_meets_AddOfFiniteOperandsIsTheRoundedSum :
    14 ≤ State.reset.cfg.expw ∧ bothFinite 0x0000000000000001#64 0x7FEFFFFFFFFFFFFF#64 ∧
      isZero 0x0000000000000001#64 = false ∧
      value 0x0000000000000001#64 + value 0x7FEFFFFFFFFFFFFF#64 ≠ 0 ∧
      value 0x0000000000000001#64 + value 0x8000000000000001#64 = 0 := by
  refine ⟨by decide, ⟨by decide, by decide⟩, by decide, by decide +kernel, by decide +kernel⟩

theorem test_meets_ExactCancellationGivesPositiveZero :
    isFinite 0x800FFFFFFFFFFFFF#64 = true ∧ isZero 0x800FFFFFFFFFFFFF#64 = false := by decide

theorem test_meets_AlignedOperandIsNotLarger :
    special 0x3FF0000000000000#64 = false ∧ special 0xBCA0000000000000#64 = false ∧
      (unpack 14 (smallerOperand 0x3FF0000000000000#64 0xBCA0000000000000#64)).1 <
        (unpack 14 (largerOperand 0x3FF0000000000000#64 0xBCA0000000000000#64)).1 := by decide +kernel

/-- The smallest subnormal doubled, at the largest shift but one. -/
theorem test_meets_AddUnderflowShiftIsInRange :
    special 0x0000000000000001#64 = false ∧
      isSubtraction 0x0000000000000001#64 0x0000000000000001#64 = false ∧
      (addCombined 14 0x0000000000000001#64 0x0000000000000001#64).1 ≤ 0 := by decide +kernel

theorem test_meets_SubnormalSumsAreExact :
    14 ≤ Config.atReset.expw ∧ isFinite 0x0010000000000000#64 = true ∧
      isFinite 0x8000000000000001#64 = true ∧
      expField (unitFunction Config.atReset (.add 0x0010000000000000#64 0x8000000000000001#64)) =
        0#11 := by decide +kernel

theorem test_meets_AddCommutesUnlessBothAreNaN :
    isNaN 0x3FF0000000000000#64 = false ∧ isNaN 0x7FF0000000000001#64 = true ∧
      isNaN 0xFFF8000000000002#64 = true := by decide

theorem test_meets_SubIsAddOfTheNegatedOperand :
    isFinite 0x3FF0000000000000#64 = true ∧ isZero 0x3FF0000000000000#64 = false ∧
      isNaN 0x3FF0000000000000#64 = false ∧ isNaN 0xFFF8000000000002#64 = true ∧
      14 ≤ State.reset.cfg.expw := by decide

theorem test_meets_SubOfFiniteOperandsIsTheRoundedDifference :
    14 ≤ State.reset.cfg.expw ∧ bothFinite 0x4008000000000000#64 0x8000000000000000#64 ∧
      isZero 0x4008000000000000#64 = false ∧
      value 0x4008000000000000#64 - value 0x8000000000000000#64 ≠ 0 ∧
      value 0x4008000000000000#64 - value 0x4008000000000000#64 = 0 := by
  refine ⟨by decide, ⟨by decide, by decide⟩, by decide, by decide +kernel, by decide +kernel⟩

theorem test_meets_NegFlipsOnlyTheSign : isFinite 0x0000000000000000#64 = true := by decide

/-- Every row of R83, in the statement's order. -/
theorem test_meets_MulSpecialCasesFollowTheTable :
    (classify 0xFFF0000000000001#64).isNaN = true ∧ (classify 0x7FF0000000000000#64).isNaN = false ∧
      (classify 0x7FF0000000000000#64).isInf = true ∧
      (classify 0xFFF0000000000000#64).isZero = false ∧
      (classify 0x8000000000000000#64).isZero = true ∧ isFinite 0x0000000000000001#64 = true := by
  decide

theorem test_meets_ProductLeadingBitIsPlaced :
    14 ≤ 14 ∧ (-1125 : Int) ≤ 3069 ∧ (0x001FFFFFFFFFFFFF#64).toNat < 2 ^ 53 := by decide

/-- The largest finite pattern times the smallest subnormal. -/
theorem test_meets_MulOfFiniteOperandsIsTheRoundedProduct :
    14 ≤ State.reset.cfg.expw ∧ bothFiniteNonzero 0x7FEFFFFFFFFFFFFF#64 0x8000000000000001#64 := by
  exact ⟨by decide, ⟨by decide, by decide⟩, by decide, by decide⟩

theorem test_meets_MulCommutesUnlessBothAreNaN :
    isNaN 0x0000000000000000#64 = false ∧ isNaN 0x7FF4000000000000#64 = true ∧
      isNaN 0x7FF8000000000001#64 = true := by decide

/-- Every row of R94, in the statement's order. -/
theorem test_meets_DivSpecialCasesFollowTheTable :
    (classify 0x7FF8000000000123#64).isNaN = true ∧ (classify 0x7FF0000000000000#64).isNaN = false ∧
      (classify 0x7FF0000000000000#64).isInf = true ∧ isFinite 0x8000000000000000#64 = true ∧
      (classify 0x8000000000000000#64).isZero = true ∧ isFinite 0x4008000000000000#64 = true ∧
      (classify 0x4008000000000000#64).isZero = false := by decide

theorem test_meets_QuotientAndResidualAreExact :
    2 ^ 52 ≤ 2 ^ 53 - 1 ∧ 2 ^ 53 - 1 ≤ 2 * (2 ^ 53 - 1) - 1 ∧ 0 < 63 := by decide

theorem test_meets_NormalQuotientsNeverTie :
    2 ^ 52 ≤ 3 * 2 ^ 51 ∧ 3 * 2 ^ 51 ≤ 2 ^ 53 - 1 ∧ 3 * 2 ^ 51 ≤ 2 ^ 53 ∧
      2 ^ 53 < 2 * (3 * 2 ^ 51) := by decide

/-- The smallest subnormal over the largest finite pattern. -/
theorem test_meets_DivOfFiniteOperandsIsTheRoundedQuotient :
    14 ≤ State.reset.cfg.expw ∧ bothFiniteNonzero 0x0000000000000001#64 0xFFEFFFFFFFFFFFFF#64 := by
  exact ⟨by decide, ⟨by decide, by decide⟩, by decide, by decide⟩

theorem test_meets_DividingByItselfGivesOne :
    14 ≤ State.reset.cfg.expw ∧ isFinite 0x0000000000000001#64 = true ∧
      isZero 0x0000000000000001#64 = false := by decide

/-- The largest divisor significand, with the parameters of `State.reset`. -/
theorem test_meets_ReciprocalSchemeDeliversTheExactQuotient :
    2 ^ 52 ≤ 2 ^ 53 - 1 ∧ reciprocal Config.atReset (2 ^ 53 - 1) < 2 ^ 64 ∧
      ((reciprocal Config.atReset (2 ^ 53 - 1) : ℤ) * (2 ^ 53 - 1 : ℕ) - 2 ^ 116).natAbs ≤
        reciprocalPrecision * (2 ^ 53 - 1) ∧ 2 ^ 53 < 2 ^ 54 ∧
      Config.atReset.divHalfWidth = 32 ∧ Config.atReset.divC = 0x17504F333 ∧
      3 ≤ Config.atReset.divHalfIters := by decide +kernel

/-- A candidate one too high, one too low and two too low, for 7 / 2: only one correction is made. -/
theorem test_correctQuotient :
    correctQuotient 7 2 4 = (3, 1) ∧ correctQuotient 7 2 2 = (3, 1) ∧
      correctQuotient 7 2 1 = (2, 3) := by decide

/-- The reciprocal of 1.5 that the parameters of `State.reset` give. -/
theorem test_meets_AccurateReciprocalLeavesOneCorrection :
    reciprocal Config.atReset (3 * 2 ^ 51) < 2 ^ 64 ∧ 2 ^ 53 < 2 ^ 54 ∧ 0 < 3 * 2 ^ 51 ∧
      ((reciprocal Config.atReset (3 * 2 ^ 51) : ℤ) * (3 * 2 ^ 51 : ℕ) - 2 ^ 116).natAbs ≤
        reciprocalPrecision * (3 * 2 ^ 51) := by decide +kernel

theorem test_meets_ExponentWidthNeverMatters : 14 ≤ Config.atReset.expw ∧ 14 ≤ 14 := by decide

theorem test_meets_InternalExponentsStayInRange :
    14 ≤ 14 ∧ special 0x0000000000000001#64 = false ∧ special 0xFFEFFFFFFFFFFFFF#64 = false := by
  decide

theorem test_meets_NaNSignChangesOnlyTheSignOfNaNs :
    isNaN (Instr.add 1 2).operandA = false ∧ isNaN (Instr.add 1 2).operandB = false := by decide

theorem test_meets_HostBytesRoundTrip : byteOrderWf [3, 2, 1, 0, 7, 6, 5, 4] = true := by decide

end Sys2Proof.Tests
end

section
/-! What the parts of a step leave alone, and from it: no step changes a parameter or an input port
(00_scope.md R7, 10_state.md R17, R19). -/

namespace Sys2Proof.Machine

open Sys2Proof

@[simp] theorem clockEdge_inValid (s : State) : (clockEdge s).inValid = s.inValid := rfl

@[simp] theorem clockEdge_rst (s : State) : (clockEdge s).rst = s.rst := rfl

/-- Accepting a request changes the outputs, the pipeline, the spacing and the count of free values
alone. -/
theorem accept_frame {i : Instr} {r : Word} {s t : State} (h : accept i r s = .next t) :
    t.cfg = s.cfg ∧ requestOn t = requestOn s ∧ t.inValid = s.inValid ∧ t.rst = s.rst ∧
      t.awaitingReset = s.awaitingReset := by
  rcases accept_cases h with ⟨_, rfl⟩ | ⟨_, _, rfl⟩ | ⟨_, _, _, _, _, rfl⟩ | ⟨_, _, _, _, _, rfl⟩ |
    ⟨_, _, _, rfl⟩ <;> exact ⟨rfl, rfl, rfl, rfl, rfl⟩

/-- Executing an instruction is accepting a request, so it leaves the same fields alone. -/
theorem exec_frame {i : Instr} {s t : State} (h : exec i s = .next t) :
    t.cfg = s.cfg ∧ requestOn t = requestOn s ∧ t.inValid = s.inValid ∧ t.rst = s.rst ∧
      t.awaitingReset = s.awaitingReset :=
  accept_frame (exec_eq_accept i s ▸ h)

/-- Settles O10: in the combinational form by the frame of `exec`; in a registered cycle by the frames
of its start, of the accepted request if there is one, and of the edge. -/
theorem stepsChangeNoParameterAndNoInput : Obligations.StepsChangeNoParameterAndNoInput := by
  intro s u h
  rcases step_cases h with ⟨_, i, _, hexec⟩ | ⟨_, t, hbegin, hrest⟩
  · obtain ⟨hcfg, hreq, hvalid, hrst, _⟩ := exec_frame hexec
    exact ⟨hcfg, hreq, hvalid, hrst⟩
  · obtain ⟨hcfg, hreq, hvalid, hrst, _⟩ := beginCycle_frame hbegin
    rcases hrest with ⟨_, rfl⟩ | ⟨_, i, v, _, hexec, rfl⟩
    · simp [hcfg, hreq, hvalid, hrst]
    · obtain ⟨hcfg', hreq', hvalid', hrst', _⟩ := exec_frame hexec
      simp [hcfg', hcfg, hreq', hreq, hvalid', hvalid, hrst', hrst]

end Sys2Proof.Machine
end

section
/-! How the steps of the two forms read once the request on the ports is decoded (10_state.md R18, R19;
70_reset_and_hazards.md R117), and from it: what `y` is in the combinational form and what it depends
on. -/

namespace Sys2Proof.Machine

open Sys2Proof

/-! ## The step of each form -/

theorem step_of_combinational {s : State} (h : isCombinational s.cfg = true) : step s = issue s :=
  if_pos h

theorem step_of_registered {s : State} (h : isCombinational s.cfg = false) :
    step s = andThen (beginCycle s) fun t =>
      andThen (if requestPresent t then issue t else .next t) fun u => .next (clockEdge u) :=
  if_neg (by simp [h])

theorem issue_of_decode {s : State} {i : Instr} (h : decode (requestOn s) = .ok i) :
    issue s = exec i s := by
  simp [issue, h]

/-- Sequences agree when their second parts agree on what the first one answers. -/
theorem andThen_congr {o : Result} {f g : State → Result} (h : ∀ t, o = .next t → f t = g t) :
    andThen o f = andThen o g := by
  cases o with
  | next t => exact h t rfl
  | fault r => rfl
  | refused r => rfl

theorem beginCycle_requestPresent {s t : State} (h : beginCycle s = .next t) :
    requestPresent t = requestPresent s := by
  obtain ⟨_, _, hvalid, hrst, _⟩ := beginCycle_frame h
  simp [requestPresent, hvalid, hrst]

/-- Settles O5: by the form's own step, where the start of a registered cycle leaves the request and
its control ports as they are. -/
theorem stepRunsTheDecodedInstruction : Obligations.StepRunsTheDecodedInstruction := by
  intro s i hdecode
  refine ⟨fun hcomb => ?_, fun hreg hpresent => ?_, fun hreg habsent => ?_⟩
  · rw [step_of_combinational hcomb, issue_of_decode hdecode]
  · rw [step_of_registered hreg]
    refine andThen_congr fun t hbegin => ?_
    obtain ⟨_, hreq, _⟩ := beginCycle_frame hbegin
    have hissue : issue t = exec i t := issue_of_decode (hreq ▸ hdecode)
    simp [beginCycle_requestPresent hbegin, hpresent, hissue]
  · rw [step_of_registered hreg]
    refine andThen_congr fun t hbegin => ?_
    simp [beginCycle_requestPresent hbegin, habsent]

/-! ## The combinational form -/

theorem exec_of_combinational {s : State} (i : Instr) (h : isCombinational s.cfg = true) :
    exec i s = .next (s.setY (unitFunction s.cfg i)) := by
  rw [exec_eq_accept, accept, if_pos h]

theorem step_combinational_of_decode {s : State} {i : Instr} (hcomb : isCombinational s.cfg = true)
    (hdecode : decode (requestOn s) = .ok i) :
    step s = .next (s.setY (unitFunction s.cfg i)) := by
  rw [step_of_combinational hcomb, issue_of_decode hdecode, exec_of_combinational i hcomb]

/-- Settles O6: the settled state carries the same request under the same parameters, so the next step
drives `y` with the same pattern. -/
theorem combinationalOutputIsTheUnitFunction :
    Obligations.CombinationalOutputIsTheUnitFunction := by
  intro s i hcomb hdecode
  have hsettled : requestOn (s.setY (unitFunction s.cfg i)) = requestOn s := rfl
  exact ⟨step_combinational_of_decode hcomb hdecode,
    step_combinational_of_decode hcomb (hsettled ▸ hdecode)⟩

/-- Settles O7: both steps drive `y` with the unit function of the one decoded request. -/
theorem resultsDependOnTheRequestAlone : Obligations.ResultsDependOnTheRequestAlone := by
  intro s s' t hcomb hcfg hreq hstep
  obtain ⟨i, hdecode, _⟩ := issue_eq_next.mp (step_of_combinational hcomb ▸ hstep)
  rw [step_combinational_of_decode hcomb hdecode] at hstep
  cases hstep
  exact ⟨s'.setY (unitFunction s'.cfg i),
    step_combinational_of_decode (hcfg ▸ hcomb) (hreq ▸ hdecode), by simp [hcfg]⟩

end Sys2Proof.Machine
end

section
/-! What a further request does to the older ones in flight: it may mark them as overlapped, and keeps
their places, requests, ages and results (10_state.md R20, 70_reset_and_hazards.md R117). -/

namespace Sys2Proof.Machine

open Sys2Proof

/-- The two entries are one request in flight, up to the overlapped mark. -/
def InFlight.SameRequest (d e : InFlight) : Prop :=
  d.request = e.request ∧ d.age = e.age ∧ d.result = e.result

theorem pipeAfterRequest_getElem? {s : State} {n : Nat} {e : InFlight} (h : s.pipe[n]? = some e) :
    ∃ d, (pipeAfterRequest s)[n]? = some d ∧ d.SameRequest e := by
  unfold pipeAfterRequest markOverlapped
  split
  · exact ⟨e, h, rfl, rfl, rfl⟩
  · refine ⟨_, by rw [List.getElem?_map, h, Option.map_some], ?_⟩
    split <;> exact ⟨rfl, rfl, rfl⟩

/-- Accepting a request in a unit past its first reset keeps every older one in its place. -/
theorem accept_getElem?_pipe {i : Instr} {r : Word} {s t : State} {n : Nat} {e : InFlight}
    (h : accept i r s = .next t) (hentry : s.pipe[n]? = some e) :
    ∃ d, t.pipe[n]? = some d ∧ d.SameRequest e := by
  have hsame : e.SameRequest e := ⟨rfl, rfl, rfl⟩
  obtain ⟨d, hd, hde⟩ := pipeAfterRequest_getElem? hentry
  rcases accept_cases h with ⟨_, rfl⟩ | ⟨_, _, rfl⟩ | ⟨_, _, _, _, _, rfl⟩ | ⟨_, _, _, _, _, rfl⟩ |
    ⟨_, _, _, rfl⟩
  · exact ⟨e, hentry, hsame⟩
  · exact ⟨e, hentry, hsame⟩
  · exact ⟨e, hentry, hsame⟩
  · exact ⟨d, hd, hde⟩
  · obtain ⟨hn, _⟩ := List.getElem?_eq_some_iff.mp hd
    exact ⟨d, by rw [State.setPipe_pipe, List.getElem?_append_left hn, hd], hde⟩

/-- At a latency other than 0 a registered unit accepts a request without touching its outputs. -/
theorem accept_keeps_outputs {i : Instr} {r : Word} {s t : State} (h : accept i r s = .next t)
    (hreg : isCombinational s.cfg = false) (hlat : latencyOf s.cfg i ≠ 0) :
    t.y = s.y ∧ t.outValid = s.outValid ∧ t.draws = s.draws := by
  rcases accept_cases h with ⟨hcomb, _⟩ | ⟨_, _, rfl⟩ | ⟨_, _, hzero, _⟩ | ⟨_, _, hzero, _⟩ |
    ⟨_, _, _, rfl⟩
  · simp [hreg] at hcomb
  · exact ⟨rfl, rfl, rfl⟩
  · exact absurd hzero hlat
  · exact absurd hzero hlat
  · exact ⟨rfl, rfl, rfl⟩

/-- Before the first reset a request leaves nothing but the spacing of `II` (log entries 8 and 12). -/
theorem exec_of_awaitingReset {s : State} (i : Instr) (hreg : isCombinational s.cfg = false)
    (hwait : s.awaitingReset = true) : exec i s = .next (s.setBusy s.cfg.ii) := by
  simp [exec_eq_accept, accept, hreg, hwait]

/-- Settles O9: the frame of `exec`, then each form's own: the one field it writes in the combinational
form and before the first reset, and the pipeline's older entries in a running registered unit. -/
theorem acceptingARequestLeavesTheRest : Obligations.AcceptingARequestLeavesTheRest := by
  intro s t i hexec
  obtain ⟨hcfg, hreq, hvalid, hrst, hwait⟩ := exec_frame hexec
  refine ⟨hcfg, hreq, hvalid, hrst, hwait, fun hcomb => ?_, fun hreg hwaiting => ?_,
    fun hreg _ => ?_⟩
  · rw [exec_of_combinational i hcomb] at hexec
    cases hexec
    exact ⟨rfl, rfl, rfl, rfl⟩
  · rw [exec_of_awaitingReset i hreg hwaiting] at hexec
    cases hexec
    exact ⟨rfl, rfl, rfl, rfl⟩
  · rw [exec_eq_accept] at hexec
    exact ⟨accept_keeps_outputs hexec hreg, fun n e => accept_getElem?_pipe hexec⟩

end Sys2Proof.Machine
end

section
/-! The invariant of the unit: it holds at reset and at power-up, and every step and every move of the
requester keeps it (10_state.md R20, R23; 70_reset_and_hazards.md R116, R117). Inside a registered cycle
a second invariant, `State.MidCycle`, carries it from the start of the cycle to the edge. -/

namespace Sys2Proof.Machine

open Sys2Proof

/-! ## Reset and power-up -/

@[simp] theorem State.afterReset_cfg (c : Config) : (State.afterReset c).cfg = c := by
  unfold State.afterReset; split <;> rfl

@[simp] theorem State.afterReset_outValid (c : Config) : (State.afterReset c).outValid = false := by
  unfold State.afterReset; split <;> rfl

@[simp] theorem State.afterReset_pipe (c : Config) : (State.afterReset c).pipe = [] := by
  unfold State.afterReset; split <;> rfl

@[simp] theorem State.afterReset_busy (c : Config) : (State.afterReset c).busy = 0 := by
  unfold State.afterReset; split <;> rfl

@[simp] theorem State.afterReset_awaitingReset (c : Config) :
    (State.afterReset c).awaitingReset = false := by
  unfold State.afterReset; split <;> rfl

theorem State.afterReset_y {c : Config} (h : isCombinational c = false) :
    (State.afterReset c).y = Config.freeWord 0 := by
  simp [State.afterReset, h]

/-- Under the reset parameters, those of the combinational form, `State.reset` is the state after a
reset. -/
theorem State.reset_eq_afterReset : State.reset = State.afterReset Config.atReset := rfl

@[simp] theorem State.powerUp_cfg (c : Config) : (State.powerUp c).cfg = c := by
  unfold State.powerUp; split <;> simp

@[simp] theorem State.powerUp_pipe (c : Config) : (State.powerUp c).pipe = [] := by
  unfold State.powerUp; split <;> simp

@[simp] theorem State.powerUp_busy (c : Config) : (State.powerUp c).busy = 0 := by
  unfold State.powerUp; split <;> simp

theorem State.powerUp_of_combinational {c : Config} (h : isCombinational c = true) :
    State.powerUp c = State.afterReset c :=
  if_pos h

/-- Settles O20: the reset request is ADD of two zeros, whose sum is the zero on `y`; the registered
form by the fields of the state after a reset. -/
theorem resetLeavesTheSpecifiedState : Obligations.ResetLeavesTheSpecifiedState := by
  have hadd : State.reset.y = unitFunction State.reset.cfg (.add 0 0) := by decide
  refine ⟨rfl, rfl, ⟨.add 0 0, rfl, hadd⟩, fun c hreg => ?_⟩
  exact ⟨State.afterReset_outValid c, State.afterReset_pipe c, State.afterReset_awaitingReset c,
    State.afterReset_y hreg⟩

theorem Config.one_le_ii_of_wf {c : Config} (h : c.wf = true) : 1 ≤ c.ii := by
  simp only [Config.wf, Bool.and_eq_true, decide_eq_true_eq] at h
  obtain ⟨⟨hii, _⟩, _⟩ := h
  exact hii

/-- A unit with nothing in flight and no spacing to keep has the invariant, if its combinational form
shows nothing of the registered one. -/
theorem State.Inv.of_idle {s : State} (hwf : s.cfg.wf = true) (hpipe : s.pipe = [])
    (hbusy : s.busy = 0)
    (hcomb : isCombinational s.cfg = true → s.outValid = false ∧ s.awaitingReset = false) :
    s.Inv where
  cfgWf := hwf
  combinationalIdle h := ⟨hpipe, (hcomb h).1, hbusy, (hcomb h).2⟩
  inFlightLawful := by simp [hpipe]
  inFlightSpaced := by simp [hpipe]
  busyBound := hbusy ▸ Config.one_le_ii_of_wf hwf
  busyCovers := by simp [hpipe]
  powerUpEmpty _ := hpipe

theorem State.afterReset_inv {c : Config} (h : c.wf = true) : (State.afterReset c).Inv :=
  .of_idle (by simpa using h) (by simp) (by simp) (by simp)

theorem State.powerUp_inv {c : Config} (h : c.wf = true) : (State.powerUp c).Inv := by
  refine .of_idle (by simpa using h) (by simp) (by simp) fun hcomb => ?_
  rw [State.powerUp_cfg] at hcomb
  simp [State.powerUp_of_combinational hcomb]

/-- Settles O18: each of the three states is idle. -/
theorem lawfulAtResetAndPowerUp : Obligations.LawfulAtResetAndPowerUp := by
  refine ⟨?_, fun c hwf => ⟨State.afterReset_inv hwf, State.powerUp_inv hwf⟩⟩
  rw [State.reset_eq_afterReset]
  exact State.afterReset_inv (by decide)

/-! ## The invariant inside a registered cycle -/

/-- The invariant of a registered unit between the start of a cycle and its edge: the result due has
left, so what is in flight is younger than its latency, and a request just accepted has age 0. -/
structure State.MidCycle (s : State) : Prop where
  cfgWf : s.cfg.wf = true
  registered : isCombinational s.cfg = false
  inFlightPending : ∀ e ∈ s.pipe,
    e.age < latencyOf s.cfg e.request ∧ e.result = unitFunction s.cfg e.request
  inFlightSpaced : s.pipe.Pairwise (spaced s.cfg)
  busyBound : s.busy ≤ s.cfg.ii
  busyCovers : ∀ e ∈ s.pipe, s.cfg.ii ≤ s.busy + e.age
  powerUpEmpty : s.awaitingReset = true → s.pipe = []

/-- The invariant reads neither the input ports nor `y`. -/
theorem State.Inv.congr {s t : State} (h : s.Inv) (hcfg : t.cfg = s.cfg)
    (hvalid : t.outValid = s.outValid) (hpipe : t.pipe = s.pipe) (hbusy : t.busy = s.busy)
    (hwait : t.awaitingReset = s.awaitingReset) : t.Inv := by
  obtain ⟨h1, h2, h3, h4, h5, h6, h7⟩ := h
  constructor <;> simpa only [hcfg, hvalid, hpipe, hbusy, hwait]

/-- The invariant inside a cycle reads neither the ports nor the free values. -/
theorem State.MidCycle.congr {s t : State} (h : s.MidCycle) (hcfg : t.cfg = s.cfg)
    (hpipe : t.pipe = s.pipe) (hbusy : t.busy = s.busy)
    (hwait : t.awaitingReset = s.awaitingReset) : t.MidCycle := by
  obtain ⟨h1, h2, h3, h4, h5, h6, h7⟩ := h
  constructor <;> simpa only [hcfg, hpipe, hbusy, hwait]

/-! ## The start of a cycle -/

@[simp] theorem State.showEntry_pipe (s : State) (e : InFlight) : (s.showEntry e).pipe = s.pipe := by
  unfold State.showEntry; split <;> rfl

/-- At the start of a cycle exactly the requests that are due leave the pipeline. -/
theorem beginCycle_pipe {s t : State} (hempty : s.awaitingReset = true → s.pipe = [])
    (h : beginCycle s = .next t) : t.pipe = s.pipe.filter fun e => !isDue s.cfg e := by
  rcases beginCycle_cases h with ⟨hwait, rfl⟩ | ⟨_, hnone, rfl⟩ | ⟨_, e, _, rfl⟩
  · change s.pipe = _
    simp [hempty hwait]
  · change s.pipe = _
    rw [List.filter_eq_nil_iff] at hnone
    exact (List.filter_eq_self.mpr fun e he => by simpa using hnone e he).symm
  · simp

/-- The start of a registered cycle leaves the requests that are not due, each accepted in an earlier
cycle and younger than its latency. -/
theorem State.Inv.beginCycle {s t : State} (h : s.Inv) (hreg : isCombinational s.cfg = false)
    (hbegin : beginCycle s = .next t) : t.MidCycle ∧ ∀ e ∈ t.pipe, 1 ≤ e.age := by
  obtain ⟨hcfg, _, _, _, hbusy, hwait⟩ := beginCycle_frame hbegin
  have hpipe := beginCycle_pipe h.powerUpEmpty hbegin
  have hmem : ∀ e ∈ t.pipe, e ∈ s.pipe ∧ e.age ≠ latencyOf s.cfg e.request := by
    simp [hpipe, isDue]
  refine ⟨?_, fun e he => (h.inFlightLawful e (hmem e he).1).1⟩
  constructor
  case cfgWf => exact hcfg ▸ h.cfgWf
  case registered => exact hcfg ▸ hreg
  case inFlightPending =>
    intro e he
    obtain ⟨hes, hnotDue⟩ := hmem e he
    obtain ⟨_, hage, hresult⟩ := h.inFlightLawful e hes
    rw [hcfg]
    exact ⟨lt_of_le_of_ne hage hnotDue, hresult⟩
  case inFlightSpaced =>
    rw [hcfg, hpipe]
    exact h.inFlightSpaced.filter _
  case busyBound =>
    rw [hcfg, hbusy]
    exact h.busyBound.le
  case busyCovers =>
    intro e he
    rw [hcfg, hbusy]
    exact h.busyCovers e (hmem e he).1
  case powerUpEmpty =>
    intro hw
    rw [hpipe, h.powerUpEmpty (hwait ▸ hw), List.filter_nil]

/-! ## Accepting a request -/

theorem spaced.of_overlapped {c : Config} {e f e' f' : InFlight} (h : spaced c e f)
    (he : e'.age = e.age) (hf : f'.age = f.age) (hoe : e'.overlapped = false → e.overlapped = false)
    (hof : f'.overlapped = false → f.overlapped = false) : spaced c e' f' := by
  obtain ⟨hage, hii⟩ := h
  rw [spaced, he, hf]
  exact ⟨hage, fun hclear => hii (hclear.imp hoe hof)⟩

theorem spaced_markOverlapped {c : Config} {ii : Nat} {p : List InFlight}
    (h : p.Pairwise (spaced c)) : (markOverlapped ii p).Pairwise (spaced c) := by
  refine h.map _ fun e f hspaced => hspaced.of_overlapped ?_ ?_ ?_ ?_ <;> split <;> simp

theorem spaced_pipeAfterRequest {s : State} (h : s.pipe.Pairwise (spaced s.cfg)) :
    (pipeAfterRequest s).Pairwise (spaced s.cfg) := by
  unfold pipeAfterRequest
  split
  · exact h
  · exact spaced_markOverlapped h

theorem mem_pipeAfterRequest {s : State} {e : InFlight} (h : e ∈ pipeAfterRequest s) :
    ∃ d ∈ s.pipe, e.SameRequest d ∧ (s.busy ≠ 0 → e.overlapped = false → s.cfg.ii ≤ d.age) := by
  unfold pipeAfterRequest at h
  split at h
  · rename_i hbusy
    exact ⟨e, h, ⟨rfl, rfl, rfl⟩, fun hne => absurd hbusy hne⟩
  · obtain ⟨d, hd, hrequest, hage, hresult, hclear⟩ := mem_markOverlapped h
    exact ⟨d, hd, ⟨hrequest, hage, hresult⟩, fun _ he => (hclear he).2⟩

@[simp] theorem pipeAfterRequest_eq_nil {s : State} (h : s.pipe = []) : pipeAfterRequest s = [] := by
  simp [pipeAfterRequest, markOverlapped, h]

namespace State.MidCycle

variable {s : State}

/-- A request that has come starts the spacing of `II` anew. -/
theorem restartSpacing (h : s.MidCycle) : (s.setBusy s.cfg.ii).MidCycle :=
  { h with
    busyBound := le_rfl
    busyCovers := fun e _ => Nat.le_add_right s.cfg.ii e.age }

/-- Marking the overlapped requests keeps the invariant. -/
theorem markRequests (h : s.MidCycle) :
    ((s.setPipe (pipeAfterRequest s)).setBusy s.cfg.ii).MidCycle where
  cfgWf := h.cfgWf
  registered := h.registered
  inFlightPending e he := by
    obtain ⟨d, hd, ⟨hrequest, hage, hresult⟩, _⟩ := mem_pipeAfterRequest he
    have hpending := h.inFlightPending d hd
    rwa [← hrequest, ← hage, ← hresult] at hpending
  inFlightSpaced := spaced_pipeAfterRequest h.inFlightSpaced
  busyBound := le_rfl
  busyCovers e _ := Nat.le_add_right s.cfg.ii e.age
  powerUpEmpty hwait := pipeAfterRequest_eq_nil (h.powerUpEmpty hwait)

/-- An older request is spaced from one accepted now: with no spacing left to keep, all are at least
`II` cycles old; otherwise the younger ones and the new one are marked. -/
theorem spaced_new (h : s.MidCycle) (hage : ∀ e ∈ s.pipe, 1 ≤ e.age) {i : Instr} {r : Word}
    {e : InFlight} (he : e ∈ pipeAfterRequest s) :
    spaced s.cfg e { request := i, age := 0, result := r, overlapped := decide (s.busy ≠ 0) } := by
  obtain ⟨d, hd, ⟨_, hsame, _⟩, hclear⟩ := mem_pipeAfterRequest he
  have hpos := hage d hd
  have hcovers := h.busyCovers d hd
  simp only [spaced, hsame, Nat.zero_add]
  refine ⟨hpos, fun hunmarked => ?_⟩
  by_cases hbusy : s.busy = 0
  · omega
  · exact hclear hbusy (by simpa [hbusy] using hunmarked)

/-- The accepted request enters the pipeline behind the older ones. -/
theorem enter (h : s.MidCycle) (hage : ∀ e ∈ s.pipe, 1 ≤ e.age) {i : Instr}
    (hrun : s.awaitingReset = false) (hlat : latencyOf s.cfg i ≠ 0) :
    ((s.setBusy s.cfg.ii).setPipe (pipeAfterRequest s ++
      [{ request := i, age := 0, result := unitFunction s.cfg i,
         overlapped := decide (s.busy ≠ 0) }])).MidCycle where
  cfgWf := h.cfgWf
  registered := h.registered
  inFlightPending e he := by
    rcases List.mem_append.mp he with hold | hnew
    · exact h.markRequests.inFlightPending e hold
    · rw [List.mem_singleton.mp hnew]
      exact ⟨Nat.pos_of_ne_zero hlat, rfl⟩
  inFlightSpaced := by
    refine List.pairwise_append.mpr
      ⟨h.markRequests.inFlightSpaced, List.pairwise_singleton _ _, fun e he f hf => ?_⟩
    rw [List.mem_singleton.mp hf]
    exact h.spaced_new hage he
  busyBound := le_rfl
  busyCovers e _ := Nat.le_add_right s.cfg.ii e.age
  powerUpEmpty hwait := by simp [hrun] at hwait

/-- Executing an instruction keeps the invariant inside a cycle. -/
theorem exec {t : State} {i : Instr} (h : s.MidCycle) (hage : ∀ e ∈ s.pipe, 1 ≤ e.age)
    (hexec : exec i s = .next t) : t.MidCycle := by
  rw [exec_eq_accept] at hexec
  rcases accept_cases hexec with ⟨hcomb, _⟩ | ⟨_, _, rfl⟩ | ⟨_, _, _, _, _, rfl⟩ |
    ⟨_, _, _, _, _, rfl⟩ | ⟨_, hrun, hlat, rfl⟩
  · simp [h.registered] at hcomb
  · exact h.restartSpacing
  · exact h.restartSpacing.congr rfl rfl rfl rfl
  · exact h.markRequests.congr rfl rfl rfl rfl
  · exact h.enter hage hrun hlat

end State.MidCycle

/-! ## The edge -/

theorem spaced_older {c : Config} {e f : InFlight} (h : spaced c e f) : spaced c e.older f.older := by
  simp only [spaced, InFlight.older_age, InFlight.older_overlapped] at h ⊢
  exact ⟨by omega, fun hunmarked => by have := h.2 hunmarked; omega⟩

/-- After the edge nothing is in flight, or each request of the cycle, one cycle older. -/
theorem mem_clockEdge_pipe {s : State} {e : InFlight} (h : e ∈ (clockEdge s).pipe) :
    ∃ d ∈ s.pipe, d.older = e := by
  rw [clockEdge_pipe] at h
  split at h
  · cases h
  · exact List.mem_map.mp h

/-- The edge ends the cycle in the invariant between steps. -/
theorem State.MidCycle.clockEdge {s : State} (h : s.MidCycle) : (clockEdge s).Inv where
  cfgWf := h.cfgWf
  combinationalIdle hcomb := by simp [h.registered] at hcomb
  inFlightLawful e he := by
    obtain ⟨d, hd, rfl⟩ := mem_clockEdge_pipe he
    obtain ⟨hage, hresult⟩ := h.inFlightPending d hd
    exact ⟨Nat.le_add_left 1 d.age, hage, hresult⟩
  inFlightSpaced := by
    rw [clockEdge_pipe]
    split
    · exact .nil
    · exact h.inFlightSpaced.map _ fun _ _ => spaced_older
  busyBound := by
    have hii := Config.one_le_ii_of_wf h.cfgWf
    have hbusy := h.busyBound
    simp only [clockEdge_busy, clockEdge_cfg]
    omega
  busyCovers e he := by
    obtain ⟨d, hd, rfl⟩ := mem_clockEdge_pipe he
    have hcovers := h.busyCovers d hd
    simp only [clockEdge_busy, clockEdge_cfg, InFlight.older_age]
    omega
  powerUpEmpty hwait := by
    simp only [clockEdge_awaitingReset, Bool.and_eq_true] at hwait
    simp [h.powerUpEmpty hwait.1]

/-! ## Steps and moves of the requester -/

theorem State.Inv.drive {s : State} (h : s.Inv) (i : Inputs) : (s.drive i).Inv :=
  h.congr (by simp) (by simp) (by simp) (by simp) (by simp)

/-- A step keeps the invariant: in the combinational form it writes `y` alone; a registered cycle goes
through the invariant inside it, from its start over the accepted request to its edge. -/
theorem State.Inv.step {s u : State} (h : s.Inv) (hstep : step s = .next u) : u.Inv := by
  rcases step_cases hstep with ⟨hcomb, i, _, hexec⟩ | ⟨hreg, t, hbegin, hrest⟩
  · rw [exec_of_combinational i hcomb] at hexec
    cases hexec
    exact h.congr rfl rfl rfl rfl rfl
  · obtain ⟨hmid, hage⟩ := h.beginCycle hreg hbegin
    rcases hrest with ⟨_, rfl⟩ | ⟨_, i, v, _, hexec, rfl⟩
    · exact hmid.clockEdge
    · exact (hmid.exec hage hexec).clockEdge

/-- Settles O19: by the step lemma of the invariant, and since driving the ports writes nothing that it
reads. -/
theorem stepsKeepTheInvariant : Obligations.StepsKeepTheInvariant :=
  fun _ h => ⟨fun _ => h.step, h.drive⟩

end Sys2Proof.Machine
end

section
/-! No width of the exponent datapath of at least 14 bits wraps an exponent of the engines
(10_state.md R22, 40_components.md R61): the range of each exponent, operand by operand and step by
step, and from it that every engine gives one result at all such widths. -/

namespace Sys2Proof.Machine

open Sys2Proof

/-! ## The operands' exponents -/

theorem clz64_le (x : Word) : clz64 x ≤ 64 := by
  unfold clz64; split <;> omega

theorem expField_toNat_le (x : Word) : (expField x).toNat ≤ 2047 :=
  Nat.le_of_lt_succ (expField x).isLt

theorem normalize_exp_bounds (sig : BitVec 52) :
    -52 ≤ (normalize sig).1 ∧ (normalize sig).1 ≤ 1 := by
  have hclz := clz64_le (sig.setWidth 64)
  simp only [normalize, clz64_implBit]
  omega

theorem mulScale_bounds (x : Word) : -52 ≤ mulScale x ∧ mulScale x ≤ 1 := by
  unfold mulScale
  split
  · exact normalize_exp_bounds _
  · decide

theorem divScale_bounds (x : Word) : -52 ≤ divScale x ∧ divScale x ≤ 1 := by
  unfold divScale
  split
  · exact normalize_exp_bounds _
  · decide

section Widths

variable {w w' : Nat}

theorem expOfField_eq (hw : 14 ≤ w) (x : Word) : expOfField w x = (expField x).toNat := by
  have hfield := expField_toNat_le x
  exact expWrap_eq hw (by omega) (by omega)

/-- Two widths that both hold an exponent agree on it. -/
theorem expWrap_width (hw : 14 ≤ w) (hw' : 14 ≤ w') {e : Int} (hl : -8192 ≤ e) (hu : e < 8192) :
    expWrap w e = expWrap w' e := by
  rw [expWrap_eq hw hl hu, expWrap_eq hw' hl hu]

/-! ## ADD and SUB -/

theorem unpack_exp_bounds (hw : 14 ≤ w) (x : Word) :
    -52 ≤ (unpack w x).1 ∧ (unpack w x).1 ≤ 2047 := by
  have hfield := expField_toNat_le x
  have hnorm := normalize_exp_bounds (sigField x)
  unfold unpack
  split
  · simp only [expWrap_eq hw (e := (normalize (sigField x)).1) (by omega) (by omega)]
    omega
  · simp only [expOfField_eq hw]
    omega

theorem unpack_width (hw : 14 ≤ w) (hw' : 14 ≤ w') (x : Word) : unpack w x = unpack w' x := by
  have hnorm := normalize_exp_bounds (sigField x)
  simp only [unpack, expOfField_eq hw, expOfField_eq hw',
    expWrap_width hw hw' (e := (normalize (sigField x)).1) (by omega) (by omega)]

theorem widenedLarger_width (hw : 14 ≤ w) (hw' : 14 ≤ w') (a : Word) :
    widenedLarger w a = widenedLarger w' a := by
  rw [widenedLarger, widenedLarger, unpack_width hw hw']

theorem alignedSmaller_width (hw : 14 ≤ w) (hw' : 14 ≤ w') (a b : Word) :
    alignedSmaller w a b = alignedSmaller w' a b := by
  have ha := unpack_exp_bounds hw' a
  have hb := unpack_exp_bounds hw' b
  simp only [alignedSmaller, unpack_width hw hw']
  rw [expWrap_width hw hw' (by omega) (by omega)]

theorem subCombine_width (hw : 14 ≤ w) (hw' : 14 ≤ w') {e : Int} (hl : -52 ≤ e) (hu : e ≤ 2047)
    (x y : Word) : subCombine w e x y = subCombine w' e x y := by
  have hclz := clz64_le (x - y)
  simp only [subCombine]
  rw [expWrap_width hw hw' (by omega) (by omega)]

theorem addCombine_width (hw : 14 ≤ w) (hw' : 14 ≤ w') {e : Int} (hl : -52 ≤ e) (hu : e ≤ 2047)
    (x y : Word) : addCombine w e x y = addCombine w' e x y := by
  simp only [addCombine]
  rw [expWrap_width hw hw' (by omega) (by omega)]

theorem subCombine_exp_bounds (hw : 14 ≤ w) {e : Int} (hl : -52 ≤ e) (hu : e ≤ 2047) (x y : Word) :
    -116 ≤ (subCombine w e x y).1 ∧ (subCombine w e x y).1 ≤ 2048 := by
  have hclz := clz64_le (x - y)
  simp only [subCombine]
  rw [expWrap_eq hw (by omega) (by omega)]
  split <;> dsimp only <;> omega

theorem addCombine_exp_bounds (hw : 14 ≤ w) {e : Int} (hl : -52 ≤ e) (hu : e ≤ 2047) (x y : Word) :
    -116 ≤ (addCombine w e x y).1 ∧ (addCombine w e x y).1 ≤ 2048 := by
  simp only [addCombine]
  rw [expWrap_eq hw (by omega) (by omega)]
  split <;> dsimp only <;> omega

theorem addCombined_width (hw : 14 ≤ w) (hw' : 14 ≤ w') (a b : Word) :
    addCombined w a b = addCombined w' a b := by
  obtain ⟨hl, hu⟩ := unpack_exp_bounds hw' a
  simp only [addCombined, unpack_width hw hw', widenedLarger_width hw hw', alignedSmaller_width hw hw',
    subCombine_width hw hw' hl hu, addCombine_width hw hw' hl hu]

theorem addCombined_exp_bounds (hw : 14 ≤ w) (a b : Word) :
    -116 ≤ (addCombined w a b).1 ∧ (addCombined w a b).1 ≤ 2048 := by
  obtain ⟨hl, hu⟩ := unpack_exp_bounds hw a
  unfold addCombined
  split
  · exact subCombine_exp_bounds hw hl hu _ _
  · exact addCombine_exp_bounds hw hl hu _ _

theorem addFinish_width (hw : 14 ≤ w) (hw' : 14 ≤ w') {e : Int} (hl : -116 ≤ e) (hu : e ≤ 2048)
    (sign sig : Word) : addFinish w sign e sig = addFinish w' sign e sig := by
  simp only [addFinish, underflowShift]
  rw [expWrap_width hw hw' (by omega) (by omega)]

theorem addOrdered_width (hw : 14 ≤ w) (hw' : 14 ≤ w') (a b : Word) :
    addOrdered w a b = addOrdered w' a b := by
  obtain ⟨hl, hu⟩ := addCombined_exp_bounds hw' a b
  rw [addOrdered, addOrdered, widenedLarger_width hw hw', alignedSmaller_width hw hw',
    addCombined_width hw hw', addFinish_width hw hw' hl hu]

theorem addEngine_width (hw : 14 ≤ w) (hw' : 14 ≤ w') (sign : NaNSign) (a b : Word) :
    addEngine sign w a b = addEngine sign w' a b := by
  simp only [addEngine, addOrdered_width hw hw']

/-! ## MUL -/

theorem productExp_eq (hw : 14 ≤ w) (a b : Word) {scale : Int} (hl : -104 ≤ scale)
    (hu : scale ≤ 2) :
    productExp w a b scale = (expField a).toNat + (expField b).toNat + scale - 1023 := by
  have ha := expField_toNat_le a
  have hb := expField_toNat_le b
  rw [productExp, expOfField_eq hw, expOfField_eq hw, expWrap_eq hw (by omega) (by omega)]

theorem mulAlign_width (hw : 14 ≤ w) (hw' : 14 ≤ w') {e : Int} (hl : -1127 ≤ e) (hu : e ≤ 3073)
    (hi lo : Word) : mulAlign w e hi lo = mulAlign w' e hi lo := by
  simp only [mulAlign]
  rw [expWrap_width hw hw' (by omega) (by omega)]

theorem mulAlign_exp_bounds (hw : 14 ≤ w) {e : Int} (hl : -1127 ≤ e) (hu : e ≤ 3073)
    (hi lo : Word) : -1127 ≤ (mulAlign w e hi lo).1 ∧ (mulAlign w e hi lo).1 ≤ 3074 := by
  simp only [mulAlign]
  rw [expWrap_eq hw (by omega) (by omega)]
  split <;> dsimp only <;> omega

theorem mulFinish_width (hw : 14 ≤ w) (hw' : 14 ≤ w') {e : Int} (hl : -1127 ≤ e) (hu : e ≤ 3074)
    (sign hi lo : Word) : mulFinish w sign e hi lo = mulFinish w' sign e hi lo := by
  simp only [mulFinish]
  rw [expWrap_width hw hw' (by omega) (by omega)]

theorem mulGeneric_width (hw : 14 ≤ w) (hw' : 14 ≤ w') (a b aSig bSig : Word) {scale : Int}
    (hl : -104 ≤ scale) (hu : scale ≤ 2) :
    mulGeneric w a b aSig bSig scale = mulGeneric w' a b aSig bSig scale := by
  have ha := expField_toNat_le a
  have hb := expField_toNat_le b
  have hexp := productExp_eq hw' a b hl hu
  have hsame : productExp w a b scale = productExp w' a b scale := by
    rw [productExp_eq hw a b hl hu, hexp]
  have halign := mulAlign_width hw hw' (e := productExp w' a b scale) (by omega) (by omega)
  obtain ⟨hl', hu'⟩ := mulAlign_exp_bounds hw' (e := productExp w' a b scale) (by omega) (by omega)
    (mulProduct aSig bSig).1 (mulProduct aSig bSig).2
  simp only [mulGeneric, hsame, halign, mulFinish_width hw hw' hl' hu']

theorem mulEngine_width (hw : 14 ≤ w) (hw' : 14 ≤ w') (sign : NaNSign) (a b : Word) :
    mulEngine sign w a b = mulEngine sign w' a b := by
  have ha := mulScale_bounds a
  have hb := mulScale_bounds b
  have hscale : ∀ v, 14 ≤ v → expWrap v (mulScale a + mulScale b) = mulScale a + mulScale b :=
    fun v hv => expWrap_eq hv (by omega) (by omega)
  simp only [mulEngine, hscale w hw, hscale w' hw']
  rw [mulGeneric_width hw hw' a b _ _ (scale := mulScale a + mulScale b) (by omega) (by omega),
    mulGeneric_width hw hw' a b _ _ (scale := 0) (by decide) (by decide)]

/-! ## DIV -/

theorem quotientExp_eq (hw : 14 ≤ w) (a b : Word) :
    quotientExp w a b =
      (expField a).toNat - (expField b).toNat + (divScale a - divScale b) + 1023 := by
  have ha := expField_toNat_le a
  have hb := expField_toNat_le b
  have hsa := divScale_bounds a
  have hsb := divScale_bounds b
  rw [quotientExp, expOfField_eq hw, expOfField_eq hw,
    expWrap_eq hw (e := divScale a - divScale b) (by omega) (by omega),
    expWrap_eq hw (by omega) (by omega)]

theorem quotientExp_bounds (hw : 14 ≤ w) (a b : Word) :
    -1077 ≤ quotientExp w a b ∧ quotientExp w a b ≤ 3123 := by
  have ha := expField_toNat_le a
  have hb := expField_toNat_le b
  have hsa := divScale_bounds a
  have hsb := divScale_bounds b
  have hexp := quotientExp_eq hw a b
  omega

theorem divAlign_width (hw : 14 ≤ w) (hw' : 14 ≤ w') {e : Int} (hl : -1077 ≤ e) (hu : e ≤ 3123)
    (sigA sigB : Nat) : divAlign w e sigA sigB = divAlign w' e sigA sigB := by
  simp only [divAlign]
  rw [expWrap_width hw hw' (by omega) (by omega)]

theorem divAlign_exp_bounds (hw : 14 ≤ w) {e : Int} (hl : -1077 ≤ e) (hu : e ≤ 3123)
    (sigA sigB : Nat) : -1078 ≤ (divAlign w e sigA sigB).1 ∧ (divAlign w e sigA sigB).1 ≤ 3123 := by
  simp only [divAlign]
  rw [expWrap_eq hw (by omega) (by omega)]
  split <;> dsimp only <;> omega

theorem divFinish_width (hw : 14 ≤ w) (hw' : 14 ≤ w') {e : Int} (hl : -1078 ≤ e) (hu : e ≤ 3123)
    (sign : Word) (sigA sigB : Nat) : divFinish w sign e sigA sigB = divFinish w' sign e sigA sigB := by
  have hshift : quotientShift w e = quotientShift w' e := by
    rw [quotientShift, quotientShift, expWrap_width hw hw' (by omega) (by omega)]
  simp only [divFinish, hshift]

theorem divGeneric_width (hw : 14 ≤ w) (hw' : 14 ≤ w') (a b : Word) :
    divGeneric w a b = divGeneric w' a b := by
  have hsame : quotientExp w a b = quotientExp w' a b := by
    rw [quotientExp_eq hw, quotientExp_eq hw']
  obtain ⟨hl, hu⟩ := quotientExp_bounds hw' a b
  obtain ⟨hl', hu'⟩ := divAlign_exp_bounds hw' hl hu (divSig a) (divSig b)
  simp only [divGeneric, hsame, divAlign_width hw hw' hl hu, divFinish_width hw hw' hl' hu']

theorem divEngine_width (hw : 14 ≤ w) (hw' : 14 ≤ w') (sign : NaNSign) (a b : Word) :
    divEngine sign w a b = divEngine sign w' a b := by
  simp only [divEngine, divGeneric_width hw hw']

end Widths

/-- Settles O57, by the engine of each operation; NEG has no exponent datapath. -/
theorem exponentWidthNeverMatters : Obligations.ExponentWidthNeverMatters := by
  intro c w i hc hw
  cases i with
  | add a b => exact addEngine_width hw hc c.nanSignAdd a b
  | sub a b => exact addEngine_width hw hc c.nanSignAdd a (negate b)
  | mul a b => exact mulEngine_width hw hc c.nanSignMul a b
  | div a b => exact divEngine_width hw hc c.nanSignDiv a b
  | neg a b => rfl

end Sys2Proof.Machine
end

section
/-! A host stores each byte of a pattern at its place and presents the same pattern again (20_memory.md
R27, R28). The key fact is about one bit: it comes back as soon as the order names the byte it stands in. -/

namespace Sys2Proof.Machine

open Sys2Proof

theorem byteOrderWf_iff {order : List (Fin 8)} :
    byteOrderWf order = true ↔ order.length = 8 ∧ order.Nodup := by
  simp [byteOrderWf]

@[simp] theorem patternToBytes_nil (x : Word) : patternToBytes [] x = [] := rfl

@[simp] theorem patternToBytes_cons (k : Fin 8) (ks : List (Fin 8)) (x : Word) :
    patternToBytes (k :: ks) x = patternByte x k :: patternToBytes ks x := rfl

@[simp] theorem length_patternToBytes (order : List (Fin 8)) (x : Word) :
    (patternToBytes order x).length = order.length := by
  induction order with
  | nil => rfl
  | cons k ks ih => simp [ih]

@[simp] theorem toBits_fromBits (u : Word) : toBits (fromBits u) = u := rfl

/-- An order of the 8 bytes of a pattern names every byte. -/
theorem mem_of_byteOrderWf {order : List (Fin 8)} (h : byteOrderWf order = true) (k : Fin 8) :
    k ∈ order := by
  obtain ⟨hlen, hnodup⟩ := byteOrderWf_iff.mp h
  have hcard : order.toFinset.card = Fintype.card (Fin 8) := by
    rw [List.toFinset_card_of_nodup hnodup, hlen, Fintype.card_fin]
  have huniv := (Finset.card_eq_iff_eq_univ _).mp hcard
  exact List.mem_toFinset.mp (huniv ▸ Finset.mem_univ k)

/-- A byte of a pattern, moved back to its place, holds the bits of the pattern that stand there. -/
theorem getLsbD_patternByte_shiftLeft (x : Word) (k i : Nat) (hi : i < 64) :
    ((patternByte x k).setWidth 64 <<< (8 * k)).getLsbD i = (decide (i / 8 = k) && x.getLsbD i) := by
  simp only [patternByte, BitVec.getLsbD_shiftLeft, BitVec.getLsbD_setWidth, BitVec.getLsbD_extractLsb']
  by_cases hk : i / 8 = k
  · have hplace : 8 * k + (i - 8 * k) = i := by omega
    have hlow : ¬ i < 8 * k := by omega
    have hbyte : i - 8 * k < 8 := by omega
    have hword : i - 8 * k < 64 := by omega
    simp [hk, hi, hplace, hlow, hbyte, hword]
  · have hout : i < 8 * k ∨ ¬ i - 8 * k < 8 := by omega
    rcases hout with hlow | hbyte
    · simp [hk, hlow]
    · simp [hk, hbyte]

/-- Reading the stored bytes back gives a bit of the pattern exactly when the order names its byte. -/
theorem getLsbD_patternOfBytes_patternToBytes (order : List (Fin 8)) (x : Word) {i : Nat}
    (hi : i < 64) :
    (patternOfBytes order (patternToBytes order x)).getLsbD i =
      (decide (⟨i / 8, by omega⟩ ∈ order) && x.getLsbD i) := by
  induction order with
  | nil => simp [patternOfBytes]
  | cons k ks ih =>
    rw [patternToBytes_cons, patternOfBytes, BitVec.getLsbD_or, getLsbD_patternByte_shiftLeft x k i hi, ih,
      ← Bool.and_or_distrib_right]
    simp [Fin.ext_iff]

theorem patternOfBytes_patternToBytes {order : List (Fin 8)} (h : byteOrderWf order = true) (x : Word) :
    patternOfBytes order (patternToBytes order x) = x := by
  apply BitVec.eq_of_getLsbD_eq
  intro i hi
  simp [getLsbD_patternOfBytes_patternToBytes order x hi, mem_of_byteOrderWf h]

/-- Settles O60: a well-formed order names the byte of every bit, so every bit comes back. -/
theorem hostBytesRoundTrip : Obligations.HostBytesRoundTrip := by
  intro order x hwf
  obtain ⟨hlen, -⟩ := byteOrderWf_iff.mp hwf
  exact ⟨(length_patternToBytes order x).trans hlen, patternOfBytes_patternToBytes hwf x, toBits_fromBits x⟩

end Sys2Proof.Machine
end

section
/-! Requests and instructions (30_encoding.md R39 to R43): a request is the encoding of an instruction
exactly when its op code is defined, decoding undoes encoding, and the packed number of a request holds
all of it (log entry 15). From it: a reserved op code gets no meaning in either form. -/

namespace Sys2Proof

/-! ## Defined and reserved op codes -/

theorem Request.wf_iff {r : Request} :
    r.wf = true ↔
      r.op = 0b000#3 ∨ r.op = 0b001#3 ∨ r.op = 0b010#3 ∨ r.op = 0b011#3 ∨ r.op = 0b100#3 := by
  unfold Request.wf
  generalize r.op = op
  revert op
  decide

theorem Request.wf_eq_false_iff {r : Request} :
    r.wf = false ↔ r.op = 0b101#3 ∨ r.op = 0b110#3 ∨ r.op = 0b111#3 := by
  unfold Request.wf
  generalize r.op = op
  revert op
  decide

theorem decode_of_reserved {r : Request} (h : r.wf = false) :
    decode r = .error (.reservedOp r.op) := by
  rcases Request.wf_eq_false_iff.mp h with hop | hop | hop <;> simp [decode, hop]

/-! ## Encoding and decoding -/

@[simp] theorem decode_encode (i : Instr) : decode (encode i) = .ok i := by
  cases i <;> rfl

theorem encode_injective : Function.Injective encode := by
  intro i j h
  have hok : Except.ok (ε := DecodeError) i = .ok j := by rw [← decode_encode i, h, decode_encode]
  exact Except.ok.inj hok

theorem exists_encode_of_wf {r : Request} (h : r.wf = true) : ∃ i, encode i = r := by
  obtain ⟨op, a, b⟩ := r
  rcases Request.wf_iff.mp h with rfl | rfl | rfl | rfl | rfl
  · exact ⟨.add a b, rfl⟩
  · exact ⟨.sub a b, rfl⟩
  · exact ⟨.mul a b, rfl⟩
  · exact ⟨.div a b, rfl⟩
  · exact ⟨.neg a b, rfl⟩

/-! ## The packed number of a request -/

theorem Request.toBits_lt (r : Request) : r.toBits < 2 ^ 131 := by
  have hop := r.op.isLt
  have ha := r.a.isLt
  have hb := r.b.isLt
  unfold Request.toBits
  omega

@[simp] theorem Request.ofBits_toBits (r : Request) : Request.ofBits r.toBits = r := by
  obtain ⟨op, a, b⟩ := r
  have hop := op.isLt
  have ha := a.isLt
  simp only [Request.ofBits, Request.toBits, Request.mk.injEq]
  refine ⟨BitVec.eq_of_toNat_eq ?_, BitVec.eq_of_toNat_eq ?_, BitVec.eq_of_toNat_eq ?_⟩ <;>
    rw [BitVec.toNat_ofNat] <;> omega

/-- From its 131 bits or more, the packed number of a request decodes as the request does. -/
theorem decodeTableWord_toBits {nbits : Nat} (h : 131 ≤ nbits) (r : Request) :
    decodeTableWord nbits r.toBits = (decode r).toOption := by
  have hfits : r.toBits < 2 ^ nbits :=
    r.toBits_lt.trans_le (Nat.pow_le_pow_right Nat.two_pos h)
  rw [decodeTableWord, Nat.mod_eq_of_lt hfits, Request.ofBits_toBits]

/-- Settles O2: unpacking gives the encoded request back, and decoding undoes encoding. -/
theorem encodedInstructionsDecodeFromThePackedWord :
    Obligations.EncodedInstructionsDecodeFromThePackedWord := by
  intro i nbits h
  refine ⟨decode_encode i, ?_⟩
  rw [decodeTableWord_toBits h, decode_encode]
  rfl

/-- Settles O3: a defined op code makes the request the encoding of an instruction, and encoding is
injective. -/
theorem decodingIsOneToOneOnDefinedOpCodes : Obligations.DecodingIsOneToOneOnDefinedOpCodes := by
  intro r
  refine ⟨fun hwf => ?_, decode_of_reserved⟩
  obtain ⟨i, rfl⟩ := exists_encode_of_wf hwf
  exact ⟨i, decode_encode i, rfl, fun j hj => encode_injective hj⟩

/-- Settles O1: each row of the table is the encoding of its instruction, or has a reserved op code. -/
theorem opCodesSelectTheirOperations : Obligations.OpCodesSelectTheirOperations := by
  intro a b
  exact ⟨decode_encode (.add a b), decode_encode (.sub a b), decode_encode (.mul a b),
    decode_encode (.div a b), decode_encode (.neg a b),
    decode_of_reserved rfl, decode_of_reserved rfl, decode_of_reserved rfl⟩

end Sys2Proof

namespace Sys2Proof.Machine

open Sys2Proof

/-! ## Reserved op codes on the ports -/

theorem issue_of_reserved {s : State} (h : (requestOn s).wf = false) :
    issue s = .refused (.reservedOp s.op) := by
  rw [issue, decode_of_reserved h]
  rfl

/-- A registered cycle in which no two results fall together begins. -/
theorem exists_beginCycle_of_noCollision {s : State} (h : noCollision s) :
    ∃ t, beginCycle s = .next t := by
  cases hbegin : beginCycle s with
  | next t => exact ⟨t, rfl⟩
  | fault f => cases f
  | refused e =>
    obtain ⟨_, hwait, htwo⟩ := beginCycle_refused hbegin
    rcases h with hpowerUp | ⟨hone, _⟩
    · simp [hwait] at hpowerUp
    · exact absurd hone (Nat.not_le.mpr htwo)

/-- The start of a registered cycle leaves the request on the ports, so issuing refuses it still. -/
theorem step_registered_of_reserved {s : State} (hreserved : (requestOn s).wf = false)
    (hreg : isCombinational s.cfg = false) (hpresent : requestPresent s = true)
    (hfree : noCollision s) : step s = .refused (.reservedOp s.op) := by
  obtain ⟨t, hbegin⟩ := exists_beginCycle_of_noCollision hfree
  obtain ⟨_, hreq, _⟩ := beginCycle_frame hbegin
  have hop : t.op = s.op := congrArg Request.op hreq
  have hissue : issue t = .refused (.reservedOp t.op) := issue_of_reserved (hreq ▸ hreserved)
  simp [step_of_registered hreg, hbegin, beginCycle_requestPresent hbegin, hpresent, hissue, hop]

/-- Settles O4: issuing refuses the request by its op code, and both forms issue it. -/
theorem reservedOpCodesAreRefused : Obligations.ReservedOpCodesAreRefused := by
  intro s hop
  have hreserved : (requestOn s).wf = false := Request.wf_eq_false_iff.mpr hop
  have hissue := issue_of_reserved hreserved
  exact ⟨hissue, fun hcomb => (step_of_combinational hcomb).trans hissue,
    step_registered_of_reserved hreserved⟩

end Sys2Proof.Machine
end

section
/-! The codec (40_components.md R46 to R48): the number a pattern is, put together from its fields. -/

namespace Sys2Proof.Machine

open Sys2Proof

/-- Two numbers side by side in a word: the upper one loses nothing, the lower one stays below it. -/
theorem shiftLeft_or_toNat {x y : Word} {n : ℕ} (hx : x.toNat * 2 ^ n < 2 ^ 64)
    (hy : y.toNat < 2 ^ n) : (x <<< n ||| y).toNat = x.toNat * 2 ^ n + y.toNat := by
  rw [BitVec.toNat_or, BitVec.toNat_shiftLeft, Nat.shiftLeft_eq, Nat.mod_eq_of_lt hx,
    ← Nat.shiftLeft_eq, Nat.shiftLeft_add_eq_or_of_lt hy]

theorem signWord_or_toNat (s : BitVec 1) {y : Word} (hy : y.toNat < 2 ^ 63) :
    (signWord s ||| y).toNat = s.toNat * 2 ^ 63 + y.toNat := by
  have hs := s.isLt
  have hset : (s.setWidth 64).toNat = s.toNat := BitVec.toNat_setWidth_of_le (by decide)
  rw [signWord, shiftLeft_or_toNat (by omega) hy, hset]

theorem recompose_toNat (s : BitVec 1) (e : BitVec 11) (f : BitVec 52) :
    (recompose s e f).toNat = s.toNat * 2 ^ 63 + e.toNat * 2 ^ 52 + f.toNat := by
  have he := e.isLt
  have hf := f.isLt
  have hexp : (e.setWidth 64).toNat = e.toNat := BitVec.toNat_setWidth_of_le (by decide)
  have hsig : (f.setWidth 64).toNat = f.toNat := BitVec.toNat_setWidth_of_le (by decide)
  have hlow := shiftLeft_or_toNat (x := e.setWidth 64) (y := f.setWidth 64) (n := 52)
    (by omega) (by omega)
  have hword : recompose s e f = signWord s ||| (e.setWidth 64 <<< 52 ||| f.setWidth 64) :=
    BitVec.or_assoc _ _ _
  rw [hword, signWord_or_toNat s (by omega), hlow]
  omega

theorem recompose_fields (x : Word) : recompose (signField x) (expField x) (sigField x) = x :=
  BitVec.eq_of_toNat_eq ((recompose_toNat _ _ _).trans (toNat_eq_fields x).symm)

/-- Settles O22: on numbers both directions are division with remainder. -/
theorem codecIsABijection : Obligations.CodecIsABijection := by
  refine ⟨recompose_fields, fun s e f => ?_⟩
  have hs := s.isLt
  have he := e.isLt
  have hf := f.isLt
  have hnum := recompose_toNat s e f
  simp only [decompose, Prod.mk.injEq]
  refine ⟨?_, ?_, ?_⟩ <;> apply BitVec.eq_of_toNat_eq
  · rw [signField_toNat]; omega
  · rw [expField_toNat]; omega
  · rw [sigField_toNat]; omega

/-- Settles O23: legal fields hold their numbers, and the port's check is the legality. -/
theorem recomposePlacesItsFields : Obligations.RecomposePlacesItsFields := by
  intro s e f
  refine ⟨fun hs he hf => ⟨_, if_pos ⟨hs, he, hf⟩, ?_⟩, fun hwide => if_neg (by omega)⟩
  rw [recompose_toNat]
  simp only [BitVec.toNat_ofNat]
  omega

end Sys2Proof.Machine
end

section
/-! The classes of patterns (40_components.md R49 to R52) on the numbers in the fields and on the absolute
bits, and what the NaN results keep of a NaN (R60). -/

namespace Sys2Proof.Machine

open Sys2Proof

/-! ## The classifier -/

theorem expField_eq_iff {x : Word} {e : BitVec 11} :
    expField x = e ↔ x.toNat / 2 ^ 52 % 2 ^ 11 = e.toNat := by
  rw [BitVec.toNat_eq, expField_toNat]

theorem sigField_eq_zero_iff {x : Word} : sigField x = 0#52 ↔ x.toNat % 2 ^ 52 = 0 := by
  rw [BitVec.toNat_eq, sigField_toNat]
  rfl

theorem sigField_quietBit_iff {x : Word} :
    (sigField x).getLsbD 51 = true ↔ 2 ^ 51 ≤ x.toNat % 2 ^ 52 := by
  have hmsb : (sigField x).getLsbD 51 = (sigField x).msb := rfl
  rw [hmsb, BitVec.msb_eq_decide, decide_eq_true_eq, sigField_toNat]

section Classes

variable {x : Word}

theorem classify_isZero_iff :
    (classify x).isZero = true ↔ x.toNat / 2 ^ 52 % 2 ^ 11 = 0 ∧ x.toNat % 2 ^ 52 = 0 := by
  simp only [classify, Bool.and_eq_true, decide_eq_true_eq, expField_eq_iff, sigField_eq_zero_iff]
  rfl

theorem classify_isSubnormal_iff :
    (classify x).isSubnormal = true ↔ x.toNat / 2 ^ 52 % 2 ^ 11 = 0 ∧ x.toNat % 2 ^ 52 ≠ 0 := by
  simp only [classify, Bool.and_eq_true, decide_eq_true_eq, ne_eq, expField_eq_iff,
    sigField_eq_zero_iff]
  rfl

theorem classify_isNormal_iff :
    (classify x).isNormal = true ↔
      x.toNat / 2 ^ 52 % 2 ^ 11 ≠ 0 ∧ x.toNat / 2 ^ 52 % 2 ^ 11 ≠ 2047 := by
  simp only [classify, Bool.and_eq_true, decide_eq_true_eq, ne_eq, expField_eq_iff]
  rfl

theorem classify_isInf_iff :
    (classify x).isInf = true ↔ x.toNat / 2 ^ 52 % 2 ^ 11 = 2047 ∧ x.toNat % 2 ^ 52 = 0 := by
  simp only [classify, Bool.and_eq_true, decide_eq_true_eq, expField_eq_iff, sigField_eq_zero_iff]
  rfl

theorem classify_isNaN_iff :
    (classify x).isNaN = true ↔ x.toNat / 2 ^ 52 % 2 ^ 11 = 2047 ∧ x.toNat % 2 ^ 52 ≠ 0 := by
  simp only [classify, Bool.and_eq_true, decide_eq_true_eq, ne_eq, expField_eq_iff,
    sigField_eq_zero_iff]
  rfl

theorem classify_isQuiet_iff :
    (classify x).isQuiet = true ↔
      (classify x).isNaN = true ∧ 2 ^ 51 ≤ x.toNat % 2 ^ 52 := by
  rw [← sigField_quietBit_iff, ← Bool.and_eq_true]
  rfl

end Classes

/-- The classes, from the first to the last, leave no case and share none. -/
theorem classify_count (x : Word) :
    [(classify x).isZero, (classify x).isSubnormal, (classify x).isNormal, (classify x).isInf,
      (classify x).isNaN].count true = 1 := by
  simp only [classify]
  by_cases hzero : expField x = 0#11
  · by_cases hsig : sigField x = 0#52 <;> simp [hzero, hsig]
  · by_cases htop : expField x = 2047#11
    · by_cases hsig : sigField x = 0#52 <;> simp [htop, hsig]
    · simp [hzero, htop]

theorem expField_xor_signMask (x : Word) : expField (x ^^^ signMask) = expField x := by
  have hmask : signMask.extractLsb' 52 11 = 0#11 := by decide
  rw [expField, BitVec.extractLsb'_xor, hmask, BitVec.xor_zero, expField]

theorem sigField_xor_signMask (x : Word) : sigField (x ^^^ signMask) = sigField x := by
  have hmask : signMask.extractLsb' 0 52 = 0#52 := by decide
  rw [sigField, BitVec.extractLsb'_xor, hmask, BitVec.xor_zero, sigField]

/-- The sign does not change the class. -/
theorem classify_xor_signMask (x : Word) : classify (x ^^^ signMask) = classify x := by
  simp only [classify, expField_xor_signMask, sigField_xor_signMask]

/-- Settles O24, class by class. -/
theorem classifierSetsExactlyOneClass : Obligations.ClassifierSetsExactlyOneClass := fun x =>
  ⟨classify_isZero_iff, classify_isSubnormal_iff, classify_isNormal_iff, classify_isInf_iff,
    classify_isNaN_iff, classify_isQuiet_iff, classify_count x, classify_xor_signMask x⟩

/-! ## The tests on the absolute bits -/

theorem infPattern_toNat : infPattern.toNat = 2047 * 2 ^ 52 := by decide

section AbsoluteBits

variable {x : Word}

theorem isNaN_iff : isNaN x = true ↔ 2047 * 2 ^ 52 < x.toNat % 2 ^ 63 := by
  rw [isNaN, decide_eq_true_eq, gt_iff_lt, BitVec.lt_def, and_absMask_toNat, infPattern_toNat]

theorem isInf_iff : isInf x = true ↔ x.toNat % 2 ^ 63 = 2047 * 2 ^ 52 := by
  rw [isInf, decide_eq_true_eq, BitVec.toNat_eq, and_absMask_toNat, infPattern_toNat]

theorem isZero_iff : isZero x = true ↔ x.toNat % 2 ^ 63 = 0 := by
  rw [isZero, decide_eq_true_eq, BitVec.toNat_eq, and_absMask_toNat]
  rfl

/-- The test of R50: subtracting 1 makes zero wrap around to the top. -/
theorem special_iff :
    special x = true ↔ x.toNat % 2 ^ 63 = 0 ∨ 2047 * 2 ^ 52 ≤ x.toNat % 2 ^ 63 := by
  have hinf : (infPattern - 1#64).toNat = 2047 * 2 ^ 52 - 1 := by decide
  rw [special, decide_eq_true_eq, ge_iff_le, BitVec.le_def, hinf, BitVec.toNat_sub,
    and_absMask_toNat]
  simp only [BitVec.toNat_ofNat]
  omega

theorem isNaN_eq_classify : isNaN x = (classify x).isNaN := by
  rw [Bool.eq_iff_iff, isNaN_iff, classify_isNaN_iff]
  omega

theorem isInf_eq_classify : isInf x = (classify x).isInf := by
  rw [Bool.eq_iff_iff, isInf_iff, classify_isInf_iff]
  omega

theorem isZero_eq_classify : isZero x = (classify x).isZero := by
  rw [Bool.eq_iff_iff, isZero_iff, classify_isZero_iff]
  omega

theorem special_eq_classify :
    special x = ((classify x).isZero || (classify x).isInf || (classify x).isNaN) := by
  rw [Bool.eq_iff_iff, Bool.or_eq_true, Bool.or_eq_true, special_iff, classify_isZero_iff,
    classify_isInf_iff, classify_isNaN_iff]
  omega

theorem specialOrSubnormal_eq_classify : specialOrSubnormal x = !(classify x).isNormal := by
  simp [specialOrSubnormal, classify]

theorem isFinite_iff : isFinite x = true ↔ x.toNat % 2 ^ 63 < 2047 * 2 ^ 52 := by
  have hfield : (2047#11).toNat = 2047 := rfl
  rw [isFinite, decide_eq_true_eq, ne_eq, expField_eq_iff, hfield]
  omega

end AbsoluteBits

/-- Settles O25: each test says of the absolute bits what the class says of the fields. -/
theorem absoluteValueTestsAgreeWithTheClassifier :
    Obligations.AbsoluteValueTestsAgreeWithTheClassifier := fun _ =>
  ⟨special_eq_classify, isNaN_eq_classify, isInf_eq_classify, isZero_eq_classify,
    specialOrSubnormal_eq_classify, special_iff⟩

/-! ## NaN results -/

/-- A field keeps its bits where another word is or-ed in that is zero there. -/
theorem extractLsb'_or_eq_left {x m : Word} {start len : ℕ} (h : m.extractLsb' start len = 0#len) :
    (x ||| m).extractLsb' start len = x.extractLsb' start len := by
  rw [BitVec.extractLsb'_or, h, BitVec.or_zero]

/-- A field keeps its bits under a mask that is all ones there. -/
theorem extractLsb'_and_eq_left {x m : Word} {start len : ℕ}
    (h : m.extractLsb' start len = BitVec.allOnes len) :
    (x &&& m).extractLsb' start len = x.extractLsb' start len := by
  rw [BitVec.extractLsb'_and, h, BitVec.and_allOnes]

theorem expField_nanResult (p : NaNSign) (x : Word) : expField (nanResult p x) = expField x := by
  have hquiet : expField (x ||| quietBit) = expField x := extractLsb'_or_eq_left (by decide)
  cases p with
  | preserve => exact hquiet
  | clear => exact (extractLsb'_and_eq_left (by decide)).trans hquiet

theorem payload_nanResult (p : NaNSign) (x : Word) :
    (nanResult p x).extractLsb' 0 51 = x.extractLsb' 0 51 := by
  have hquiet : (x ||| quietBit).extractLsb' 0 51 = x.extractLsb' 0 51 :=
    extractLsb'_or_eq_left (by decide)
  cases p with
  | preserve => exact hquiet
  | clear => exact (extractLsb'_and_eq_left (by decide)).trans hquiet

theorem getLsbD_51_nanResult (p : NaNSign) (x : Word) : (nanResult p x).getLsbD 51 = true := by
  have hquiet : (x ||| quietBit).getLsbD 51 = true := by
    have hbit : quietBit.getLsbD 51 = true := rfl
    rw [BitVec.getLsbD_or, hbit, Bool.or_true]
  cases p with
  | preserve => exact hquiet
  | clear =>
    have hmask : absMask.getLsbD 51 = true := rfl
    rw [nanResult, BitVec.getLsbD_and, hquiet, hmask, Bool.and_true]

theorem signField_nanResult_preserve (x : Word) : signField (nanResult .preserve x) = signField x :=
  extractLsb'_or_eq_left (by decide)

theorem signField_nanResult_clear (x : Word) : signField (nanResult .clear x) = 0#1 := by
  have hmask : absMask.extractLsb' 63 1 = 0#1 := by decide
  rw [signField, nanResult, BitVec.extractLsb'_and, hmask, BitVec.and_zero]

/-- A quiet NaN, in its exponent field and the one bit. -/
theorem classify_isQuiet_iff_bit {x : Word} :
    (classify x).isQuiet = true ↔ expField x = 2047#11 ∧ x.getLsbD 51 = true := by
  have hbit : (sigField x).getLsbD 51 = x.getLsbD 51 := by simp [sigField]
  have hsig : x.getLsbD 51 = true → sigField x ≠ 0#52 := by
    rintro h hzero
    rw [← hbit, hzero, BitVec.getLsbD_zero] at h
    exact Bool.false_ne_true h
  simp only [classify, Bool.and_eq_true, decide_eq_true_eq, hbit]
  exact ⟨fun ⟨⟨hexp, _⟩, h⟩ => ⟨hexp, h⟩, fun ⟨hexp, h⟩ => ⟨⟨hexp, hsig h⟩, h⟩⟩

theorem or_quietBit_eq_self {x : Word} (h : x.getLsbD 51 = true) : x ||| quietBit = x := by
  have hquiet : quietBit = BitVec.twoPow 64 51 := by decide
  apply BitVec.eq_of_getLsbD_eq
  intro i hi
  rw [BitVec.getLsbD_or, hquiet, BitVec.getLsbD_twoPow]
  by_cases hbit : 51 = i
  · simp [← hbit, h]
  · simp [hbit]

/-- Settles O33, field by field. -/
theorem naNResultsAreQuietAndKeepThePayload : Obligations.NaNResultsAreQuietAndKeepThePayload := by
  intro p x hnan
  have hexp : expField (nanResult p x) = 2047#11 := by
    rw [isNaN_eq_classify, classify_isNaN_iff] at hnan
    rw [expField_nanResult, expField_eq_iff]
    exact hnan.1
  refine ⟨hexp, classify_isQuiet_iff_bit.mpr ⟨hexp, getLsbD_51_nanResult p x⟩,
    payload_nanResult p x, ?_, ?_, ?_⟩
  · rintro rfl
    exact signField_nanResult_preserve x
  · rintro rfl
    exact signField_nanResult_clear x
  · rintro rfl hquiet
    exact or_quietBit_eq_self (classify_isQuiet_iff_bit.mp hquiet).2

end Sys2Proof.Machine
end

section
/-! The normalizer, the widening multiplier and the sticky shifts at their ports (40_components.md R53 to
R56), as arithmetic on numbers. -/

namespace Sys2Proof.Machine

open Sys2Proof

/-! ## Normalizer -/

/-- Normalizing shifts a nonzero significand until its leading bit stands in bit 52. -/
theorem normalize_spec {sig : BitVec 52} (h : sig ≠ 0#52) :
    ∃ shift : ℕ, (normalize sig).1 = 1 - (shift : ℤ) ∧ 1 ≤ shift ∧ shift ≤ 52 ∧
      (normalize sig).2.toNat = sig.toNat * 2 ^ shift ∧ 2 ^ 52 ≤ sig.toNat * 2 ^ shift ∧
      sig.toNat * 2 ^ shift < 2 ^ 53 := by
  have hlt := sig.isLt
  have hword : (sig.setWidth 64).toNat = sig.toNat := BitVec.toNat_setWidth_of_le (by decide)
  have hne : sig.setWidth 64 ≠ 0#64 := fun hz =>
    h (BitVec.eq_of_toNat_eq (by rw [← hword, hz]; rfl))
  obtain ⟨hclz, hlow, hhigh⟩ := clz64_spec hne
  rw [hword] at hlow hhigh
  have hlead : 12 ≤ clz64 (sig.setWidth 64) := by
    by_contra hsmall
    have hpow : 2 ^ 52 ≤ 2 ^ (63 - clz64 (sig.setWidth 64)) :=
      Nat.pow_le_pow_right Nat.two_pos (by omega)
    omega
  obtain ⟨shift, hshift⟩ := Nat.exists_eq_add_of_le' (show 11 ≤ clz64 (sig.setWidth 64) by omega)
  have hlow' : 2 ^ 52 ≤ sig.toNat * 2 ^ shift := by
    calc 2 ^ 52 = 2 ^ (63 - clz64 (sig.setWidth 64)) * 2 ^ shift := by rw [← pow_add]; congr 1; omega
      _ ≤ _ := Nat.mul_le_mul_right _ hlow
  have hhigh' : sig.toNat * 2 ^ shift < 2 ^ 53 := by
    calc _ < 2 ^ (64 - clz64 (sig.setWidth 64)) * 2 ^ shift :=
          Nat.mul_lt_mul_of_pos_right hhigh (by positivity)
      _ = 2 ^ 53 := by rw [← pow_add]; congr 1; omega
  have hsub : clz64 (sig.setWidth 64) - clz64 implBit = shift := by rw [clz64_implBit]; omega
  refine ⟨shift, ?_, by omega, by omega, ?_, hlow', hhigh'⟩
  · simp only [normalize, hsub]
  · simp only [normalize, hsub]
    rw [BitVec.toNat_setWidth, BitVec.toNat_shiftLeft, hword, Nat.shiftLeft_eq]
    omega

/-- Settles O27: the shift in the exponent undoes the shift of the significand. -/
theorem normalizerKeepsTheValue : Obligations.NormalizerKeepsTheValue := by
  refine ⟨fun sig hsig => ?_, rfl⟩
  obtain ⟨shift, hexp, hpos, hle, hnum, hlow, hhigh⟩ := normalize_spec hsig
  refine ⟨shift, (normalize sig).2, ?_, hpos, hle, hnum, by omega, by omega, ?_⟩
  · rw [normalizerPort, if_neg hsig, ← hexp]
  · have hscale : (1 - (shift : ℤ)) - 1075 = -1074 - (shift : ℤ) := by ring
    rw [hnum, hscale, zpow_sub₀ two_ne_zero, zpow_natCast, Nat.cast_mul, Nat.cast_pow,
      Nat.cast_ofNat, mul_assoc, mul_div_cancel₀ _ (by positivity)]

/-! ## Widening multiplier -/

/-- Settles O28: the product fits 128 bits, and the halves are its quotient and remainder. -/
theorem wideningMultiplierIsExact : Obligations.WideningMultiplierIsExact := by
  intro x y
  have hlt : x.toNat * y.toNat < 2 ^ 64 * 2 ^ 64 := Nat.mul_lt_mul'' x.isLt y.isLt
  have hx : (x.setWidth 128).toNat = x.toNat := BitVec.toNat_setWidth_of_le (by decide)
  have hy : (y.setWidth 128).toNat = y.toNat := BitVec.toNat_setWidth_of_le (by decide)
  simp only [wmul, BitVec.extractLsb'_toNat, BitVec.toNat_mul, hx, hy, Nat.shiftRight_eq_div_pow]
  omega

/-! ## Sticky shifts -/

/-- The bits of a number that a shift by `n` loses, as the one bit that remembers them. -/
def stickyBit (x n : ℕ) : ℕ :=
  if x % 2 ^ n = 0 then 0 else 1

/-- What a left shift by `64 - n` keeps are the `n` low bits. -/
theorem shiftLeft_sub_toNat (x : Word) {n : ℕ} (hn : n ≤ 64) :
    (x <<< (64 - n)).toNat = x.toNat % 2 ^ n * 2 ^ (64 - n) := by
  have hsplit : 2 ^ 64 = 2 ^ n * 2 ^ (64 - n) := by rw [← pow_add]; congr 1; omega
  rw [BitVec.toNat_shiftLeft, Nat.shiftLeft_eq, hsplit, Nat.mul_mod_mul_right]

theorem stickyWord_toNat (x : Word) {n : ℕ} (hn : n ≤ 64) :
    (boolWord (decide (x <<< (64 - n) ≠ 0#64))).toNat = stickyBit x.toNat n := by
  have hzero : x <<< (64 - n) = 0#64 ↔ x.toNat % 2 ^ n = 0 := by
    rw [BitVec.toNat_eq, shiftLeft_sub_toNat x hn]
    simp
  simp only [boolWord, stickyBit, ne_eq, hzero, decide_not, Bool.not_eq_true', decide_eq_false_iff_not]
  split_ifs <;> rfl

theorem shrSticky64_toNat (x : Word) {n : ℕ} (hn : n ≤ 64) :
    (shrSticky64 x n).toNat = x.toNat / 2 ^ n ||| stickyBit x.toNat n := by
  rw [shrSticky64, BitVec.toNat_or, stickyWord_toNat x hn, BitVec.toNat_ushiftRight,
    Nat.shiftRight_eq_div_pow]

/-- Settles O29: the shifted word and its sticky bit. -/
theorem stickyShiftRemembersLostBits : Obligations.StickyShiftRemembersLostBits := by
  intro x n
  exact ⟨fun h1 h63 => ⟨_, if_pos ⟨h1, h63⟩, shrSticky64_toNat x (by omega)⟩,
    fun hout => if_neg (by omega)⟩

/-- The two halves as one number, whose sticky bit is the low half's: a shift by less than 64 bits loses
no bit of the high one. -/
theorem wideShrSticky_toNat (hi lo : Word) {n : ℕ} (hn : n ≤ 63) :
    (wideShrSticky hi lo n).1.toNat * 2 ^ 64 + (wideShrSticky hi lo n).2.toNat =
      (hi.toNat * 2 ^ 64 + lo.toNat) / 2 ^ n ||| stickyBit (hi.toNat * 2 ^ 64 + lo.toNat) n := by
  have hpos : 0 < 2 ^ n := Nat.two_pow_pos n
  have hsplit : 2 ^ 64 = 2 ^ n * 2 ^ (64 - n) := by rw [← pow_add]; congr 1; omega
  have hwhole : hi.toNat * 2 ^ 64 + lo.toNat =
      2 ^ n * (hi.toNat * 2 ^ (64 - n)) + lo.toNat := by rw [hsplit]; ring
  have hlow : lo.toNat / 2 ^ n < 2 ^ (64 - n) := Nat.div_lt_of_lt_mul (hsplit ▸ lo.isLt)
  have hmoved : (hi <<< (64 - n) ||| lo >>> n).toNat =
      hi.toNat % 2 ^ n * 2 ^ (64 - n) + lo.toNat / 2 ^ n := by
    rw [BitVec.toNat_or, shiftLeft_sub_toNat hi (by omega), BitVec.toNat_ushiftRight,
      Nat.shiftRight_eq_div_pow, mul_comm, ← Nat.two_pow_add_eq_or_of_lt hlow]
  have hquot : (hi.toNat * 2 ^ 64 + lo.toNat) / 2 ^ n =
      2 ^ 64 * (hi.toNat / 2 ^ n) + (hi <<< (64 - n) ||| lo >>> n).toNat := by
    rw [hwhole, Nat.mul_add_div hpos, hmoved, hsplit]
    conv_lhs => rw [← Nat.div_add_mod hi.toNat (2 ^ n)]
    ring
  have hsticky : stickyBit (hi.toNat * 2 ^ 64 + lo.toNat) n = stickyBit lo.toNat n := by
    rw [stickyBit, hwhole, Nat.mul_add_mod, stickyBit]
  have hshift : (wideShrSticky hi lo n).1.toNat = hi.toNat / 2 ^ n := by
    rw [wideShrSticky, BitVec.toNat_ushiftRight, Nat.shiftRight_eq_div_pow]
  rw [hquot, hsticky, Nat.two_pow_add_eq_or_of_lt (BitVec.isLt _), Nat.or_assoc,
    ← stickyWord_toNat lo (by omega), ← BitVec.toNat_or, hshift, mul_comm,
    Nat.two_pow_add_eq_or_of_lt (BitVec.isLt _)]
  rfl

/-- Settles O30: the two halves of the shifted number and its sticky bit. -/
theorem wideStickyShiftRemembersLostBits : Obligations.WideStickyShiftRemembersLostBits := by
  intro hi lo n
  exact ⟨fun h1 h63 => ⟨_, _, if_pos ⟨h1, h63⟩, wideShrSticky_toNat hi lo h63⟩,
    fun hout => if_neg (by omega)⟩

end Sys2Proof.Machine
end

section
/-! The rounding unit (40_components.md R57, R58): its categories as comparisons of numbers, and how far an
increment carries. -/

namespace Sys2Proof.Machine

open Sys2Proof

/-! ## Categories -/

/-- The category of a discarded part `a` against the half `b`: the three outcomes exclude each other. -/
theorem category_iff {a b : ℕ} {c : Category}
    (h : c = if b < a then .above else if a = b then .half else .below) :
    (c = .above ↔ b < a) ∧ (c = .half ↔ a = b) ∧ (c = .below ↔ a < b) := by
  subst h
  split_ifs with habove hhalf <;> simp <;> omega

theorem categoryOfGrs_eq (grs : Word) :
    categoryOfGrs grs = if 4 < grs.toNat then .above else if grs.toNat = 4 then .half else .below := by
  simp only [categoryOfGrs, gt_iff_lt, BitVec.lt_def, BitVec.toNat_eq]
  rfl

theorem categoryOfLow_eq (lo : Word) :
    categoryOfLow lo =
      if 2 ^ 63 < lo.toNat then .above else if lo.toNat = 2 ^ 63 then .half else .below := by
  simp only [categoryOfLow, gt_iff_lt, BitVec.lt_def, BitVec.toNat_eq]
  rfl

/-- Settles O31: the port's answers by its code, and each category as the comparison it makes. -/
theorem roundingUnitFollowsItsCategory : Obligations.RoundingUnitFollowsItsCategory := by
  refine ⟨fun packed => ⟨?_, rfl, rfl, rfl⟩, fun grs => category_iff (categoryOfGrs_eq grs),
    fun lo => category_iff (categoryOfLow_eq lo), fun r d => category_iff rfl⟩
  exact congrArg Except.ok (BitVec.add_zero packed)

/-! ## The carry -/

theorem roundIncrement_le (packed : Word) (c : Category) : (roundIncrement packed c).toNat ≤ 1 := by
  cases c with
  | above => exact le_rfl
  | half =>
    rw [roundIncrement, BitVec.toNat_and]
    exact Nat.and_le_right
  | below => exact Nat.zero_le 1

/-- The magnitude of a finite pattern has room for the increment below the sign bit. -/
theorem roundPacked_toNat {packed : Word} (h : isFinite packed = true) (c : Category) :
    (roundPacked packed c).toNat = packed.toNat + (roundIncrement packed c).toNat := by
  have hfin := isFinite_iff.mp h
  have hinc := roundIncrement_le packed c
  have hlt := packed.isLt
  rw [roundPacked, BitVec.toNat_add, Nat.mod_eq_of_lt (by omega)]

/-- Settles O32: a finite magnitude counted up by one stays below 2^63. -/
theorem roundingNeverReachesTheSign : Obligations.RoundingNeverReachesTheSign := by
  intro packed c h
  have hfin := isFinite_iff.mp h
  have hinc := roundIncrement_le packed c
  have hnum := roundPacked_toNat h c
  refine ⟨BitVec.eq_of_toNat_eq ?_, ?_, hinc⟩
  · rw [signField_toNat, signField_toNat]
    omega
  · rw [and_absMask_toNat, and_absMask_toNat]
    omega

end Sys2Proof.Machine
end

section
/-! The magnitudes of patterns as a function of their low 63 bits, which it orders (40_components.md R51,
R62): a magnitude is a significand times a power of two, and the next pattern's is one unit of that
power above it. -/

namespace Sys2Proof.Machine

open Sys2Proof

/-! ## Magnitudes -/

/-- The magnitude the number `m` of a pattern without its sign stands for, with `k` the exponent field
less one, and 0 for subnormals: the significand in units of `2 ^ (k - 1074)` is what `m` holds above
`k * 2 ^ 52`. -/
def magnitudeOf (m : ℕ) : ℚ :=
  let k := m / 2 ^ 52 - 1
  ((m - k * 2 ^ 52 : ℕ) : ℚ) * 2 ^ ((k : ℤ) - 1074)

/-- The magnitude of a significand of at most 53 bits in units of `2 ^ (k - 1074)`. A carry out of the
significand lands in the exponent field and keeps the value. -/
theorem magnitudeOf_parts {k n : ℕ} (hn : n ≤ 2 ^ 53) (hk : k = 0 ∨ 2 ^ 52 ≤ n) :
    magnitudeOf (k * 2 ^ 52 + n) = n * 2 ^ ((k : ℤ) - 1074) := by
  unfold magnitudeOf
  dsimp only
  obtain hlt | rfl := Nat.lt_or_eq_of_le hn
  · have hexp : (k * 2 ^ 52 + n) / 2 ^ 52 - 1 = k := by omega
    rw [hexp, Nat.add_sub_cancel_left]
  · have hexp : (k * 2 ^ 52 + 2 ^ 53) / 2 ^ 52 - 1 = k + 1 := by omega
    have hsig : k * 2 ^ 52 + 2 ^ 53 - (k + 1) * 2 ^ 52 = 2 ^ 52 := by omega
    have hscale : ((k + 1 : ℕ) : ℤ) - 1074 = (k : ℤ) - 1074 + 1 := by push_cast; ring
    rw [hexp, hsig, hscale, zpow_add_one₀ two_ne_zero]
    push_cast
    ring

/-- Every number is made of the parts of `magnitudeOf_parts`. -/
theorem exists_parts_of_nat (m : ℕ) :
    ∃ k n, m = k * 2 ^ 52 + n ∧ n < 2 ^ 53 ∧ (k = 0 ∨ 2 ^ 52 ≤ n) :=
  ⟨m / 2 ^ 52 - 1, m - (m / 2 ^ 52 - 1) * 2 ^ 52, by omega, by omega, by omega⟩

theorem magnitudeOf_strictMono : StrictMono magnitudeOf := by
  refine strictMono_nat_of_lt_succ fun m => ?_
  obtain ⟨k, n, rfl, hn, hk⟩ := exists_parts_of_nat m
  rw [add_assoc, magnitudeOf_parts hn.le hk, magnitudeOf_parts hn (by omega)]
  have hunit : (0 : ℚ) < 2 ^ ((k : ℤ) - 1074) := by positivity
  push_cast
  linarith

@[simp] theorem magnitudeOf_zero : magnitudeOf 0 = 0 := by
  simp [magnitudeOf]

theorem magnitudeOf_nonneg (m : ℕ) : 0 ≤ magnitudeOf m :=
  magnitudeOf_zero ▸ magnitudeOf_strictMono.monotone (Nat.zero_le m)

/-! ## Values of patterns -/

/-- The value of a pattern is the magnitude of its low 63 bits under its sign. -/
theorem value_eq (x : Word) :
    value x = (if signField x = 1#1 then -1 else 1) * magnitudeOf (x.toNat % 2 ^ 63) := by
  have hexp := expField_toNat x
  have hsig := sigField_toNat x
  have hfield := (expField x).isLt
  rw [value]
  congr 1
  by_cases h : expField x = 0#11
  · have hzero : (expField x).toNat = 0 := by simp [h]
    have hm : x.toNat % 2 ^ 63 = 0 * 2 ^ 52 + (sigField x).toNat := by omega
    rw [if_pos h, hm, magnitudeOf_parts (by omega) (Or.inl rfl)]
    norm_num
  · have hpos : (expField x).toNat ≠ 0 := fun hz => h (BitVec.eq_of_toNat_eq hz)
    have hm : x.toNat % 2 ^ 63 =
        ((expField x).toNat - 1) * 2 ^ 52 + (2 ^ 52 + (sigField x).toNat) := by omega
    have hscale : (((expField x).toNat - 1 : ℕ) : ℤ) - 1074 = (expField x).toNat - 1075 := by omega
    rw [if_neg h, hm, magnitudeOf_parts (by omega) (Or.inr (by omega)), hscale]

theorem abs_value (x : Word) : |value x| = magnitudeOf (x &&& absMask).toNat := by
  have hsign : |(if signField x = 1#1 then -1 else 1 : ℚ)| = 1 := by split <;> simp
  rw [value_eq, and_absMask_toNat, abs_mul, hsign, one_mul, abs_of_nonneg (magnitudeOf_nonneg _)]

theorem isFinite_iff_lt_inf {x : Word} :
    isFinite x = true ↔ (x &&& absMask).toNat < infPattern.toNat := by
  rw [isFinite_iff, and_absMask_toNat, infPattern_toNat]

/-- Settles O26: absolute bits compare as their numbers, which `magnitudeOf` orders; those of a finite
pattern lie below infinity's, and no pattern but a NaN lies above. -/
theorem absoluteBitsOrderMagnitudes : Obligations.AbsoluteBitsOrderMagnitudes := by
  intro x z _ hz
  refine ⟨fun _ _ => ?_, fun hx hinf => ?_, fun hinf => ?_⟩
  · rw [abs_value, abs_value, magnitudeOf_strictMono.lt_iff_lt, magnitudeOf_strictMono.injective.eq_iff]
    exact ⟨BitVec.lt_def, BitVec.toNat_eq⟩
  · rw [of_decide_eq_true hinf, BitVec.lt_def]
    exact isFinite_iff_lt_inf.mp hx
  · rw [of_decide_eq_true hinf]
    exact of_decide_eq_false hz

end Sys2Proof.Machine
end

section
/-! The reference rounding (40_components.md R63) against the nearest-even rule (00_scope.md R10): a value
between two neighbouring magnitudes goes to the nearer one, and to the even one of two equally near. -/

namespace Sys2Proof.Machine

open Sys2Proof

/-! ## Rounding half to even -/

/-- What rounding half to even adds to a significand `q` with the fraction `δ` discarded. -/
def halfEvenIncrement (q : ℕ) (δ : ℚ) : ℕ :=
  if δ < 1 / 2 then 0 else if 1 / 2 < δ then 1 else q % 2

/-- The number of the pattern that lies the increment above `q` units of `2 ^ (k - 1074)`. -/
def roundedNumber (k q : ℕ) (δ : ℚ) : ℕ :=
  k * 2 ^ 52 + (q + halfEvenIncrement q δ)

theorem halfEvenIncrement_le (q : ℕ) (δ : ℚ) : halfEvenIncrement q δ ≤ 1 := by
  unfold halfEvenIncrement
  split_ifs <;> omega

@[simp] theorem halfEvenIncrement_zero (q : ℕ) : halfEvenIncrement q 0 = 0 := by
  simp [halfEvenIncrement]

/-- Rounding half to even picks the nearest of the numbers outside the gap between `q` and `q + 1`, and
an even one if a different number is equally near. -/
theorem halfEvenIncrement_nearest {q : ℕ} {δ x : ℚ} (h0 : 0 ≤ δ) (h1 : δ < 1)
    (hx : x ≤ q ∨ (q : ℚ) + 1 ≤ x) :
    |((q + halfEvenIncrement q δ : ℕ) : ℚ) - (q + δ)| ≤ |x - (q + δ)| ∧
    (|((q + halfEvenIncrement q δ : ℕ) : ℚ) - (q + δ)| = |x - (q + δ)| →
      x ≠ (q + halfEvenIncrement q δ : ℕ) → (q + halfEvenIncrement q δ) % 2 = 0) := by
  have hdown : |((q + 0 : ℕ) : ℚ) - (q + δ)| = δ := by
    rw [abs_sub_comm, abs_of_nonneg] <;> push_cast <;> linarith
  have hup : |((q + 1 : ℕ) : ℚ) - (q + δ)| = 1 - δ := by
    rw [abs_of_nonneg] <;> push_cast <;> linarith
  have hfar : (x ≤ q ∧ |x - (q + δ)| = q + δ - x) ∨ (q + 1 ≤ x ∧ |x - (q + δ)| = x - (q + δ)) := by
    refine hx.imp (fun h => ⟨h, ?_⟩) (fun h => ⟨h, abs_of_nonneg (by linarith)⟩)
    rw [abs_sub_comm, abs_of_nonneg (by linarith)]
  unfold halfEvenIncrement
  split_ifs with hlow hhigh
  · rw [hdown, Nat.add_zero]
    rcases hfar with ⟨hx, hd⟩ | ⟨hx, hd⟩ <;> rw [hd]
    · exact ⟨by linarith, fun heq hne => absurd (by linarith) hne⟩
    · exact ⟨by linarith, fun heq => by linarith⟩
  · rw [hup]
    push_cast
    rcases hfar with ⟨hx, hd⟩ | ⟨hx, hd⟩ <;> rw [hd]
    · exact ⟨by linarith, fun heq => by linarith⟩
    · exact ⟨by linarith, fun heq hne => absurd (by linarith) hne⟩
  · have htie : |((q + q % 2 : ℕ) : ℚ) - (q + δ)| = 1 / 2 := by
      rcases Nat.mod_two_eq_zero_or_one q with hq | hq <;> rw [hq]
      · rw [hdown]; linarith
      · rw [hup]; linarith
    refine ⟨?_, fun _ _ => by omega⟩
    rw [htie]
    rcases hfar with ⟨hx, hd⟩ | ⟨hx, hd⟩ <;> rw [hd] <;> linarith

/-- Rounding carries out of 53 bits exactly from half a unit below 2^53 on. -/
theorem le_add_halfEvenIncrement_iff {q : ℕ} {δ : ℚ} (hq : q < 2 ^ 53) (h1 : δ < 1) :
    2 ^ 53 ≤ q + halfEvenIncrement q δ ↔ (2 : ℚ) ^ 53 - 1 / 2 ≤ q + δ := by
  have hinc := halfEvenIncrement_le q δ
  obtain hlt | rfl := Nat.lt_or_eq_of_le (Nat.le_sub_one_of_lt hq)
  · have hlt' : (q : ℚ) + 2 ≤ 2 ^ 53 := by exact_mod_cast (by omega : q + 2 ≤ 2 ^ 53)
    exact iff_of_false (by omega) (by linarith)
  · unfold halfEvenIncrement
    split_ifs with hlow hhigh
    · exact iff_of_false (by decide) (by norm_num; linarith)
    · exact iff_of_true (by decide) (by norm_num; linarith)
    · exact iff_of_true (by decide) (by norm_num; linarith)

/-! ## A value in parts -/

/-- The value `v` lies a fraction `δ` above the magnitude of `q` units of `2 ^ (k - 1074)`, where `q` has
53 bits, or fewer in the subnormal range. -/
structure RoundingParts (v : ℚ) (k q : ℕ) (δ : ℚ) : Prop where
  sig_lt : q < 2 ^ 53
  normalized : k = 0 ∨ 2 ^ 52 ≤ q
  frac_nonneg : 0 ≤ δ
  frac_lt : δ < 1
  eq_mul : v = (q + δ) * 2 ^ ((k : ℤ) - 1074)

/-- Every value that is not negative has its parts: the exponent is that of its leading bit, or the
least one, and significand and fraction are what it holds in that unit. -/
theorem exists_roundingParts {v : ℚ} (hv : 0 ≤ v) : ∃ k q δ, RoundingParts v k q δ := by
  obtain rfl | hpos := hv.eq_or_lt
  · exact ⟨0, 0, 0, by norm_num, .inl rfl, le_rfl, one_pos, by simp⟩
  obtain ⟨hlow, hhigh⟩ := floorLog2_spec hpos
  generalize floorLog2 v = e at hlow hhigh
  let k := (e + 1022).toNat
  have hunit : (0 : ℚ) < 2 ^ ((k : ℤ) - 1074) := by positivity
  have hscale (n : ℕ) : (2 : ℚ) ^ n * 2 ^ ((k : ℤ) - 1074) = 2 ^ ((n : ℤ) + (k - 1074)) := by
    rw [zpow_add₀ two_ne_zero, zpow_natCast]
  have hlt : v / 2 ^ ((k : ℤ) - 1074) < 2 ^ 53 := by
    rw [div_lt_iff₀ hunit, hscale]
    exact hhigh.trans_le (zpow_le_zpow_right₀ one_le_two (by omega))
  have hnonneg : 0 ≤ v / 2 ^ ((k : ℤ) - 1074) := by positivity
  have hfloor := Nat.floor_le hnonneg
  have hceil := Nat.lt_floor_add_one (v / 2 ^ ((k : ℤ) - 1074))
  refine ⟨k, ⌊v / 2 ^ ((k : ℤ) - 1074)⌋₊, v / 2 ^ ((k : ℤ) - 1074) - ⌊v / 2 ^ ((k : ℤ) - 1074)⌋₊,
    ?_, ?_, by linarith, by linarith, ?_⟩
  · exact (Nat.floor_lt hnonneg).mpr (by exact_mod_cast hlt)
  · refine (Nat.eq_zero_or_pos k).imp_right fun hk => Nat.le_floor ?_
    rw [Nat.cast_pow, Nat.cast_ofNat, le_div_iff₀ hunit, hscale]
    exact (zpow_le_zpow_right₀ one_le_two (by omega)).trans hlow
  · rw [add_sub_cancel, div_mul_cancel₀ _ hunit.ne']

namespace RoundingParts

variable {v δ : ℚ} {k q : ℕ}

theorem unit_pos (k : ℕ) : (0 : ℚ) < 2 ^ ((k : ℤ) - 1074) := by positivity

/-- Zero has zero parts. -/
theorem eq_zero (h : RoundingParts 0 k q δ) : k = 0 ∧ q = 0 ∧ δ = 0 := by
  obtain ⟨hq, hk, h0, h1, hv⟩ := h
  have hsum : (q : ℚ) + δ = 0 := by
    simpa [(unit_pos k).ne'] using hv.symm
  have hq0 : (0 : ℚ) ≤ q := q.cast_nonneg
  have hzero : (q : ℚ) = 0 := by linarith
  have hzero' : q = 0 := by exact_mod_cast hzero
  exact ⟨by omega, hzero', by linarith⟩

/-- `RNE64` of a value in parts: the number of the magnitude below it, counted up by the increment, and
infinity's where it reaches that. -/
theorem rne64_eq (h : RoundingParts v k q δ) (s : BitVec 1) :
    rne64 s v =
      signWord s ||| BitVec.ofNat 64 (min infPattern.toNat (roundedNumber k q δ)) := by
  unfold rne64
  split
  next hzero =>
    subst hzero
    obtain ⟨rfl, rfl, rfl⟩ := h.eq_zero
    simp [roundedNumber]
  next hne =>
    obtain ⟨hq, hk, h0, h1, hv⟩ := h
    have hnonneg : 0 ≤ v := hv ▸ mul_nonneg (by positivity) (unit_pos k).le
    have hmag := rneMag_of_parts (e := k + 1) (by omega) hq (by omega) h0 h1
      (lt_of_le_of_ne hnonneg (Ne.symm hne)) (by rw [hv]; congr 2; ring)
    have hnat : rneMag v = (min infPattern.toNat (roundedNumber k q δ) : ℕ) := by
      rw [hmag, roundedNumber, halfEvenIncrement]
      push_cast
      ring_nf
    rw [hnat, BitVec.ofInt_natCast]

/-- No pattern's value lies strictly between the magnitude below `v` and the next one. -/
theorem value_gap (h : RoundingParts v k q δ) (z : Word) :
    value z ≤ q * 2 ^ ((k : ℤ) - 1074) ∨ (q + 1) * 2 ^ ((k : ℤ) - 1074) ≤ value z := by
  have hsig := h.sig_lt
  have hbelow := magnitudeOf_parts hsig.le h.normalized
  have habove := magnitudeOf_parts (k := k) (n := q + 1) hsig (h.normalized.imp_right (by omega))
  rw [Nat.cast_add, Nat.cast_one, ← add_assoc] at habove
  rw [← hbelow, ← habove, value_eq]
  split
  · left
    linarith [magnitudeOf_nonneg (k * 2 ^ 52 + q), magnitudeOf_nonneg (z.toNat % 2 ^ 63)]
  · rw [one_mul, magnitudeOf_strictMono.le_iff_le, magnitudeOf_strictMono.le_iff_le]
    exact (Nat.lt_or_ge _ _).symm

/-- The magnitude of the rounded number. -/
theorem magnitudeOf_eq (h : RoundingParts v k q δ) :
    magnitudeOf (roundedNumber k q δ) =
      (q + halfEvenIncrement q δ : ℕ) * 2 ^ ((k : ℤ) - 1074) := by
  have hsig := h.sig_lt
  have hinc := halfEvenIncrement_le q δ
  exact magnitudeOf_parts (by omega) (h.normalized.imp_right (by omega))

/-- The rounded magnitude is nearest to `v` among the values of patterns, and its number is even if a
different value is equally near. -/
theorem nearest (h : RoundingParts v k q δ) (z : Word) :
    |magnitudeOf (roundedNumber k q δ) - v| ≤ |value z - v| ∧
    (|magnitudeOf (roundedNumber k q δ) - v| = |value z - v| →
      value z ≠ magnitudeOf (roundedNumber k q δ) → roundedNumber k q δ % 2 = 0) := by
  have hunit := unit_pos k
  have hgap := h.value_gap z
  rw [h.magnitudeOf_eq, h.eq_mul]
  generalize (2 : ℚ) ^ ((k : ℤ) - 1074) = u at hunit hgap ⊢
  obtain ⟨x, hx⟩ : ∃ x, value z = x * u := ⟨value z / u, (div_mul_cancel₀ _ hunit.ne').symm⟩
  rw [hx, mul_le_mul_iff_left₀ hunit, mul_le_mul_iff_left₀ hunit] at hgap
  obtain ⟨hle, heven⟩ := halfEvenIncrement_nearest h.frac_nonneg h.frac_lt hgap
  simp only [hx, ← sub_mul, abs_mul, abs_of_pos hunit, mul_le_mul_iff_left₀ hunit,
    mul_left_inj' hunit.ne', ne_eq]
  refine ⟨hle, fun heq hne => ?_⟩
  have hsum := heven heq hne
  unfold roundedNumber
  omega

/-- The overflow threshold is half a unit below 2^53 of the units of the largest finite exponent. -/
theorem overflowThreshold_eq : (2 : ℚ) ^ 1024 - 2 ^ 970 = (2 ^ 53 - 1 / 2) * 2 ^ (971 : ℤ) :=
  calc (2 : ℚ) ^ 1024 - 2 ^ 970 = (2 ^ 54 - 1) * 2 ^ 970 := by rw [sub_mul, one_mul, ← pow_add]
    _ = (2 ^ 53 - 1 / 2) * (2 ^ 970 * 2) := by
      generalize (2 : ℚ) ^ 970 = t
      ring
    _ = (2 ^ 53 - 1 / 2) * 2 ^ (971 : ℤ) := by rw [← pow_succ]; rfl

/-- Rounding reaches infinity exactly from halfway between the largest finite magnitude and the next
power of two on. -/
theorem overflow_iff (h : RoundingParts v k q δ) :
    infPattern.toNat ≤ roundedNumber k q δ ↔ 2 ^ 1024 - 2 ^ 970 ≤ v := by
  obtain ⟨hq, hk, h0, h1, hv⟩ := h
  have hinc := halfEvenIncrement_le q δ
  have hq' : (q : ℚ) + 1 ≤ 2 ^ 53 := by exact_mod_cast hq
  have hscale : (2 : ℚ) ^ ((k : ℤ) - 1074) = 2 ^ ((k : ℤ) - 1074 - 971) * 2 ^ (971 : ℤ) := by
    rw [← zpow_add₀ two_ne_zero, sub_add_cancel]
  have htop : (0 : ℚ) < 2 ^ (971 : ℤ) := by positivity
  rw [infPattern_toNat, overflowThreshold_eq, hv, hscale, ← mul_assoc, mul_le_mul_iff_left₀ htop,
    roundedNumber]
  rcases lt_trichotomy k 2045 with hlt | rfl | hgt
  · have hsmall : (2 : ℚ) ^ ((k : ℤ) - 1074 - 971) ≤ 2 ^ (-1 : ℤ) :=
      zpow_le_zpow_right₀ one_le_two (by omega)
    have hprod : (q + δ) * 2 ^ ((k : ℤ) - 1074 - 971) ≤ 2 ^ 53 * 2 ^ (-1 : ℤ) :=
      mul_le_mul (by linarith) hsmall (by positivity) (by positivity)
    exact iff_of_false (by omega) (not_le.mpr (hprod.trans_lt (by norm_num)))
  · have hone : (2 : ℚ) ^ (((2045 : ℕ) : ℤ) - 1074 - 971) = 1 := by norm_num
    rw [hone, mul_one, ← le_add_halfEvenIncrement_iff hq h1]
    omega
  · have hbig : (2 : ℚ) ^ (1 : ℤ) ≤ 2 ^ ((k : ℤ) - 1074 - 971) :=
      zpow_le_zpow_right₀ one_le_two (by omega)
    have hsig : 2 ^ 52 ≤ q := by omega
    have hsig' : (2 : ℚ) ^ 52 ≤ q := by exact_mod_cast hsig
    have hprod : (2 : ℚ) ^ 52 * 2 ^ (1 : ℤ) ≤ (q + δ) * 2 ^ ((k : ℤ) - 1074 - 971) :=
      mul_le_mul (by linarith) hbig (by positivity) (by linarith)
    exact iff_of_true (by omega) (le_trans (by norm_num) hprod)

end RoundingParts

/-! ## The rounded pattern -/

/-- A number below infinity's, taken as a pattern of sign 0, is finite and has its own magnitude. -/
theorem ofNat_of_lt_inf {m : ℕ} (hm : m < infPattern.toNat) :
    isFinite (BitVec.ofNat 64 m) = true ∧ signField (BitVec.ofNat 64 m) = 0#1 ∧
      value (BitVec.ofNat 64 m) = magnitudeOf m := by
  have hinf := infPattern_toNat
  have hm63 : m % 2 ^ 64 % 2 ^ 63 = m := by omega
  have hsign : signField (BitVec.ofNat 64 m) = 0#1 := by
    apply BitVec.eq_of_toNat_eq
    rw [signField_toNat, BitVec.toNat_ofNat]
    simp only [BitVec.toNat_ofNat]
    omega
  refine ⟨isFinite_iff_lt_inf.mpr ?_, hsign, ?_⟩
  · rwa [and_absMask_toNat, BitVec.toNat_ofNat, hm63]
  · rw [value_eq, BitVec.toNat_ofNat, hm63, hsign, if_neg (by decide), one_mul]

/-- Settles O34: with the value in parts, no pattern lies between its two neighbours, and the increment
picks the nearer of them. -/
theorem referenceRoundingIsNearestEven : Obligations.ReferenceRoundingIsNearestEven := by
  intro sg v hv
  obtain ⟨k, q, δ, h⟩ := exists_roundingParts hv
  have hzero : rne64 0#1 v = BitVec.ofNat 64 (min infPattern.toNat (roundedNumber k q δ)) := by
    rw [h.rne64_eq]
    simp [signWord]
  dsimp only
  refine ⟨by rw [h.rne64_eq, hzero], fun hlt => ?_, fun hle => ?_⟩
  · have hfin := not_le.mp (h.overflow_iff.not.mpr (not_le.mpr hlt))
    rw [hzero, min_eq_right hfin.le]
    obtain ⟨hfinite, hsign, hvalue⟩ := ofNat_of_lt_inf hfin
    rw [hvalue]
    refine ⟨hfinite, hsign, fun z _ => ?_⟩
    obtain ⟨hnear, heven⟩ := h.nearest z
    refine ⟨hnear, fun heq hne => ?_⟩
    rw [BitVec.getLsbD_ofNat, Nat.testBit_zero, heven heq hne]
    rfl
  · rw [hzero, min_eq_left (h.overflow_iff.mpr hle)]
    rfl

/-- Settles O35: a finite pattern's magnitude has its own parts with no fraction, so nothing is added. -/
theorem referenceRoundingFixesFinitePatterns : Obligations.ReferenceRoundingFixesFinitePatterns := by
  intro x hx
  have hfin := isFinite_iff_lt_inf.mp hx
  obtain ⟨k, q, hm, hq, hk⟩ := exists_parts_of_nat (x &&& absMask).toNat
  have h : RoundingParts |value x| k q 0 :=
    ⟨hq, hk, le_rfl, one_pos, by rw [abs_value, hm, magnitudeOf_parts hq.le hk, add_zero]⟩
  have hn : roundedNumber k q 0 = (x &&& absMask).toNat := by simp [roundedNumber, hm]
  have hlow := and_absMask_toNat x
  apply BitVec.eq_of_toNat_eq
  rw [h.rne64_eq, hn, min_eq_right hfin.le, BitVec.ofNat_toNat, BitVec.setWidth_eq,
    signWord_or_toNat _ (by omega), signField_toNat]
  omega

end Sys2Proof.Machine
end

section
/-! The NaN sign parameters (40_components.md R60, 93_implementation_defined.md X6): an engine reads its
parameter only for the NaN results, of which it sets only the sign. -/

namespace Sys2Proof.Machine

open Sys2Proof

/-- Two results that agree but for the sign of a NaN result, which needs a NaN operand. -/
def AgreeButForNaNSign (a b y z : Word) : Prop :=
  (isNaN a = false → isNaN b = false → y = z) ∧ y &&& absMask = z &&& absMask

theorem AgreeButForNaNSign.rfl {a b y : Word} : AgreeButForNaNSign a b y y :=
  ⟨fun _ _ => Eq.refl y, Eq.refl _⟩

theorem nanResult_and_absMask (p : NaNSign) (x : Word) :
    nanResult p x &&& absMask = (x ||| quietBit) &&& absMask := by
  cases p with
  | preserve => rfl
  | clear => rw [nanResult, BitVec.and_assoc, BitVec.and_self]

/-- The head of every special-case table: a NaN operand gives its own NaN, the first one's first. -/
theorem agree_of_nanResult (p q : NaNSign) (a b y : Word) :
    AgreeButForNaNSign a b
      (if isNaN a then nanResult p a else if isNaN b then nanResult p b else y)
      (if isNaN a then nanResult q a else if isNaN b then nanResult q b else y) := by
  split_ifs with ha hb
  · exact ⟨by simp [ha], by rw [nanResult_and_absMask, nanResult_and_absMask]⟩
  · exact ⟨by simp [hb], by rw [nanResult_and_absMask, nanResult_and_absMask]⟩
  · exact .rfl

theorem addEngine_agree (p q : NaNSign) (w : ℕ) (a b : Word) :
    AgreeButForNaNSign a b (addEngine p w a b) (addEngine q w a b) := by
  unfold addEngine
  split
  · exact agree_of_nanResult p q a b _
  · exact .rfl

theorem mulEngine_agree (p q : NaNSign) (w : ℕ) (a b : Word) :
    AgreeButForNaNSign a b (mulEngine p w a b) (mulEngine q w a b) := by
  unfold mulEngine
  split_ifs
  · exact agree_of_nanResult p q a b _
  · exact .rfl
  · exact .rfl

theorem divEngine_agree (p q : NaNSign) (w : ℕ) (a b : Word) :
    AgreeButForNaNSign a b (divEngine p w a b) (divEngine q w a b) := by
  unfold divEngine
  split
  · exact agree_of_nanResult p q a b _
  · exact .rfl

theorem isNaN_negate (x : Word) : isNaN (negate x) = isNaN x := by
  rw [isNaN_eq_classify, isNaN_eq_classify, negate, classify_xor_signMask]

theorem subEngine_agree (p q : NaNSign) (w : ℕ) (a b : Word) :
    AgreeButForNaNSign a b (subEngine p w a b) (subEngine q w a b) := by
  have h := addEngine_agree p q w a (negate b)
  rwa [AgreeButForNaNSign, isNaN_negate] at h

/-- Settles O59, by the engine of each operation; NEG has no NaN result of its own. -/
theorem naNSignChangesOnlyTheSignOfNaNs : Obligations.NaNSignChangesOnlyTheSignOfNaNs := by
  intro c p q r i
  cases i with
  | add a b => exact addEngine_agree p c.nanSignAdd c.expw a b
  | sub a b => exact subEngine_agree p c.nanSignAdd c.expw a b
  | mul a b => exact mulEngine_agree q c.nanSignMul c.expw a b
  | div a b => exact divEngine_agree r c.nanSignDiv c.expw a b
  | neg a b => exact AgreeButForNaNSign.rfl (a := a) (b := b)

end Sys2Proof.Machine
end

section
/-! Inexact significands (40_components.md R55, R57): a number with a sticky bit stands for an exact
value that it need not equal, and lies on the same side of every point that rounding asks about. -/

namespace Sys2Proof.Machine

open Sys2Proof

/-! ## The sticky shift on numbers -/

/-- A right shift whose lowest bit remembers the bits lost. -/
def stickyShift (x n : ℕ) : ℕ :=
  x / 2 ^ n ||| stickyBit x n

theorem shrSticky64_toNat_eq (x : Word) {n : ℕ} (hn : n ≤ 64) :
    (shrSticky64 x n).toNat = stickyShift x.toNat n :=
  shrSticky64_toNat x hn

@[simp] theorem stickyShift_zero (x : ℕ) : stickyShift x 0 = x := by
  simp [stickyShift, stickyBit, Nat.mod_one]

/-- Where no bit is lost the shift is the quotient; otherwise it is the odd one of the quotient and
its successor. -/
theorem stickyShift_eq (x n : ℕ) :
    stickyShift x n = if x % 2 ^ n = 0 then x / 2 ^ n else x / 2 ^ n / 2 * 2 + 1 := by
  unfold stickyShift stickyBit
  split
  · exact Nat.or_zero _
  · have hhalf := Nat.or_div_two (a := x / 2 ^ n) (b := 1)
    have hodd := Nat.or_mod_two_eq_one (a := x / 2 ^ n) (b := 1)
    simp only [Nat.reduceDiv, Nat.or_zero] at hhalf
    omega

/-- Against an even number the shift compares as the number shifted. -/
theorem stickyShift_lt_iff (x n : ℕ) (c : ℤ) :
    (stickyShift x n : ℤ) < 2 * c ↔ (x : ℤ) < 2 * c * 2 ^ n := by
  have hpos : (0 : ℤ) < 2 ^ n := by positivity
  rw [← Int.ediv_lt_iff_lt_mul hpos]
  have hquot : ((x / 2 ^ n : ℕ) : ℤ) = (x : ℤ) / 2 ^ n := by push_cast; rfl
  rw [← hquot, stickyShift_eq]
  split <;> omega

theorem lt_stickyShift_iff (x n : ℕ) (c : ℤ) :
    2 * c < (stickyShift x n : ℤ) ↔ 2 * c * 2 ^ n < (x : ℤ) := by
  have hpos : (0 : ℤ) < 2 ^ n := by positivity
  have hquot : ((x / 2 ^ n : ℕ) : ℤ) = (x : ℤ) / 2 ^ n := by push_cast; rfl
  rw [stickyShift_eq]
  split
  next hexact =>
    have hx : (x : ℤ) = (x / 2 ^ n : ℕ) * 2 ^ n := by
      exact_mod_cast (Nat.div_mul_cancel (Nat.dvd_of_mod_eq_zero hexact)).symm
    conv_rhs => rw [hx]
    exact (mul_lt_mul_iff_left₀ hpos).symm
  next hlost =>
    have hne : 2 * c * 2 ^ n ≠ (x : ℤ) := fun h =>
      hlost (Nat.mod_eq_zero_of_dvd (by exact_mod_cast Dvd.intro_left (2 * c) h))
    rw [← hne.le_iff_lt, ← Int.le_ediv_iff_mul_le hpos, ← hquot]
    omega

theorem stickyShift_of_lt {x n : ℕ} (h0 : 0 < x) (h : x < 2 ^ n) : stickyShift x n = 1 := by
  rw [stickyShift_eq, Nat.mod_eq_of_lt h, Nat.div_eq_of_lt h, if_neg h0.ne']

theorem stickyShift_lt {x n m : ℕ} (h : x < 2 * m * 2 ^ n) : stickyShift x n < 2 * m := by
  have hlt := (stickyShift_lt_iff x n m).mpr (by exact_mod_cast h)
  exact_mod_cast hlt

/-! ## Numbers that stand for exact values -/

/-- The number `n` stands for the exact value `t`: they compare alike with every multiple of `g`. -/
def SameSide (g n : ℕ) (t : ℚ) : Prop :=
  ∀ c : ℤ, ((n : ℚ) < g * c ↔ t < g * c) ∧ ((g : ℚ) * c < n ↔ g * c < t)

namespace SameSide

variable {g n : ℕ} {t : ℚ}

theorem self (g n : ℕ) : SameSide g n n :=
  fun _ => ⟨Iff.rfl, Iff.rfl⟩

theorem mul_left (h : SameSide g n t) (k : ℕ) : SameSide (g * k) n t := by
  intro c
  have hc := h (k * c)
  push_cast at hc ⊢
  rwa [mul_assoc]

/-- Scaling both sides scales the points of comparison. -/
theorem scale (h : SameSide g n t) {k : ℕ} (hk : 0 < k) : SameSide (g * k) (n * k) (t * k) := by
  intro c
  have hk' : (0 : ℚ) < k := by exact_mod_cast hk
  have hpoint : ((g * k : ℕ) : ℚ) * c = g * c * k := by push_cast; ring
  rw [hpoint, Nat.cast_mul, mul_lt_mul_iff_left₀ hk', mul_lt_mul_iff_left₀ hk',
    mul_lt_mul_iff_left₀ hk', mul_lt_mul_iff_left₀ hk']
  exact h c

/-- Adding an even number. -/
theorem add_even (h : SameSide 2 n t) (a : ℕ) : SameSide 2 (2 * a + n) ((2 * a : ℕ) + t) := by
  intro c
  obtain ⟨hlt, hgt⟩ := h (c - a)
  push_cast at *
  constructor <;> constructor <;> intro hc
  · linarith [hlt.mp (by linarith)]
  · linarith [hlt.mpr (by linarith)]
  · linarith [hgt.mp (by linarith)]
  · linarith [hgt.mpr (by linarith)]

/-- Subtracting from an even number. -/
theorem sub_even (h : SameSide 2 n t) {a : ℕ} (hle : n ≤ 2 * a) :
    SameSide 2 (2 * a - n) ((2 * a : ℕ) - t) := by
  intro c
  obtain ⟨hlt, hgt⟩ := h (a - c)
  push_cast [hle] at *
  constructor <;> constructor <;> intro hc
  · linarith [hgt.mp (by linarith)]
  · linarith [hgt.mpr (by linarith)]
  · linarith [hlt.mp (by linarith)]
  · linarith [hlt.mpr (by linarith)]

/-- The sticky shift divides the exact value. -/
theorem shift (h : SameSide g n t) {d : ℕ} (hg : g ∣ 2 * 2 ^ d) :
    SameSide 2 (stickyShift n d) (t / 2 ^ d) := by
  intro c
  have hpos : (0 : ℚ) < 2 ^ d := by positivity
  obtain ⟨k, hk⟩ := hg
  obtain ⟨hlt, hgt⟩ := (hk ▸ h.mul_left k : SameSide (2 * 2 ^ d) n t) c
  have hpoint : ((2 * 2 ^ d : ℕ) : ℚ) * c = 2 * c * 2 ^ d := by push_cast; ring
  rw [hpoint] at hlt hgt
  rw [Nat.cast_ofNat, div_lt_iff₀ hpos, lt_div_iff₀ hpos, ← hlt, ← hgt]
  have hshift := And.intro (stickyShift_lt_iff n d c) (lt_stickyShift_iff n d c)
  simp only [← Int.cast_lt (R := ℚ)] at hshift
  push_cast at hshift
  exact hshift

theorem lt_iff (h : SameSide g n t) (m : ℕ) : n < g * m ↔ t < (g * m : ℕ) := by
  have hm := (h m).1
  rw [Int.cast_natCast] at hm
  exact_mod_cast hm

theorem gt_iff (h : SameSide g n t) (m : ℕ) : g * m < n ↔ ((g * m : ℕ) : ℚ) < t := by
  have hm := (h m).2
  rw [Int.cast_natCast] at hm
  exact_mod_cast hm

theorem le_iff (h : SameSide g n t) (m : ℕ) : g * m ≤ n ↔ ((g * m : ℕ) : ℚ) ≤ t := by
  rw [← not_lt, h.lt_iff, not_lt]

end SameSide

end Sys2Proof.Machine
end

section
/-! The adder's operands (41_fp_adder.md R67 to R71): their order, the widened significand of each,
and the alignment of the smaller one. -/

namespace Sys2Proof.Machine

open Sys2Proof

/-! ## Signs and magnitudes -/

/-- A unit of a larger exponent in a smaller one. -/
theorem unit_eq_mul {e f : ℤ} (n : ℕ) (h : e = f + n) : (2 : ℚ) ^ e = 2 ^ f * 2 ^ n := by
  rw [h, zpow_add₀ two_ne_zero, zpow_natCast]

theorem signField_cases (x : Word) : signField x = 0#1 ∨ signField x = 1#1 := by
  have := (signField x).isLt
  simp only [BitVec.toNat_eq, BitVec.toNat_ofNat]
  omega

/-- A value is its magnitude under its sign. -/
theorem value_eq_abs (x : Word) :
    value x = if signField x = 1#1 then -|value x| else |value x| := by
  rw [abs_value, and_absMask_toNat]
  conv_lhs => rw [value_eq]
  split <;> ring

theorem and_signMask_eq (x : Word) : x &&& signMask = signWord (signField x) := by
  have hsign := (signField x).isLt
  have hset : ((signField x).setWidth 64).toNat = (signField x).toNat :=
    BitVec.toNat_setWidth_of_le (by decide)
  apply BitVec.eq_of_toNat_eq
  rw [and_signMask_toNat, signWord, BitVec.toNat_shiftLeft, hset, Nat.shiftLeft_eq,
    ← signField_toNat]
  omega

theorem isSubtraction_iff {a b : Word} : isSubtraction a b = true ↔ signField a ≠ signField b := by
  have hzero (x : Word) : x &&& signMask = 0#64 ↔ signField x = 0#1 := by
    rw [BitVec.toNat_eq, and_signMask_toNat, ← signField_toNat, BitVec.toNat_eq]
    simp
  rw [isSubtraction, decide_eq_true_eq, ne_eq, hzero, signField, BitVec.extractLsb'_xor,
    BitVec.xor_eq_zero_iff]
  rfl

theorem smallerOperand_le (a b : Word) :
    smallerOperand a b &&& absMask ≤ largerOperand a b &&& absMask := by
  unfold smallerOperand largerOperand swapNeeded
  simp only [decide_eq_true_eq]
  split <;> bv_omega

theorem abs_value_smaller_le (a b : Word) :
    |value (smallerOperand a b)| ≤ |value (largerOperand a b)| := by
  rw [abs_value, abs_value]
  exact magnitudeOf_strictMono.monotone (BitVec.le_def.mp (smallerOperand_le a b))

/-- The swap exchanges the operands or leaves them. -/
theorem ordered_cases (a b : Word) :
    (largerOperand a b = a ∧ smallerOperand a b = b) ∨
    (largerOperand a b = b ∧ smallerOperand a b = a) := by
  unfold largerOperand smallerOperand
  split <;> simp

theorem special_ordered {a b : Word} (ha : special a = false) (hb : special b = false) :
    special (largerOperand a b) = false ∧ special (smallerOperand a b) = false := by
  obtain ⟨hx, hz⟩ | ⟨hx, hz⟩ := ordered_cases a b <;> simp [hx, hz, ha, hb]

/-! ## Widened significands -/

/-- The number `n` is the widened significand of `x` at the exponent `e`. -/
structure Widens (x : Word) (e : ℤ) (n : ℕ) : Prop where
  exp_ge : -51 ≤ e
  exp_le : e ≤ 2046
  dvd : 8 ∣ n
  sig_ge : 2 ^ 55 ≤ n
  sig_le : n ≤ 2 ^ 56 - 8
  abs_eq : |value x| = n * 2 ^ (e - 1078)

/-- Setting the implicit bit and making room for three bits. -/
theorem widenSig_toNat {y : Word} (hy : y.toNat < 2 ^ 53) :
    (widenSig y).toNat = 8 * (2 ^ 52 + y.toNat % 2 ^ 52) := by
  have hor : (y ||| implBit).toNat = 2 ^ 52 + y.toNat % 2 ^ 52 := by
    have himpl : implBit.toNat = 2 ^ 52 := by decide
    have hdiv := Nat.or_div_two_pow (a := y.toNat) (b := 2 ^ 52) (n := 52)
    have hmod := Nat.or_mod_two_pow (a := y.toNat) (b := 2 ^ 52) (n := 52)
    have htop : y.toNat / 2 ^ 52 ||| 1 = 1 := by
      obtain h | h : y.toNat / 2 ^ 52 = 0 ∨ y.toNat / 2 ^ 52 = 1 := by omega
      all_goals rw [h]; rfl
    rw [Nat.div_self (Nat.two_pow_pos 52), htop] at hdiv
    rw [Nat.mod_self, Nat.or_zero] at hmod
    rw [BitVec.toNat_or, himpl]
    omega
  rw [widenSig, BitVec.toNat_shiftLeft, hor, Nat.shiftLeft_eq]
  omega

/-- The magnitude of a pattern, by its exponent field. -/
theorem abs_value_eq_fields (x : Word) :
    |value x| = if expField x = 0#11 then ((sigField x).toNat : ℚ) * 2 ^ (-1074 : ℤ)
      else ((2 ^ 52 + (sigField x).toNat : ℕ) : ℚ) * 2 ^ (((expField x).toNat : ℤ) - 1075) := by
  have hsign : |(if signField x = 1#1 then -1 else 1 : ℚ)| = 1 := by split <;> simp
  rw [value, abs_mul, hsign, one_mul]
  split <;> exact abs_of_nonneg (by positivity)

/-- A significand of 53 bits, widened, at the exponent that gives it the magnitude of `x`. -/
theorem Widens.of_significand {x y : Word} {e : ℤ} {m : ℕ} (hlow : -51 ≤ e) (hhigh : e ≤ 2046)
    (hy : y.toNat < 2 ^ 53) (hm : m = 2 ^ 52 + y.toNat % 2 ^ 52)
    (habs : |value x| = m * 2 ^ (e - 1075)) : Widens x e (widenSig y).toNat := by
  have hwide := widenSig_toNat hy
  rw [← hm] at hwide
  have hunit := unit_eq_mul (e := e - 1075) (f := e - 1078) 3 (by push_cast; ring)
  refine ⟨hlow, hhigh, by omega, by omega, by omega, ?_⟩
  rw [habs, hwide, hunit]
  push_cast
  ring

/-- Unpacking and widening keep the magnitude of a finite nonzero operand. -/
theorem widens {w : ℕ} (hw : 14 ≤ w) {x : Word} (hx : special x = false) :
    Widens x (unpack w x).1 (widenedLarger w x).toNat := by
  have hfield := expField_toNat x
  have hsig := sigField_toNat x
  have habs := abs_value_eq_fields x
  rw [← Bool.not_eq_true, special_iff] at hx
  unfold widenedLarger unpack
  split
  next hzero =>
    have hexp : (expField x).toNat = 0 := by rw [hzero]; rfl
    have hne : sigField x ≠ 0#52 := fun h => by
      rw [h, BitVec.toNat_ofNat] at hsig
      omega
    obtain ⟨shift, hscale, hpos, hle, hnum, hlow, hhigh⟩ := normalize_spec hne
    have hset : ((normalize (sigField x)).2.setWidth 64).toNat = (normalize (sigField x)).2.toNat :=
      BitVec.toNat_setWidth_of_le (by decide)
    dsimp only
    rw [expWrap_eq hw (by omega) (by omega), hscale]
    refine .of_significand (m := (sigField x).toNat * 2 ^ shift) (by omega) (by omega) (by omega)
      (by omega) ?_
    have hunit := unit_eq_mul (e := -1074) (f := 1 - (shift : ℤ) - 1075) shift (by ring)
    rw [habs, if_pos hzero, hunit]
    push_cast
    ring
  next hnormal =>
    have hexp : (expField x).toNat ≠ 0 := fun h => hnormal (BitVec.eq_of_toNat_eq h)
    have hset : ((sigField x).setWidth 64).toNat = (sigField x).toNat :=
      BitVec.toNat_setWidth_of_le (by decide)
    dsimp only
    rw [expOfField_eq hw]
    exact .of_significand (by omega) (by omega) (by omega) (by omega) (habs.trans (if_neg hnormal))

/-! ## Alignment -/

/-- At a distance of 64 or more nothing but the sticky bit is left. -/
theorem align_toNat {y : Word} (hy : y ≠ 0#64) (d : ℕ) :
    (align y d).toNat = stickyShift y.toNat d := by
  unfold align
  split_ifs with hzero hnear
  · obtain rfl : d = 0 := by omega
    rw [stickyShift_zero]
  · exact shrSticky64_toNat_eq y (by omega)
  · have hpos : 0 < y.toNat := Nat.pos_of_ne_zero fun h => hy (BitVec.eq_of_toNat_eq h)
    have hpow : 2 ^ 64 ≤ 2 ^ d := Nat.pow_le_pow_right Nat.two_pos (by omega)
    exact (stickyShift_of_lt hpos (y.isLt.trans_le hpow)).symm

namespace Widens

variable {x z : Word} {ex ez : ℤ} {m n : ℕ}

theorem unit_pos (e : ℤ) : (0 : ℚ) < 2 ^ (e - 1078) := by positivity

theorem abs_pos (h : Widens x ex m) : 0 < |value x| := by
  have hsig : (0 : ℚ) < m := by exact_mod_cast (by have := h.sig_ge; omega : 0 < m)
  rw [h.abs_eq]
  exact mul_pos hsig (unit_pos ex)

/-- The operand of larger magnitude has the larger exponent. -/
theorem exp_le_of_abs_le (hx : Widens x ex m) (hz : Widens z ez n) (hle : |value z| ≤ |value x|) :
    ez ≤ ex := by
  by_contra hlt
  have hm : (m : ℚ) < 2 ^ 56 := by exact_mod_cast (by have := hx.sig_le; omega : m < 2 ^ 56)
  have hn : (2 : ℚ) ^ 55 ≤ n := by exact_mod_cast hz.sig_ge
  have hstep : (2 : ℚ) ^ (ex - 1078) * 2 ≤ 2 ^ (ez - 1078) := by
    rw [← zpow_add_one₀ two_ne_zero]
    exact zpow_le_zpow_right₀ one_le_two (by omega)
  have hupper : |value x| < 2 ^ 56 * 2 ^ (ex - 1078) := by
    rw [hx.abs_eq]
    exact mul_lt_mul_of_pos_right hm (unit_pos ex)
  have hlower : 2 ^ 55 * 2 ^ (ez - 1078) ≤ |value z| := by
    rw [hz.abs_eq]
    exact mul_le_mul_of_nonneg_right hn (unit_pos ez).le
  linarith

/-- At one exponent, magnitudes compare as significands. -/
theorem sig_le_of_abs_le (hx : Widens x ex m) (hz : Widens z ex n) (hle : |value z| ≤ |value x|) :
    n ≤ m := by
  rw [hx.abs_eq, hz.abs_eq, mul_le_mul_iff_left₀ (unit_pos ex)] at hle
  exact_mod_cast hle

/-- The smaller operand's magnitude in the larger one's unit. -/
theorem abs_div_eq (hz : Widens z ez n) {d : ℕ} (hd : ex = ez + d) :
    |value z| / 2 ^ (ex - 1078) = n / 2 ^ d := by
  have hunit := unit_eq_mul (e := ex - 1078) (f := ez - 1078) d (by rw [hd]; ring)
  rw [hz.abs_eq, hunit, mul_comm, mul_div_mul_left _ _ (unit_pos ez).ne']

/-- The aligned significand is below the leading bit's place, or is not shifted at all. -/
theorem stickyShift_le (hx : Widens x ex m) (hz : Widens z ez n) (hle : |value z| ≤ |value x|)
    {d : ℕ} (hd : ex = ez + d) :
    stickyShift n d ≤ m ∧ (d ≠ 0 → stickyShift n d < 2 ^ 55) := by
  have hm := hx.sig_ge
  have hn := hz.sig_le
  have hshifted (hpos : d ≠ 0) : stickyShift n d < 2 ^ 55 := by
    have hpow : 2 ^ 1 ≤ 2 ^ d := Nat.pow_le_pow_right Nat.two_pos (by omega)
    exact stickyShift_lt (x := n) (n := d) (m := 2 ^ 54) (by omega)
  refine ⟨?_, hshifted⟩
  obtain rfl | hpos := Nat.eq_zero_or_pos d
  · obtain rfl : ex = ez := by simpa using hd
    rw [stickyShift_zero]
    exact hx.sig_le_of_abs_le hz hle
  · have := hshifted hpos.ne'
    omega

end Widens

/-- The aligned significand, by the distance of the exponents. -/
theorem alignedSmaller_toNat {w : ℕ} (hw : 14 ≤ w) {x z : Word} (hz : special z = false) {d : ℕ}
    (hd : (unpack w x).1 = (unpack w z).1 + d) :
    (alignedSmaller w x z).toNat = stickyShift (widenedLarger w z).toNat d := by
  have hex := unpack_exp_bounds hw x
  have hez := unpack_exp_bounds hw z
  have hpos := (widens hw hz).sig_ge
  have hdist : expWrap w ((unpack w x).1 - (unpack w z).1) = d := by
    rw [expWrap_eq hw (by omega) (by omega)]
    omega
  rw [alignedSmaller, hdist, align_toNat]
  · rfl
  · intro h
    rw [widenedLarger, h] at hpos
    exact absurd hpos (by decide)

/-- Settles O39: by the order of the magnitudes, in the unit of the larger operand's exponent. -/
theorem alignedOperandIsNotLarger : Obligations.AlignedOperandIsNotLarger := by
  intro w a b hw ha hb x z
  obtain ⟨hx, hz⟩ : special x = false ∧ special z = false := special_ordered ha hb
  have hwx := widens hw hx
  have hwz := widens hw hz
  have hle := abs_value_smaller_le a b
  have hexp := hwx.exp_le_of_abs_le hwz hle
  obtain ⟨d, hd⟩ := Int.le.dest hexp
  obtain ⟨hsig, hshifted⟩ := hwx.stickyShift_le hwz hle hd.symm
  rw [BitVec.le_def, alignedSmaller_toNat hw hz hd.symm]
  exact ⟨hexp, hsig, hwx.sig_ge, hwx.sig_le, fun hlt => hshifted (by omega)⟩

end Sys2Proof.Machine
end

section
/-! The end of the adder (41_fp_adder.md R74 to R76): a significand that stands for the exact magnitude
is packed and rounded to the pattern of `RNE64`. -/

namespace Sys2Proof.Machine

open Sys2Proof

/-! ## Packing -/

/-- The packed pattern before rounding, from its fields. -/
theorem packed_eq_recompose (s : BitVec 1) (e : ℤ) (n : Word) :
    ((n >>> 3) &&& sigMask) ||| expToField e ||| signWord s =
      recompose s (BitVec.ofInt 11 e) ((n >>> 3).setWidth 52) := by
  have hsig : (n >>> 3) &&& sigMask = ((n >>> 3).setWidth 52).setWidth 64 := by
    have hmask : sigMask.toNat = 2 ^ 52 - 1 := by decide
    apply BitVec.eq_of_toNat_eq
    rw [BitVec.toNat_and, hmask, Nat.and_two_pow_sub_one_eq_mod, BitVec.toNat_setWidth,
      BitVec.toNat_setWidth]
    omega
  rw [hsig, BitVec.or_comm, BitVec.or_comm (BitVec.setWidth 64 _), ← BitVec.or_assoc]
  rfl

/-- The packed pattern as a number, with `k` the exponent field less one, or 0 in the subnormal range:
the leading bit of the significand counts as one in the exponent field. -/
theorem packed_toNat (s : BitVec 1) {e : ℤ} {n : Word} {k : ℕ} (hk : k ≤ 2045)
    (he : (e = k + 1 ∧ 2 ^ 55 ≤ n.toNat ∧ n.toNat < 2 ^ 56) ∨ (e = 0 ∧ k = 0 ∧ n.toNat < 2 ^ 55)) :
    (((n >>> 3) &&& sigMask) ||| expToField e ||| signWord s).toNat =
      s.toNat * 2 ^ 63 + (k * 2 ^ 52 + n.toNat / 8) := by
  have hexp : (BitVec.ofInt 11 e).toNat = (e % 2 ^ 11).toNat := by simp
  rw [packed_eq_recompose, recompose_toNat, hexp, BitVec.toNat_setWidth, BitVec.toNat_ushiftRight,
    Nat.shiftRight_eq_div_pow]
  omega

/-! ## Rounding -/

/-- The increment on guard, round and sticky bit is that of the exact fraction they stand for. -/
theorem roundIncrement_toNat {n packed : Word} {t : ℚ} (h : SameSide 4 n.toNat t)
    (hodd : packed.toNat % 2 = n.toNat / 8 % 2) :
    (roundIncrement packed (categoryOfGrs (n &&& 7#64))).toNat =
      halfEvenIncrement (n.toNat / 8) (t / 8 - (n.toNat / 8 : ℕ)) := by
  have hgrs : (n &&& 7#64).toNat = n.toNat % 8 := by
    rw [BitVec.toNat_and]
    exact Nat.and_two_pow_sub_one_eq_mod n.toNat 3
  have hhalf : (1 / 2 + (n.toNat / 8 : ℕ) : ℚ) * 8 = 4 * (2 * (n.toNat / 8 : ℕ) + 1) := by ring
  have hbelow : t / 8 - (n.toNat / 8 : ℕ) < 1 / 2 ↔ n.toNat % 8 < 4 := by
    have hpoint := h.lt_iff (2 * (n.toNat / 8) + 1)
    push_cast at hpoint
    rw [sub_lt_iff_lt_add, div_lt_iff₀ (by norm_num), hhalf, ← hpoint]
    omega
  have habove : 1 / 2 < t / 8 - (n.toNat / 8 : ℕ) ↔ 4 < n.toNat % 8 := by
    have hpoint := h.gt_iff (2 * (n.toNat / 8) + 1)
    push_cast at hpoint
    rw [lt_sub_iff_add_lt, lt_div_iff₀ (by norm_num), hhalf, ← hpoint]
    omega
  rw [categoryOfGrs_eq, hgrs, halfEvenIncrement]
  simp only [hbelow, habove]
  rcases lt_trichotomy (n.toNat % 8) 4 with hlt | heq | hgt
  · rw [if_neg (by omega), if_neg (by omega), if_pos hlt]
    rfl
  · rw [if_neg (by omega), if_pos heq, if_neg (by omega), if_neg (by omega), ← hodd, roundIncrement,
      BitVec.toNat_and]
    exact Nat.and_one_is_mod _
  · rw [if_pos hgt, if_neg (by omega), if_pos hgt]
    rfl

/-- The parts of the exact magnitude that a significand in units of `2 ^ (k - 1077)` stands for. -/
theorem RoundingParts.of_sameSide {n k : ℕ} {v t : ℚ} (hn : n < 2 ^ 56) (hk : k = 0 ∨ 2 ^ 55 ≤ n)
    (h : SameSide 4 n t) (hv : v = t * 2 ^ ((k : ℤ) - 1077)) :
    RoundingParts v k (n / 8) (t / 8 - (n / 8 : ℕ)) := by
  have hlow := (h.le_iff (2 * (n / 8))).mp (by omega)
  have hhigh := (h.lt_iff (2 * (n / 8 + 1))).mp (by omega)
  push_cast at hlow hhigh
  refine ⟨by omega, by omega, ?_, ?_, ?_⟩
  · linarith
  · linarith
  · rw [hv, unit_eq_mul (e := (k : ℤ) - 1074) (f := (k : ℤ) - 1077) 3 (by push_cast; ring)]
    ring

/-- Packing and rounding a significand that stands for the exact magnitude. -/
theorem packRound_eq (s : BitVec 1) {e : ℤ} {n : Word} {k : ℕ} {v t : ℚ} (hk : k ≤ 2045)
    (he : (e = k + 1 ∧ 2 ^ 55 ≤ n.toNat ∧ n.toNat < 2 ^ 56) ∨ (e = 0 ∧ k = 0 ∧ n.toNat < 2 ^ 55))
    (h : SameSide 4 n.toNat t) (hv : v = t * 2 ^ ((k : ℤ) - 1077)) :
    packRound (signWord s) e n = rne64 s v := by
  have hparts := RoundingParts.of_sameSide (by omega) (by omega) h hv
  have hpacked := packed_toNat s hk he
  have hs := s.isLt
  rw [hparts.rne64_eq, packRound]
  generalize ((n >>> 3) &&& sigMask) ||| expToField e ||| signWord s = packed at hpacked
  have hfin : isFinite packed = true := by
    rw [isFinite_iff]
    omega
  have hinc := roundIncrement_toNat (packed := packed) h (by omega)
  have hle := halfEvenIncrement_le (n.toNat / 8) (t / 8 - (n.toNat / 8 : ℕ))
  have hinf := infPattern_toNat
  apply BitVec.eq_of_toNat_eq
  rw [roundPacked_toNat hfin, hpacked, hinc, min_eq_right (by unfold roundedNumber; omega),
    signWord_or_toNat s (by rw [BitVec.toNat_ofNat]; unfold roundedNumber; omega),
    BitVec.toNat_ofNat, roundedNumber]
  omega

/-! ## Overflow and underflow -/

/-- The exponent `e` and the significand `n`, with its leading bit in bit 55, stand for the
magnitude `v`. -/
structure StandsFor (e : ℤ) (n : ℕ) (v : ℚ) : Prop where
  sig_ge : 2 ^ 55 ≤ n
  sig_lt : n < 2 ^ 56
  sameSide : SameSide 4 n (v / 2 ^ (e - 1078))

theorem StandsFor.eq_mul {e : ℤ} {n : ℕ} {v : ℚ} (_ : StandsFor e n v) :
    v = v / 2 ^ (e - 1078) * 2 ^ (e - 1078) :=
  (div_mul_cancel₀ v (by positivity)).symm

/-- The underflow shift of at least one bit leaves a significand of the subnormal range that still
stands for the magnitude. -/
theorem packRound_underflow (s : BitVec 1) {e : ℤ} {n : Word} {v : ℚ} (h : StandsFor e n.toNat v)
    {d : ℕ} (hd : e + d = 1) (hpos : 1 ≤ d) (hle : d ≤ 64) :
    packRound (signWord s) 0 (shrSticky64 n d) = rne64 s v := by
  have hlt := h.sig_lt
  have hpow : 2 ^ 1 ≤ 2 ^ d := Nat.pow_le_pow_right Nat.two_pos hpos
  have hsmall : stickyShift n.toNat d < 2 ^ 55 :=
    stickyShift_lt (x := n.toNat) (n := d) (m := 2 ^ 54) (by omega)
  have hdvd : 2 ^ 1 ∣ 2 ^ d := pow_dvd_pow 2 hpos
  have hside := (h.sameSide.shift (mul_dvd_mul_left 2 hdvd)).mul_left 2
  have hunit := unit_eq_mul (e := ((0 : ℕ) : ℤ) - 1077) (f := e - 1078) d (by omega)
  rw [← shrSticky64_toNat_eq n hle] at hsmall hside
  refine packRound_eq s (k := 0) (by omega) (.inr ⟨rfl, rfl, hsmall⟩) hside ?_
  rw [hunit, mul_comm (2 ^ (e - 1078)), ← mul_assoc, div_mul_cancel₀ _ (by positivity)]
  exact h.eq_mul

/-- The end of the adder rounds the magnitude its significand stands for, if the underflow shift is
one that the sticky shift has a meaning for. -/
theorem addFinish_eq {w : ℕ} (hw : 14 ≤ w) (s : BitVec 1) {e : ℤ} {n : Word} {v : ℚ}
    (h : StandsFor e n.toNat v) (hlow : -51 ≤ e) (hhigh : e ≤ 2048) :
    addFinish w (signWord s) e n = rne64 s v := by
  have hge := h.sig_ge
  have hv := h.eq_mul
  unfold addFinish
  split_ifs with hover hunder
  · obtain ⟨k, hk⟩ := Int.le.dest (show 1 ≤ e by omega)
    have hscale : e - 1078 = k - 1077 := by omega
    have hparts := RoundingParts.of_sameSide (v := v) (k := k) h.sig_lt (.inr hge) h.sameSide
      (by rwa [← hscale])
    rw [hparts.rne64_eq, BitVec.or_comm, min_eq_left, BitVec.ofNat_toNat, BitVec.setWidth_eq]
    rw [roundedNumber, infPattern_toNat]
    omega
  · obtain ⟨d, hd⟩ := Int.le.dest (show e ≤ 1 by omega)
    have hwrap : underflowShift w e = d := by
      rw [underflowShift, expWrap_eq hw (by omega) (by omega)]
      omega
    rw [hwrap]
    exact packRound_underflow s h hd (by omega) (by omega)
  · obtain ⟨k, hk⟩ := Int.le.dest (show 1 ≤ e by omega)
    have hscale : e - 1078 = k - 1077 := by omega
    exact packRound_eq s (k := k) (by omega) (.inl ⟨by omega, hge, h.sig_lt⟩) h.sameSide
      (by rwa [← hscale])

end Sys2Proof.Machine
end

section
/-! The adder's generic path (41_fp_adder.md R67 to R77): what the combined significand stands for,
and from it that the path rounds the exact sum. -/

namespace Sys2Proof.Machine

open Sys2Proof

/-! ## Combining -/

/-- Moving `d` bits to the exponent scales what the significand stands for. -/
theorem div_zpow_sub (v : ℚ) (e : ℤ) (d : ℕ) :
    v / 2 ^ (e - d - 1078) = v / 2 ^ (e - 1078) * 2 ^ d := by
  rw [unit_eq_mul (e := e - 1078) (f := e - d - 1078) d (by ring), ← div_div,
    div_mul_cancel₀ _ (by positivity)]

/-- The carry shift of the effective addition is a sticky shift by one. -/
theorem carryShift_eq (x : Word) : (x >>> 1) ||| (x &&& 1#64) = shrSticky64 x 1 := by
  apply BitVec.eq_of_toNat_eq
  have hodd : (x &&& 1#64).toNat = stickyBit x.toNat 1 := by
    rw [BitVec.toNat_and, stickyBit]
    exact (Nat.and_one_is_mod _).trans (by split <;> omega)
  rw [shrSticky64_toNat x (by decide), BitVec.toNat_or, hodd, BitVec.toNat_ushiftRight,
    Nat.shiftRight_eq_div_pow]

theorem and_carryBit_iff {x : Word} (h : x.toNat < 2 ^ 57) :
    x &&& (implBit <<< 4) ≠ 0#64 ↔ 2 ^ 56 ≤ x.toNat := by
  have hbit : (implBit <<< 4 : Word) = BitVec.twoPow 64 56 := by decide
  have htest : x.getLsbD 56 = true ↔ 2 ^ 56 ≤ x.toNat := by
    rw [BitVec.getLsbD, Nat.testBit_eq_decide_div_mod_eq, decide_eq_true_eq]
    omega
  rw [hbit, BitVec.and_twoPow, ← htest]
  split
  next hset => simpa [hset] using (by decide : BitVec.twoPow 64 56 ≠ 0#64)
  next hclear => simpa using hclear

theorem addCombine_standsFor {w : ℕ} (hw : 14 ≤ w) {e : ℤ} (hlow : -51 ≤ e) (hhigh : e ≤ 2046)
    {a b : Word} {v : ℚ} (hge : 2 ^ 55 ≤ a.toNat + b.toNat) (hlt : a.toNat + b.toNat < 2 ^ 57)
    (h : SameSide 2 (a.toNat + b.toNat) (v / 2 ^ (e - 1078))) :
    StandsFor (addCombine w e a b).1 (addCombine w e a b).2.toNat v := by
  have hsum : (a + b).toNat = a.toNat + b.toNat := by
    rw [BitVec.toNat_add, Nat.mod_eq_of_lt (by omega)]
  rw [← hsum] at hge hlt h
  unfold addCombine
  dsimp only
  split_ifs with hcarry
  · rw [and_carryBit_iff hlt] at hcarry
    have hnum := shrSticky64_toNat_eq (a + b) (n := 1) (by decide)
    have hscale := div_zpow_sub v (e + 1) 1
    have hmagnitude : v / 2 ^ (e + 1 - 1078) = v / 2 ^ (e - 1078) / 2 ^ 1 := by
      rw [eq_div_iff (by norm_num), ← hscale]
      congr 2
      ring
    have hsize := stickyShift_eq (a + b).toNat 1
    rw [carryShift_eq, hnum, expWrap_eq hw (by omega) (by omega)]
    have hside := (h.shift (d := 1) (by decide)).mul_left 2
    refine ⟨?_, ?_, hmagnitude ▸ hside⟩ <;> split at hsize <;> omega
  · rw [and_carryBit_iff hlt] at hcarry
    exact ⟨hge, not_le.mp hcarry, h.mul_left 2⟩

theorem clz64_leadingPlace : clz64 (implBit <<< 3) = 8 := by decide

/-- The left shift by the leading zeros beyond bit 55 puts the leading bit there and loses none. -/
theorem leftNormalize_spec {x : Word} (hne : x ≠ 0#64) (hlt : x.toNat < 2 ^ 55) :
    1 ≤ clz64 x - 8 ∧ clz64 x - 8 ≤ 55 ∧ (x <<< (clz64 x - 8)).toNat = x.toNat * 2 ^ (clz64 x - 8) ∧
      2 ^ 55 ≤ x.toNat * 2 ^ (clz64 x - 8) ∧ x.toNat * 2 ^ (clz64 x - 8) < 2 ^ 56 := by
  obtain ⟨hclz, hlead, htop⟩ := clz64_spec hne
  have hnine : 9 ≤ clz64 x := by
    by_contra hsmall
    have hpow : 2 ^ 55 ≤ 2 ^ (63 - clz64 x) := Nat.pow_le_pow_right Nat.two_pos (by omega)
    omega
  have hlow : 2 ^ 55 ≤ x.toNat * 2 ^ (clz64 x - 8) :=
    calc 2 ^ 55 = 2 ^ (63 - clz64 x) * 2 ^ (clz64 x - 8) := by rw [← pow_add]; congr 1; omega
      _ ≤ _ := Nat.mul_le_mul_right _ hlead
  have hhigh : x.toNat * 2 ^ (clz64 x - 8) < 2 ^ 56 :=
    calc _ < 2 ^ (64 - clz64 x) * 2 ^ (clz64 x - 8) :=
          Nat.mul_lt_mul_of_pos_right htop (by positivity)
      _ = 2 ^ 56 := by rw [← pow_add]; congr 1; omega
  refine ⟨by omega, by omega, ?_, hlow, hhigh⟩
  rw [BitVec.toNat_shiftLeft, Nat.shiftLeft_eq, Nat.mod_eq_of_lt (by omega)]

/-- Left-normalizing is exact: a shift by one keeps the side, and a larger one comes only after an
exact subtraction. -/
theorem StandsFor.of_leftShift {e : ℤ} {n shift : ℕ} {v : ℚ} (hshift : 1 ≤ shift)
    (hge : 2 ^ 55 ≤ n * 2 ^ shift) (hlt : n * 2 ^ shift < 2 ^ 56)
    (h : SameSide 2 n (v / 2 ^ (e - 1078))) (hexact : n < 2 ^ 54 → v / 2 ^ (e - 1078) = n) :
    StandsFor (e - shift) (n * 2 ^ shift) v := by
  refine ⟨hge, hlt, ?_⟩
  rw [div_zpow_sub]
  obtain rfl | hlarge : shift = 1 ∨ 2 ≤ shift := by omega
  · exact_mod_cast h.scale (k := 2 ^ 1) (by decide)
  · have hpow : 2 ^ 2 ≤ 2 ^ shift := Nat.pow_le_pow_right Nat.two_pos hlarge
    have hsmall : n < 2 ^ 54 := by
      by_contra hbig
      have := Nat.mul_le_mul (not_lt.mp hbig) hpow
      omega
    rw [hexact hsmall]
    exact_mod_cast SameSide.self 4 (n * 2 ^ shift)

theorem subCombine_standsFor {w : ℕ} (hw : 14 ≤ w) {e : ℤ} (hlow : -51 ≤ e) (hhigh : e ≤ 2046)
    {a b : Word} {v : ℚ} (hpos : b.toNat < a.toNat) (hlt : a.toNat - b.toNat < 2 ^ 56)
    (h : SameSide 2 (a.toNat - b.toNat) (v / 2 ^ (e - 1078)))
    (hexact : a.toNat - b.toNat < 2 ^ 54 → v / 2 ^ (e - 1078) = (a.toNat - b.toNat : ℕ)) :
    StandsFor (subCombine w e a b).1 (subCombine w e a b).2.toNat v := by
  have hdiff : (a - b).toNat = a.toNat - b.toNat := BitVec.toNat_sub_of_le (by bv_omega)
  have hplace : (implBit <<< 3).toNat = 2 ^ 55 := by decide
  rw [← hdiff] at hlt h hexact
  unfold subCombine
  simp only [BitVec.lt_def, hplace, clz64_leadingPlace]
  split_ifs with hcancel
  · have hne : a - b ≠ 0#64 := by bv_omega
    obtain ⟨hshift, hmax, hnum, hge, htop⟩ := leftNormalize_spec hne hcancel
    rw [expWrap_eq hw (by omega) (by omega), hnum]
    exact .of_leftShift hshift hge htop h hexact
  · exact ⟨not_lt.mp hcancel, hlt, h.mul_left 2⟩

/-! ## The operands' magnitudes in the larger one's unit -/

namespace Widens

variable {x z : Word} {ex ez : ℤ} {m n d : ℕ}

theorem abs_div_self (hx : Widens x ex m) : |value x| / 2 ^ (ex - 1078) = m := by
  rw [hx.abs_eq, mul_div_cancel_right₀ _ (unit_pos ex).ne']

/-- The aligned significand stands for the smaller operand's magnitude. -/
theorem sameSide_stickyShift (hz : Widens z ez n) (hd : ex = ez + d) :
    SameSide 2 (stickyShift n d) (|value z| / 2 ^ (ex - 1078)) := by
  rw [hz.abs_div_eq hd]
  exact (SameSide.self 2 n).shift (Dvd.intro _ rfl)

/-- An alignment by up to three bits loses none. -/
theorem abs_div_eq_stickyShift (hz : Widens z ez n) (hd : ex = ez + d) (hnear : d ≤ 3) :
    |value z| / 2 ^ (ex - 1078) = stickyShift n d := by
  have hdvd : 2 ^ d ∣ n := (pow_dvd_pow 2 hnear).trans hz.dvd
  rw [hz.abs_div_eq hd, stickyShift_eq, if_pos (Nat.mod_eq_zero_of_dvd hdvd), Nat.cast_div hdvd]
  · push_cast
    rfl
  · positivity

/-- A difference with two leading zeros or more comes of operands whose exponents differ by at most
one. -/
theorem dist_le_one (hx : Widens x ex m) (hz : Widens z ez n)
    (hsmall : m - stickyShift n d < 2 ^ 54) : d ≤ 1 := by
  by_contra hfar
  have hm := hx.sig_ge
  have hn := hz.sig_le
  have hpow : 2 ^ 2 ≤ 2 ^ d := Nat.pow_le_pow_right Nat.two_pos (by omega)
  have hshifted := stickyShift_lt (x := n) (n := d) (m := 2 ^ 53) (by omega)
  omega

end Widens

/-! ## The sum -/

/-- The magnitude of the sum of operands in the adder's order. -/
def combinedMagnitude (x z : Word) : ℚ :=
  if isSubtraction x z then |value x| - |value z| else |value x| + |value z|

theorem value_add_eq (x z : Word) :
    value x + value z =
      if signField x = 1#1 then -combinedMagnitude x z else combinedMagnitude x z := by
  have hx := value_eq_abs x
  have hz := value_eq_abs z
  unfold combinedMagnitude
  simp only [isSubtraction_iff]
  generalize |value x| = X at *
  generalize |value z| = Z at *
  rw [hx, hz]
  rcases signField_cases x with sx | sx <;> rcases signField_cases z with sz | sz <;>
    simp [sx, sz] <;> ring

section Ordered

variable {x z : Word} (hle : |value z| ≤ |value x|)

include hle

theorem combinedMagnitude_nonneg : 0 ≤ combinedMagnitude x z := by
  have hz := abs_nonneg (value z)
  unfold combinedMagnitude
  split <;> linarith

theorem abs_value_add : |value x + value z| = combinedMagnitude x z := by
  have hnonneg := combinedMagnitude_nonneg hle
  rw [value_add_eq]
  split
  · rw [abs_neg, abs_of_nonneg hnonneg]
  · exact abs_of_nonneg hnonneg

/-- A sum that is not zero has the sign of the operand of larger magnitude. -/
theorem signOf_value_add (hne : value x + value z ≠ 0) :
    signOf (value x + value z) = signField x := by
  have hnonneg := combinedMagnitude_nonneg hle
  rw [value_add_eq] at hne ⊢
  unfold signOf
  rcases signField_cases x with sx | sx <;> simp only [sx] at hne ⊢
  · exact if_neg (not_lt.mpr hnonneg)
  · have hpos : combinedMagnitude x z ≠ 0 := neg_ne_zero.mp hne
    exact if_pos (neg_lt_zero.mpr (lt_of_le_of_ne hnonneg hpos.symm))

end Ordered

theorem addCombined_standsFor {w : ℕ} (hw : 14 ≤ w) {x z : Word} (hx : special x = false)
    (hz : special z = false) (hle : |value z| ≤ |value x|)
    (hcancel : ¬ (isSubtraction x z = true ∧ widenedLarger w x = alignedSmaller w x z)) :
    StandsFor (addCombined w x z).1 (addCombined w x z).2.toNat |value x + value z| := by
  have hwx := widens hw hx
  have hwz := widens hw hz
  obtain ⟨d, hd⟩ := Int.le.dest (hwx.exp_le_of_abs_le hwz hle)
  have hsmaller := alignedSmaller_toNat hw hz hd.symm
  obtain ⟨hsig, _⟩ := hwx.stickyShift_le hwz hle hd.symm
  have hside := hwz.sameSide_stickyShift hd.symm
  have hge := hwx.sig_ge
  have hlt := hwx.sig_le
  obtain ⟨a, ha⟩ : 2 ∣ (widenedLarger w x).toNat := (by decide : 2 ∣ 8).trans hwx.dvd
  have hlow := hwx.exp_ge
  have hhigh := hwx.exp_le
  rw [abs_value_add hle]
  unfold addCombined combinedMagnitude
  split_ifs with hsub
  · have hne : (widenedLarger w x).toNat ≠ (alignedSmaller w x z).toNat := fun h =>
      hcancel ⟨hsub, BitVec.eq_of_toNat_eq h⟩
    apply subCombine_standsFor hw hlow hhigh <;> rw [hsmaller] at *
    · omega
    · omega
    · rw [sub_div, hwx.abs_div_self, ha]
      exact hside.sub_even (ha ▸ hsig)
    · intro hsmall
      have hnear := hwx.dist_le_one hwz hsmall
      rw [sub_div, hwx.abs_div_self, hwz.abs_div_eq_stickyShift hd.symm (by omega),
        Nat.cast_sub hsig]
  · apply addCombine_standsFor hw hlow hhigh <;> rw [hsmaller]
    · omega
    · omega
    · rw [add_div, hwx.abs_div_self, ha]
      exact hside.add_even a

/-! ## Subnormal sums -/

/-- Every value is a whole number of the smallest subnormal. -/
theorem exists_value_eq_int (x : Word) : ∃ n : ℤ, value x = n * 2 ^ (-1074 : ℤ) := by
  obtain ⟨k, n, hm, hn, hk⟩ := exists_parts_of_nat (x.toNat % 2 ^ 63)
  have hunit := unit_eq_mul (e := (k : ℤ) - 1074) (f := -1074) k (by ring)
  refine ⟨(if signField x = 1#1 then -1 else 1) * (n * 2 ^ k), ?_⟩
  rw [value_eq, hm, magnitudeOf_parts hn.le hk, hunit]
  generalize (2 : ℚ) ^ (-1074 : ℤ) = unit
  push_cast
  ring

theorem exists_abs_add_eq_nat (x z : Word) :
    ∃ n : ℕ, |value x + value z| = n * 2 ^ (-1074 : ℤ) := by
  obtain ⟨m, hm⟩ := exists_value_eq_int x
  obtain ⟨n, hn⟩ := exists_value_eq_int z
  have hunit : (0 : ℚ) < 2 ^ (-1074 : ℤ) := by positivity
  refine ⟨(m + n).natAbs, ?_⟩
  rw [hm, hn, ← add_mul, abs_mul, abs_of_pos hunit, Nat.cast_natAbs, Int.cast_abs, Int.cast_add]

namespace StandsFor

variable {e : ℤ} {n : ℕ} {v : ℚ}

theorem pos (h : StandsFor e n v) : 0 < v := by
  have hge := (h.sameSide.le_iff (2 ^ 53)).mp (by have := h.sig_ge; omega)
  have hunit : (0 : ℚ) < 2 ^ (e - 1078) := by positivity
  by_contra hneg
  have := div_nonpos_of_nonpos_of_nonneg (not_lt.mp hneg) hunit.le
  norm_num at hge
  linarith

/-- A whole number of the smallest subnormal, other than zero, has no exponent below -51. -/
theorem exp_ge (h : StandsFor e n v) {m : ℕ} (hv : v = m * 2 ^ (-1074 : ℤ)) : -51 ≤ e := by
  have hlt := (h.sameSide.lt_iff (2 ^ 54)).mp (by have := h.sig_lt; omega)
  have hpos := h.pos
  have hunit : (0 : ℚ) < 2 ^ (-1074 : ℤ) := by positivity
  have hm : (1 : ℚ) ≤ m := by
    rw [hv] at hpos
    exact_mod_cast Nat.cast_pos.mp (pos_of_mul_pos_left hpos hunit.le)
  have htop : ((4 * 2 ^ 54 : ℕ) : ℚ) * 2 ^ (e - 1078) = 2 ^ (e - 1022) := by
    rw [unit_eq_mul (e := e - 1022) (f := e - 1078) 56 (by push_cast; ring)]
    push_cast
    ring
  rw [div_lt_iff₀ (by positivity), htop] at hlt
  have hpow : (2 : ℚ) ^ (-1074 : ℤ) < 2 ^ (e - 1022) :=
    calc (2 : ℚ) ^ (-1074 : ℤ) ≤ m * 2 ^ (-1074 : ℤ) := le_mul_of_one_le_left hunit.le hm
      _ < 2 ^ (e - 1022) := hv ▸ hlt
  have := (zpow_lt_zpow_iff_right₀ one_lt_two).mp hpow
  omega

end StandsFor

theorem addCombined_exp_ge {w : ℕ} (hw : 14 ≤ w) {x z : Word} (hx : special x = false)
    (hz : special z = false) (hle : |value z| ≤ |value x|)
    (hcancel : ¬ (isSubtraction x z = true ∧ widenedLarger w x = alignedSmaller w x z)) :
    -51 ≤ (addCombined w x z).1 := by
  obtain ⟨n, hn⟩ := exists_abs_add_eq_nat x z
  exact (addCombined_standsFor hw hx hz hle hcancel).exp_ge hn

/-- Settles O40: a sum with the exponent shifted out would be below the smallest subnormal. -/
theorem addUnderflowShiftIsInRange : Obligations.AddUnderflowShiftIsInRange := by
  intro w a b hw ha hb x z hcancel hunder
  obtain ⟨hx, hz⟩ : special x = false ∧ special z = false := special_ordered ha hb
  have hexp := addCombined_exp_ge hw hx hz (abs_value_smaller_le a b) hcancel
  rw [underflowShift, expWrap_eq hw (by omega) (by omega)]
  omega

/-! ## The generic path -/

/-- Exact cancellation leaves nothing: equal significands come of no shift, so the magnitudes are
equal. -/
theorem value_add_of_cancel {w : ℕ} (hw : 14 ≤ w) {x z : Word} (hx : special x = false)
    (hz : special z = false) (hle : |value z| ≤ |value x|) (hsub : isSubtraction x z = true)
    (heq : widenedLarger w x = alignedSmaller w x z) : value x + value z = 0 := by
  have hwx := widens hw hx
  have hwz := widens hw hz
  obtain ⟨d, hd⟩ := Int.le.dest (hwx.exp_le_of_abs_le hwz hle)
  obtain ⟨_, hshifted⟩ := hwx.stickyShift_le hwz hle hd.symm
  have hge := hwx.sig_ge
  have hsig : (widenedLarger w x).toNat = stickyShift (widenedLarger w z).toNat d :=
    heq ▸ alignedSmaller_toNat hw hz hd.symm
  have hnear : d = 0 := by
    by_contra hd0
    have := hshifted hd0
    omega
  have habs : |value x| = |value z| := by
    have hunit := Widens.unit_pos (unpack w x).1
    rw [← div_left_inj' hunit.ne', hwx.abs_div_self,
      hwz.abs_div_eq_stickyShift hd.symm (by omega), hsig]
  rw [← abs_eq_zero, abs_value_add hle, combinedMagnitude, if_pos hsub, habs, sub_self]

/-- What an exact value rounds to: `RNE64` of its sign and magnitude, and +0 for zero. -/
def roundedValue (v : ℚ) : Word :=
  if v = 0 then 0#64 else rne64 (signOf v) |v|

theorem roundedValue_of_ne {v : ℚ} (h : v ≠ 0) : roundedValue v = rne64 (signOf v) |v| :=
  if_neg h

@[simp] theorem roundedValue_zero : roundedValue 0 = 0#64 :=
  if_pos rfl

/-- The generic path on ordered operands rounds their exact sum. -/
theorem addOrdered_eq {w : ℕ} (hw : 14 ≤ w) {x z : Word} (hx : special x = false)
    (hz : special z = false) (hle : |value z| ≤ |value x|) :
    addOrdered w x z = roundedValue (value x + value z) := by
  by_cases hcancel : isSubtraction x z = true ∧ widenedLarger w x = alignedSmaller w x z
  · obtain ⟨hsub, heq⟩ := hcancel
    rw [value_add_of_cancel hw hx hz hle hsub heq, roundedValue_zero, addOrdered,
      if_pos (by simp [hsub, heq])]
  · have hstands := addCombined_standsFor hw hx hz hle hcancel
    obtain ⟨_, hhigh⟩ := addCombined_exp_bounds hw x z
    have hne : value x + value z ≠ 0 := abs_pos.mp hstands.pos
    rw [roundedValue_of_ne hne, addOrdered, if_neg (by simpa using hcancel), and_signMask_eq,
      signOf_value_add hle hne]
    exact addFinish_eq hw _ hstands (addCombined_exp_ge hw hx hz hle hcancel) hhigh

/-- ADD of operands neither of which is special. -/
theorem addEngine_of_generic {a b : Word} (ha : special a = false) (hb : special b = false)
    (p : NaNSign) (w : ℕ) :
    addEngine p w a b = addOrdered w (largerOperand a b) (smallerOperand a b) := by
  simp [addEngine, ha, hb]

theorem addEngine_eq_of_generic {w : ℕ} (hw : 14 ≤ w) {a b : Word} (ha : special a = false)
    (hb : special b = false) (p : NaNSign) :
    addEngine p w a b = roundedValue (value a + value b) := by
  obtain ⟨hx, hz⟩ := special_ordered ha hb
  rw [addEngine_of_generic ha hb, addOrdered_eq hw hx hz (abs_value_smaller_le a b)]
  obtain ⟨hlarger, hsmaller⟩ | ⟨hlarger, hsmaller⟩ := ordered_cases a b <;> rw [hlarger, hsmaller]
  rw [add_comm]

end Sys2Proof.Machine
end

section
/-! How a result of the unit function is delivered, and with it negation (41_fp_adder.md R80) and the
special path of ADD (R66). -/

namespace Sys2Proof.Machine

open Sys2Proof

/-! ## Delivery -/

/-- The unit delivers what its result function gives, in both forms. -/
theorem delivers_of_unitFunction {s : State} {i : Instr} {r : Word} (h : unitFunction s.cfg i = r) :
    Delivers s i r := by
  subst h
  refine ⟨exec_of_combinational i, fun hreg hreset hbusy => ⟨fun hlat => ?_, fun hlat hidle => ?_⟩⟩
  · rw [exec_eq_accept, accept, if_neg (by simp [hreg]), if_neg (by simp [hreset]), enterPipeline,
      if_neg hlat, pipeAfterRequest, if_pos hbusy, hbusy]
    rfl
  · rw [exec_eq_accept, accept, if_neg (by simp [hreg]), if_neg (by simp [hreset]), enterPipeline,
      if_pos hlat, if_neg (by simp [hidle]), if_pos hbusy, pipeAfterRequest, if_pos hbusy]
    rfl

theorem delivers_add {s : State} {a b r : Word}
    (h : addEngine s.cfg.nanSignAdd s.cfg.expw a b = r) : Delivers s (.add a b) r :=
  delivers_of_unitFunction h

theorem delivers_sub {s : State} {a b r : Word}
    (h : addEngine s.cfg.nanSignAdd s.cfg.expw a (negate b) = r) : Delivers s (.sub a b) r :=
  delivers_of_unitFunction h

/-! ## Negation -/

@[simp] theorem negate_negate (x : Word) : negate (negate x) = x := by
  simp [negate]

theorem signField_negate (x : Word) : signField (negate x) = signField x ^^^ 1#1 := by
  have hmask : signMask.extractLsb' 63 1 = 1#1 := by decide
  rw [signField, negate, BitVec.extractLsb'_xor, hmask, signField]

theorem expField_negate (x : Word) : expField (negate x) = expField x :=
  expField_xor_signMask x

theorem sigField_negate (x : Word) : sigField (negate x) = sigField x :=
  sigField_xor_signMask x

theorem signField_negate_ne (x : Word) : signField (negate x) ≠ signField x := by
  rw [signField_negate]
  rcases signField_cases x with h | h <;> rw [h] <;> decide

@[simp] theorem isZero_negate (x : Word) : isZero (negate x) = isZero x := by
  rw [isZero_eq_classify, isZero_eq_classify, negate, classify_xor_signMask]

@[simp] theorem special_negate (x : Word) : special (negate x) = special x := by
  rw [special_eq_classify, special_eq_classify, negate, classify_xor_signMask]

@[simp] theorem isFinite_negate (x : Word) : isFinite (negate x) = isFinite x := by
  rw [isFinite, isFinite, expField_negate]

theorem value_negate (x : Word) : value (negate x) = -value x := by
  rw [value, value, expField_negate, sigField_negate, signField_negate, ← neg_mul]
  congr 1
  rcases signField_cases x with h | h <;> rw [h] <;> simp

/-- Settles O45: the sign mask has no bit in the other fields. -/
theorem negFlipsOnlyTheSign : Obligations.NegFlipsOnlyTheSign := by
  intro s a b c
  exact ⟨rfl, delivers_of_unitFunction rfl, rfl, signField_negate_ne a, expField_negate a,
    sigField_negate a, classify_xor_signMask a, delivers_of_unitFunction (negate_negate a),
    fun _ => value_negate a⟩

/-! ## The special path -/

theorem special_eq_false_iff {x : Word} :
    special x = false ↔ isFinite x = true ∧ isZero x = false := by
  rw [← Bool.not_eq_true, ← Bool.not_eq_true, special_iff, isFinite_iff, isZero_iff]
  omega

theorem eq_of_isInf {x : Word} (h : isInf x = true) : x = infPattern ∨ x = negate infPattern := by
  have hinf := infPattern_toNat
  have hneg : (negate infPattern).toNat = 2 ^ 63 + 2047 * 2 ^ 52 := by decide
  have hlt := x.isLt
  rw [isInf_iff] at h
  simp only [BitVec.toNat_eq]
  omega

theorem isFinite_of_isZero {x : Word} (h : isZero x = true) : isFinite x = true := by
  rw [isZero_iff] at h
  rw [isFinite_iff]
  omega

section SpecialPath

variable {a b : Word} (p : NaNSign) (w : ℕ)

theorem addEngine_of_special (h : special a = true ∨ special b = true) :
    addEngine p w a b = addSpecial p a b := by
  simp [addEngine, h]

theorem addEngine_nan_left (ha : isNaN a = true) : addEngine p w a b = nanResult p a := by
  have hA := isNaN_iff.mp ha
  rw [addEngine_of_special p w (.inl (special_iff.mpr (by omega))), addSpecial, if_pos ha]

theorem addEngine_nan_right (ha : isNaN a = false) (hb : isNaN b = true) :
    addEngine p w a b = nanResult p b := by
  have hB := isNaN_iff.mp hb
  rw [addEngine_of_special p w (.inr (special_iff.mpr (by omega))), addSpecial,
    if_neg (Bool.not_eq_true _ ▸ ha), if_pos hb]

theorem addEngine_inf_inf (ha : isInf a = true) (hb : isInf b = true) :
    addEngine p w a b = if signField a = signField b then a else qnan := by
  rcases eq_of_isInf ha with rfl | rfl <;> rcases eq_of_isInf hb with rfl | rfl <;> rfl

theorem addEngine_inf_left (ha : isInf a = true) (hb : isFinite b = true) :
    addEngine p w a b = a := by
  have hA := isInf_iff.mp ha
  have hB := isFinite_iff.mp hb
  have hopposite : a ^^^ b ≠ signMask := by
    intro hxor
    obtain rfl : b = negate a := by
      rw [negate, ← hxor, ← BitVec.xor_assoc, BitVec.xor_self, BitVec.zero_xor]
    rw [isFinite_negate, isFinite_iff] at hb
    omega
  rw [addEngine_of_special p w (.inl (special_iff.mpr (by omega)))]
  simp only [addSpecial, isNaN_iff, isInf_iff, isZero_iff]
  rw [if_neg (by omega), if_neg (by omega), if_pos hA, if_neg hopposite]

theorem addEngine_inf_right (ha : isFinite a = true) (hb : isInf b = true) :
    addEngine p w a b = b := by
  have hA := isFinite_iff.mp ha
  have hB := isInf_iff.mp hb
  rw [addEngine_of_special p w (.inr (special_iff.mpr (by omega)))]
  simp only [addSpecial, isNaN_iff, isInf_iff, isZero_iff]
  rw [if_neg (by omega), if_neg (by omega), if_neg (by omega), if_pos hB]

theorem addSpecial_of_finite (ha : isFinite a = true) (hb : isFinite b = true) :
    addSpecial p a b = if isZero a then if isZero b then a &&& b else b else a := by
  rw [isFinite_iff] at ha hb
  simp only [addSpecial, isNaN_iff, isInf_iff]
  rw [if_neg (by omega), if_neg (by omega), if_neg (by omega), if_neg (by omega)]

theorem special_of_isZero {x : Word} (h : isZero x = true) : special x = true :=
  special_iff.mpr (.inl (isZero_iff.mp h))

theorem addEngine_zero_zero (ha : isZero a = true) (hb : isZero b = true) :
    addEngine p w a b = a &&& b := by
  rw [addEngine_of_special p w (.inl (special_of_isZero ha)),
    addSpecial_of_finite p (isFinite_of_isZero ha) (isFinite_of_isZero hb), if_pos ha, if_pos hb]

theorem addEngine_zero_left (ha : isZero a = true) (hb : isFinite b = true)
    (hb0 : isZero b = false) : addEngine p w a b = b := by
  rw [addEngine_of_special p w (.inl (special_of_isZero ha)),
    addSpecial_of_finite p (isFinite_of_isZero ha) hb, if_pos ha, if_neg (by simp [hb0])]

theorem addEngine_zero_right (ha : isFinite a = true) (ha0 : isZero a = false)
    (hb : isZero b = true) : addEngine p w a b = a := by
  rw [addEngine_of_special p w (.inr (special_of_isZero hb)),
    addSpecial_of_finite p ha (isFinite_of_isZero hb), if_neg (by simp [ha0])]

end SpecialPath

/-- Settles O36, row by row of the table. -/
theorem addSpecialCasesFollowTheTable : Obligations.AddSpecialCasesFollowTheTable := by
  intro s a b
  dsimp only
  simp only [← isNaN_eq_classify, ← isInf_eq_classify, ← isZero_eq_classify]
  exact ⟨fun ha => delivers_add (addEngine_nan_left _ _ ha),
    fun ha hb => delivers_add (addEngine_nan_right _ _ ha hb),
    fun ha hb hsign => delivers_add ((addEngine_inf_inf _ _ ha hb).trans (if_neg hsign)),
    fun ha hb hsign => delivers_add ((addEngine_inf_inf _ _ ha hb).trans (if_pos hsign)),
    fun ha hb => delivers_add (addEngine_inf_left _ _ ha hb),
    fun ha hb => delivers_add (addEngine_inf_right _ _ ha hb),
    fun ha hb => delivers_add (addEngine_zero_zero _ _ ha hb),
    fun ha hb hb0 => delivers_add (addEngine_zero_left _ _ ha hb hb0),
    fun ha ha0 hb => delivers_add (addEngine_zero_right _ _ ha ha0 hb)⟩

end Sys2Proof.Machine
end

section
/-! ADD and SUB of finite operands (41_fp_adder.md R75, R77, R79): the exact sum, rounded. -/

namespace Sys2Proof.Machine

open Sys2Proof

/-! ## Sums of finite operands -/

theorem value_of_isZero {x : Word} (h : isZero x = true) : value x = 0 := by
  rw [← abs_eq_zero, abs_value, and_absMask_toNat, isZero_iff.mp h, magnitudeOf_zero]

/-- A finite nonzero pattern is what its own value rounds to. -/
theorem roundedValue_value {x : Word} (hx : isFinite x = true) (hx0 : isZero x = false) :
    roundedValue (value x) = x := by
  have hpos := (widens le_rfl (special_eq_false_iff.mpr ⟨hx, hx0⟩)).abs_pos
  have hsign : signOf (value x) = signField x := by
    rw [value_eq_abs x]
    unfold signOf
    rcases signField_cases x with sx | sx <;> simp only [sx]
    · exact if_neg (not_lt.mpr hpos.le)
    · exact if_pos (neg_lt_zero.mpr hpos)
  rw [roundedValue_of_ne (abs_pos.mp hpos), hsign]
  exact referenceRoundingFixesFinitePatterns x hx

/-- ADD of finite operands, not both zero, is the exact sum rounded. -/
theorem addEngine_eq_roundedValue {w : ℕ} (hw : 14 ≤ w) {a b : Word} (hfin : bothFinite a b)
    (hne : isZero a = false ∨ isZero b = false) (p : NaNSign) :
    addEngine p w a b = roundedValue (value a + value b) := by
  obtain ⟨ha, hb⟩ := hfin
  cases ha0 : isZero a with
  | true =>
    have hb0 : isZero b = false := hne.resolve_left (by simp [ha0])
    rw [addEngine_zero_left p w ha0 hb hb0, value_of_isZero ha0, zero_add,
      roundedValue_value hb hb0]
  | false =>
    cases hb0 : isZero b with
    | true =>
      rw [addEngine_zero_right p w ha ha0 hb0, value_of_isZero hb0, add_zero,
        roundedValue_value ha ha0]
    | false =>
      exact addEngine_eq_of_generic hw (special_eq_false_iff.mpr ⟨ha, ha0⟩)
        (special_eq_false_iff.mpr ⟨hb, hb0⟩) p

/-- Settles O37: the generic path rounds the exact sum, and beside a zero the other operand is its
own rounding. -/
theorem addOfFiniteOperandsIsTheRoundedSum : Obligations.AddOfFiniteOperandsIsTheRoundedSum := by
  intro s a b hw hfin hne v
  have hsum := addEngine_eq_roundedValue hw hfin hne s.cfg.nanSignAdd
  refine ⟨fun hv => delivers_add ?_, fun hv => delivers_add ?_⟩
  · exact hsum.trans (roundedValue_of_ne hv)
  · exact hsum.trans ((congrArg roundedValue hv).trans roundedValue_zero)

/-- Settles O44: SUB is ADD of the negated operand, whose value is the negated one. -/
theorem subOfFiniteOperandsIsTheRoundedDifference :
    Obligations.SubOfFiniteOperandsIsTheRoundedDifference := by
  intro s a b hw hfin hne v
  have hfin' : bothFinite a (negate b) := by rwa [bothFinite, isFinite_negate]
  have hsum := addEngine_eq_roundedValue hw hfin' (by rwa [isZero_negate]) s.cfg.nanSignAdd
  rw [value_negate, ← sub_eq_add_neg] at hsum
  refine ⟨fun hv => delivers_sub ?_, fun hv => delivers_sub ?_⟩
  · exact hsum.trans (roundedValue_of_ne hv)
  · exact hsum.trans ((congrArg roundedValue hv).trans roundedValue_zero)

/-! ## Subnormal sums -/

/-- In the subnormal range a whole number of the smallest subnormal has no fraction to discard. -/
theorem RoundingParts.frac_eq_zero {v δ : ℚ} {q n : ℕ} (h : RoundingParts v 0 q δ)
    (hv : v = n * 2 ^ (-1074 : ℤ)) : δ = 0 := by
  obtain ⟨_, _, h0, h1, hparts⟩ := h
  have hunit : (2 : ℚ) ^ (((0 : ℕ) : ℤ) - 1074) = 2 ^ (-1074 : ℤ) := by norm_num
  have hsum : (q : ℚ) + δ = n := by
    rw [hv, hunit] at hparts
    exact (mul_right_cancel₀ (by positivity) hparts).symm
  have hle : q ≤ n := by exact_mod_cast (by linarith : (q : ℚ) ≤ n)
  have hlt : n < q + 1 := by exact_mod_cast (by linarith : (n : ℚ) < q + 1)
  obtain rfl : n = q := by omega
  linarith

/-- A whole number of the smallest subnormal that rounds into the subnormal range is not changed. -/
theorem rne64_of_subnormal {s : BitVec 1} {v : ℚ} {n : ℕ} (hv : v = n * 2 ^ (-1074 : ℤ))
    (hexp : expField (rne64 s v) = 0#11) :
    signField (rne64 s v) = s ∧ |value (rne64 s v)| = v := by
  obtain ⟨k, q, δ, h⟩ := exists_roundingParts (hv ▸ by positivity : 0 ≤ v)
  have hs := s.isLt
  have hinf := infPattern_toNat
  have hnum :
      (rne64 s v).toNat = s.toNat * 2 ^ 63 + min infPattern.toNat (roundedNumber k q δ) := by
    rw [h.rne64_eq, signWord_or_toNat _ (by rw [BitVec.toNat_ofNat]; omega), BitVec.toNat_ofNat]
    omega
  have hfield : (0#11).toNat = 0 := rfl
  rw [expField_eq_iff, hnum, hfield] at hexp
  have hsmall : roundedNumber k q δ < 2 ^ 52 := by omega
  obtain rfl : k = 0 := by
    have := h.normalized
    unfold roundedNumber at hsmall
    omega
  have hexact := h.frac_eq_zero hv
  subst hexact
  constructor
  · apply BitVec.eq_of_toNat_eq
    rw [signField_toNat, hnum]
    omega
  · have hlow : (rne64 s v).toNat % 2 ^ 63 = roundedNumber 0 q 0 := by omega
    rw [abs_value, and_absMask_toNat, hlow, h.magnitudeOf_eq, halfEvenIncrement_zero, Nat.add_zero,
      ← add_zero (q : ℚ)]
    exact h.eq_mul.symm

/-- An exact sum that rounds to a subnormal or zero is that result's value. -/
theorem value_roundedValue_of_subnormal {v : ℚ} {n : ℕ} (hv : |v| = n * 2 ^ (-1074 : ℤ))
    (hexp : expField (roundedValue v) = 0#11) : value (roundedValue v) = v := by
  obtain rfl | hne := eq_or_ne v 0
  · rw [roundedValue_zero]
    exact value_of_isZero rfl
  · rw [roundedValue_of_ne hne] at hexp ⊢
    obtain ⟨hsign, habs⟩ := rne64_of_subnormal hv hexp
    rw [value_eq_abs, hsign, habs, signOf]
    obtain hneg | hpos := lt_or_gt_of_ne hne
    · rw [if_pos hneg, if_pos rfl, abs_of_neg hneg, neg_neg]
    · rw [if_neg hpos.not_gt, if_neg (by decide), abs_of_pos hpos]

/-- Settles O41: a sum is a whole number of the smallest subnormal, and two zeros make a zero. -/
theorem subnormalSumsAreExact : Obligations.SubnormalSumsAreExact := by
  intro c a b hw hfin hexp
  by_cases hne : isZero a = false ∨ isZero b = false
  · have hsum : unitFunction c (.add a b) = roundedValue (value a + value b) :=
      addEngine_eq_roundedValue hw hfin hne _
    obtain ⟨n, hn⟩ := exists_abs_add_eq_nat a b
    rw [hsum] at hexp ⊢
    exact value_roundedValue_of_subnormal hn hexp
  · simp only [not_or, Bool.not_eq_false] at hne
    obtain ⟨ha, hb⟩ := hne
    have hsum : unitFunction c (.add a b) = a &&& b := addEngine_zero_zero _ _ ha hb
    have hzero : isZero (a &&& b) = true := by
      have hmask : a &&& b &&& absMask = 0#64 := by
        rw [BitVec.and_assoc, of_decide_eq_true hb, BitVec.and_zero]
      exact decide_eq_true hmask
    rw [hsum, value_of_isZero hzero, value_of_isZero ha, value_of_isZero hb, add_zero]

end Sys2Proof.Machine
end

section
/-! Equalities between results of ADD and SUB at every width of the exponent datapath (41_fp_adder.md
R72, R78, R79): exact cancellation, the two orders of the operands, and SUB's corner cases. -/

namespace Sys2Proof.Machine

open Sys2Proof

/-! ## Exact cancellation -/

/-- The absolute bits are those of the exponent and the significand. -/
theorem and_absMask_eq_iff {a b : Word} :
    a &&& absMask = b &&& absMask ↔ expField a = expField b ∧ sigField a = sigField b := by
  simp only [BitVec.toNat_eq, and_absMask_toNat, expField_toNat, sigField_toNat]
  omega

theorem negate_and_absMask (x : Word) : negate x &&& absMask = x &&& absMask :=
  and_absMask_eq_iff.mpr ⟨expField_negate x, sigField_negate x⟩

theorem unpack_negate (w : ℕ) (x : Word) : unpack w (negate x) = unpack w x := by
  simp only [unpack, expOfField, expField_negate, sigField_negate]

/-- Operands of equal fields need no shift, so their significands cancel. -/
theorem addOrdered_negate (w : ℕ) (x : Word) : addOrdered w x (negate x) = 0#64 := by
  have hsub : isSubtraction x (negate x) = true :=
    isSubtraction_iff.mpr (signField_negate_ne x).symm
  have hzero : expWrap w 0 = 0 := Int.zero_bmod
  have heq : widenedLarger w x = alignedSmaller w x (negate x) := by
    rw [alignedSmaller, unpack_negate, sub_self, hzero]
    rfl
  rw [addOrdered, if_pos (by simp [hsub, ← heq])]

theorem addEngine_negate (p : NaNSign) (w : ℕ) {x : Word} (hx : isFinite x = true)
    (hx0 : isZero x = false) : addEngine p w x (negate x) = 0#64 := by
  have hspecial := special_eq_false_iff.mpr ⟨hx, hx0⟩
  have hswap : swapNeeded x (negate x) = false := by simp [swapNeeded, negate_and_absMask]
  rw [addEngine_of_generic hspecial (by rwa [special_negate]), largerOperand, smallerOperand, hswap]
  exact addOrdered_negate w x

/-- Settles O38: both requests are ADD of `x` and its negation. -/
theorem exactCancellationGivesPositiveZero : Obligations.ExactCancellationGivesPositiveZero :=
  fun _ _ hx hx0 =>
    ⟨delivers_add (addEngine_negate _ _ hx hx0), delivers_sub (addEngine_negate _ _ hx hx0)⟩

/-! ## Commutation -/

theorem eq_of_signField_of_absMask {a b : Word} (hsign : signField a = signField b)
    (habs : a &&& absMask = b &&& absMask) : a = b := by
  obtain ⟨hexp, hsig⟩ := and_absMask_eq_iff.mp habs
  rw [← recompose_fields a, hsign, hexp, hsig, recompose_fields]

theorem eq_or_eq_negate {a b : Word} (h : b &&& absMask = a &&& absMask) :
    b = a ∨ b = negate a := by
  by_cases hsign : signField b = signField a
  · exact .inl (eq_of_signField_of_absMask hsign h)
  · have hflipped : signField b = signField (negate a) := by
      rw [signField_negate]
      rcases signField_cases a with ha | ha <;> rcases signField_cases b with hb | hb <;>
        simp [ha, hb] at hsign ⊢
    exact .inr (eq_of_signField_of_absMask hflipped (h.trans (negate_and_absMask a).symm))

/-- Operands of different absolute bits are put in one order. -/
theorem ordered_comm {a b : Word} (h : a &&& absMask ≠ b &&& absMask) :
    largerOperand a b = largerOperand b a ∧ smallerOperand a b = smallerOperand b a := by
  have hswap : swapNeeded a b = !swapNeeded b a := by
    simp only [swapNeeded, ← decide_not, decide_eq_decide]
    bv_omega
  unfold largerOperand smallerOperand
  cases hba : swapNeeded b a <;> simp [hswap, hba]

theorem addEngine_comm_of_generic {a b : Word} (ha : special a = false) (hb : special b = false)
    (p : NaNSign) (w : ℕ) : addEngine p w a b = addEngine p w b a := by
  by_cases habs : a &&& absMask = b &&& absMask
  · obtain ⟨hfin, hne⟩ := special_eq_false_iff.mp ha
    obtain rfl | rfl := eq_or_eq_negate habs.symm
    · rfl
    · have hback := addEngine_negate p w (x := negate a) (by simpa) (by simpa)
      rw [negate_negate] at hback
      rw [addEngine_negate p w hfin hne, hback]
  · obtain ⟨hlarger, hsmaller⟩ := ordered_comm habs
    rw [addEngine_of_generic ha hb, addEngine_of_generic hb ha, hlarger, hsmaller]

theorem isInf_or_isFinite {x : Word} (h : isNaN x = false) :
    isInf x = true ∨ isFinite x = true := by
  rw [← Bool.not_eq_true, isNaN_iff] at h
  rw [isInf_iff, isFinite_iff]
  omega

theorem addEngine_comm_of_finite {a b : Word} (ha : isFinite a = true) (hb : isFinite b = true)
    (p : NaNSign) (w : ℕ) : addEngine p w a b = addEngine p w b a := by
  cases ha0 : isZero a <;> cases hb0 : isZero b
  · exact addEngine_comm_of_generic (special_eq_false_iff.mpr ⟨ha, ha0⟩)
      (special_eq_false_iff.mpr ⟨hb, hb0⟩) p w
  · rw [addEngine_zero_right p w ha ha0 hb0, addEngine_zero_left p w hb0 ha ha0]
  · rw [addEngine_zero_left p w ha0 hb hb0, addEngine_zero_right p w hb hb0 ha0]
  · rw [addEngine_zero_zero p w ha0 hb0, addEngine_zero_zero p w hb0 ha0, BitVec.and_comm]

theorem addEngine_comm_of_not_nan {a b : Word} (ha : isNaN a = false) (hb : isNaN b = false)
    (p : NaNSign) (w : ℕ) : addEngine p w a b = addEngine p w b a := by
  rcases isInf_or_isFinite ha with ha | ha <;> rcases isInf_or_isFinite hb with hb | hb
  · rw [addEngine_inf_inf p w ha hb, addEngine_inf_inf p w hb ha]
    rcases eq_of_isInf ha with rfl | rfl <;> rcases eq_of_isInf hb with rfl | rfl <;> rfl
  · rw [addEngine_inf_left p w ha hb, addEngine_inf_right p w hb ha]
  · rw [addEngine_inf_right p w ha hb, addEngine_inf_left p w hb ha]
  · exact addEngine_comm_of_finite ha hb p w

theorem addEngine_comm {a b : Word} (h : isNaN a = false ∨ isNaN b = false) (p : NaNSign) (w : ℕ) :
    addEngine p w a b = addEngine p w b a := by
  cases ha : isNaN a <;> cases hb : isNaN b
  · exact addEngine_comm_of_not_nan ha hb p w
  · rw [addEngine_nan_right p w ha hb, addEngine_nan_left p w hb]
  · rw [addEngine_nan_left p w ha, addEngine_nan_right p w hb ha]
  · simp [ha, hb] at h

/-- Settles O42: class by class, and on the generic path since the larger operand comes first. -/
theorem addCommutesUnlessBothAreNaN : Obligations.AddCommutesUnlessBothAreNaN := fun s _ _ =>
  ⟨fun h => addEngine_comm h s.cfg.nanSignAdd s.cfg.expw, fun ha hb =>
    ⟨delivers_add (addEngine_nan_left _ _ ha), delivers_add (addEngine_nan_left _ _ hb)⟩⟩

/-! ## SUB -/

/-- 3 - 1, at the narrowest exponent datapath and so at every lawful one. -/
theorem subEngine_three_one {w : ℕ} (hw : 14 ≤ w) (p : NaNSign) :
    subEngine p w 0x4008000000000000#64 0x3FF0000000000000#64 = 0x4000000000000000#64 := by
  have h14 (p : NaNSign) :
      subEngine p 14 0x4008000000000000#64 0x3FF0000000000000#64 = 0x4000000000000000#64 := by
    cases p <;> decide
  exact (addEngine_width hw le_rfl p _ _).trans (h14 p)

/-- Settles O43: SUB is ADD of the negated operand, whose rows of the table are the corner cases. -/
theorem subIsAddOfTheNegatedOperand : Obligations.SubIsAddOfTheNegatedOperand := by
  intro s a b
  refine ⟨rfl, delivers_sub rfl, fun ha ha0 => delivers_sub (addEngine_negate _ _ ha ha0),
    delivers_sub ?_, delivers_sub ?_, delivers_sub ?_, delivers_sub ?_, delivers_sub ?_,
    delivers_sub ?_, fun ha hb => delivers_sub ?_, fun hw => ?_⟩
  · exact addEngine_zero_zero _ _ rfl rfl
  · exact addEngine_zero_zero _ _ rfl rfl
  · exact addEngine_zero_zero _ _ rfl rfl
  · exact addEngine_zero_zero _ _ rfl rfl
  · exact addEngine_inf_inf _ _ rfl rfl
  · exact addEngine_inf_inf _ _ rfl rfl
  · exact addEngine_nan_right _ _ ha ((isNaN_negate b).trans hb)
  · exact delivers_of_unitFunction (subEngine_three_one hw _)

end Sys2Proof.Machine
end

section
/-! The multiplier's product (42_fp_multiplier.md R85, R86): its 128 bits as one number, and the place
of its leading bit. -/

namespace Sys2Proof.Machine

open Sys2Proof

/-! ## Significands -/

/-- The implicit bit takes the place of bit 52 of a 53-bit significand. -/
theorem or_implBit_toNat {x : Word} (hx : x.toNat < 2 ^ 53) :
    (x ||| implBit).toNat = 2 ^ 52 + x.toNat % 2 ^ 52 := by
  have hwide := widenSig_toNat hx
  have hlt : (x ||| implBit).toNat < 2 ^ 53 := by
    rw [BitVec.toNat_or]
    exact Nat.or_lt_two_pow hx (by decide)
  rw [widenSig, BitVec.toNat_shiftLeft, Nat.shiftLeft_eq] at hwide
  omega

/-- The test of bit 52 on a number of 53 bits. -/
theorem and_implBit_iff {x : Word} (hx : x.toNat < 2 ^ 53) :
    x &&& implBit ≠ 0#64 ↔ 2 ^ 52 ≤ x.toNat := by
  have himpl : implBit.toNat = 2 ^ 52 := by decide
  have hbit : (x &&& implBit).toNat = x.toNat / 2 ^ 52 * 2 ^ 52 := by
    rw [BitVec.toNat_and, himpl, Nat.and_two_pow, Nat.toNat_testBit]
    omega
  rw [ne_eq, BitVec.toNat_eq, hbit, BitVec.toNat_ofNat]
  omega

/-! ## The product -/

/-- The significand shifted left by 11 still fits a word, so the product is exact. -/
theorem mulProduct_toNat (x : Word) {z : Word} (hz : z.toNat < 2 ^ 53) :
    (mulProduct x z).1.toNat * 2 ^ 64 + (mulProduct x z).2.toNat =
      (x ||| implBit).toNat * ((z ||| implBit).toNat * 2 ^ 11) := by
  have hor := or_implBit_toNat hz
  have hshift : ((z ||| implBit) <<< 11).toNat = (z ||| implBit).toNat * 2 ^ 11 := by
    rw [BitVec.toNat_shiftLeft, Nat.shiftLeft_eq]
    omega
  rw [mulProduct, ← wideningMultiplierIsExact, hshift]

/-- Two factors in 2^52 to 2^53 - 1. -/
theorem mulProduct_hi_bounds {x z : Word} (hx : x.toNat < 2 ^ 53) (hz : z.toNat < 2 ^ 53) :
    2 ^ 51 ≤ (mulProduct x z).1.toNat ∧ (mulProduct x z).1.toNat < 2 ^ 53 := by
  have hnum := mulProduct_toNat x hz
  have hX := or_implBit_toNat hx
  have hZ := or_implBit_toNat hz
  have hlo := (mulProduct x z).2.isLt
  have hlow : 2 ^ 52 * (2 ^ 52 * 2 ^ 11) ≤
      (x ||| implBit).toNat * ((z ||| implBit).toNat * 2 ^ 11) :=
    Nat.mul_le_mul (by omega) (by omega)
  have hhigh : (x ||| implBit).toNat * ((z ||| implBit).toNat * 2 ^ 11) <
      2 ^ 53 * (2 ^ 53 * 2 ^ 11) :=
    Nat.mul_lt_mul'' (by omega) (by omega)
  omega

/-! ## Alignment -/

/-- The two halves shifted left by one are the doubled number. -/
theorem wide_double_toNat {hi : Word} (lo : Word) (hhi : hi.toNat < 2 ^ 63) :
    (hi <<< 1 ||| lo >>> 63).toNat * 2 ^ 64 + (lo <<< 1).toNat =
      2 * (hi.toNat * 2 ^ 64 + lo.toNat) := by
  have hlo := lo.isLt
  have htop : (lo >>> 63).toNat = lo.toNat / 2 ^ 63 := by
    rw [BitVec.toNat_ushiftRight, Nat.shiftRight_eq_div_pow]
  rw [shiftLeft_or_toNat (by omega) (by omega), htop, BitVec.toNat_shiftLeft, Nat.shiftLeft_eq]
  omega

/-- The number `hi * 2 ^ 64 + lo` of the two halves, with its leading bit in bit 52 of `hi`, gives with
the exponent `e` the magnitude `v`. -/
structure ProductAt (e : ℤ) (hi lo : ℕ) (v : ℚ) : Prop where
  hi_ge : 2 ^ 52 ≤ hi
  hi_lt : hi < 2 ^ 53
  lo_lt : lo < 2 ^ 64
  eq_mul : v = (hi * 2 ^ 64 + lo : ℕ) * 2 ^ (e - 1139)

section Align

variable {w : ℕ} (hw : 14 ≤ w) {e : ℤ} (hlow : -1125 ≤ e) (hhigh : e ≤ 3069) {hi : Word}
  (hge : 2 ^ 51 ≤ hi.toNat) (hlt : hi.toNat < 2 ^ 53) (lo : Word)

include hw hlow hhigh hlt

/-- The leading bit already stands in bit 52 and the exponent counts it, or the number is doubled. -/
theorem mulAlign_cases :
    (2 ^ 52 ≤ hi.toNat ∧ mulAlign w e hi lo = (e + 1, hi, lo)) ∨
    (hi.toNat < 2 ^ 52 ∧ mulAlign w e hi lo = (e, hi <<< 1 ||| lo >>> 63, lo <<< 1)) := by
  unfold mulAlign
  simp only [and_implBit_iff hlt, expWrap_eq hw (e := e + 1) (by omega) (by omega)]
  split
  next hset => exact .inl ⟨hset, rfl⟩
  next hclear => exact .inr ⟨not_le.mp hclear, rfl⟩

include hge

theorem mulAlign_spec :
    2 ^ 52 ≤ (mulAlign w e hi lo).2.1.toNat ∧ (mulAlign w e hi lo).2.1.toNat < 2 ^ 53 ∧
    ((mulAlign w e hi lo).1 = e + 1 ∧
        (mulAlign w e hi lo).2.1.toNat * 2 ^ 64 + (mulAlign w e hi lo).2.2.toNat =
          hi.toNat * 2 ^ 64 + lo.toNat ∨
      (mulAlign w e hi lo).1 = e ∧
        (mulAlign w e hi lo).2.1.toNat * 2 ^ 64 + (mulAlign w e hi lo).2.2.toNat =
          2 * (hi.toNat * 2 ^ 64 + lo.toNat)) := by
  obtain ⟨hset, heq⟩ | ⟨hclear, heq⟩ := mulAlign_cases hw hlow hhigh hlt lo
  · rw [heq]
    exact ⟨hset, hlt, .inl ⟨rfl, rfl⟩⟩
  · have hdouble := wide_double_toNat lo (hi := hi) (by omega)
    have hlo := lo.isLt
    have hlo' := (lo <<< 1).isLt
    rw [heq]
    exact ⟨by dsimp only; omega, by dsimp only; omega, .inr ⟨rfl, hdouble⟩⟩

theorem mulAlign_productAt {v : ℚ}
    (hv : v = (hi.toNat * 2 ^ 64 + lo.toNat : ℕ) * 2 ^ (e - 1138)) :
    ProductAt (mulAlign w e hi lo).1 (mulAlign w e hi lo).2.1.toNat
      (mulAlign w e hi lo).2.2.toNat v := by
  obtain ⟨hge', hlt', hcases⟩ := mulAlign_spec hw hlow hhigh hge hlt lo
  refine ⟨hge', hlt', BitVec.isLt _, ?_⟩
  obtain ⟨hexp, hnum⟩ | ⟨hexp, hnum⟩ := hcases
  · have hscale : e + 1 - 1139 = e - 1138 := by ring
    rw [hexp, hnum, hv, hscale]
  · rw [hexp, hnum, hv, unit_eq_mul (e := e - 1138) (f := e - 1139) 1 (by push_cast; ring)]
    push_cast
    ring

end Align

/-- Settles O47: the product of two factors in 2^52 to 2^53 - 1 has its leading bit in one of two
places. -/
theorem productLeadingBitIsPlaced : Obligations.ProductLeadingBitIsPlaced := by
  intro w e x z hw hlow hhigh hx hz p n
  obtain ⟨hge, hlt⟩ := mulProduct_hi_bounds hx hz
  obtain ⟨hge', hlt', hcases⟩ := mulAlign_spec hw hlow hhigh hge hlt (mulProduct x z).2
  exact ⟨mulProduct_toNat x hz, hge, Nat.le_sub_one_of_lt hlt, hge', Nat.le_sub_one_of_lt hlt',
    hcases⟩

end Sys2Proof.Machine
end

section
/-! The exponents of the multiplier and the divider (42_fp_multiplier.md R84, R86; 43_fp_divider.md R95,
R96): the field of an operand and its scale add up to the exponent that the adder unpacks. -/

namespace Sys2Proof.Machine

open Sys2Proof

/-- The three engines normalize the same operands: those whose exponent field is zero. -/
theorem belowNormal_eq (x : Word) : belowNormal x = decide (expField x = 0#11) := by
  have himpl : implBit.toNat = 2 ^ 52 := by decide
  have hzero : (0#11).toNat = 0 := rfl
  rw [belowNormal, decide_eq_decide, BitVec.lt_def, and_absMask_toNat, himpl, expField_eq_iff, hzero]
  omega

theorem mulScale_eq_divScale (x : Word) : mulScale x = divScale x := by
  simp [mulScale, divScale, belowNormal_eq]

theorem mulSig_eq_unpack (w : ℕ) (x : Word) : mulSig x = (unpack w x).2 := by
  rw [mulSig, belowNormal_eq, unpack]
  simp only [decide_eq_true_eq]
  split <;> rfl

section Widths

variable {w : ℕ} (hw : 14 ≤ w)

include hw

theorem unpack_exp_eq (x : Word) : (unpack w x).1 = (expField x).toNat + divScale x := by
  have hnorm := normalize_exp_bounds (sigField x)
  unfold unpack divScale
  split
  next hzero =>
    dsimp only
    rw [expWrap_eq hw (by omega) (by omega), hzero]
    exact (zero_add _).symm
  next hnormal => rw [expOfField_eq hw, add_zero]

theorem mulScale_sum_eq (a b : Word) :
    expWrap w (mulScale a + mulScale b) = mulScale a + mulScale b := by
  have ha := mulScale_bounds a
  have hb := mulScale_bounds b
  exact expWrap_eq hw (by omega) (by omega)

/-- The product's exponent from the unpacked ones. -/
theorem productExp_eq_unpack (a b : Word) :
    productExp w a b (expWrap w (mulScale a + mulScale b)) =
      (unpack w a).1 + (unpack w b).1 - 1023 := by
  have ha := mulScale_bounds a
  have hb := mulScale_bounds b
  rw [mulScale_sum_eq hw, productExp_eq hw a b (by omega) (by omega), unpack_exp_eq hw,
    unpack_exp_eq hw, mulScale_eq_divScale, mulScale_eq_divScale]
  ring

/-- The quotient's exponent from the unpacked ones. -/
theorem quotientExp_eq_unpack (a b : Word) :
    quotientExp w a b = (unpack w a).1 - (unpack w b).1 + 1023 := by
  rw [quotientExp_eq hw, unpack_exp_eq hw, unpack_exp_eq hw]
  ring

theorem divAlign_exp_ge {e : ℤ} (hl : -1077 ≤ e) (hu : e ≤ 3123) (sigA sigB : ℕ) :
    e - 1 ≤ (divAlign w e sigA sigB).1 := by
  unfold divAlign
  rw [expWrap_eq hw (by omega) (by omega)]
  split <;> dsimp only <;> omega

end Widths

/-- Settles O58: the exponents are sums and differences of unpacked ones, which lie in -51 to 2046. -/
theorem internalExponentsStayInRange : Obligations.InternalExponentsStayInRange := by
  intro w a b hw ha hb pExp qExp
  have hwa := widens hw ha
  have hwb := widens hw hb
  have hp : pExp = (unpack w a).1 + (unpack w b).1 - 1023 := productExp_eq_unpack hw a b
  have hq : qExp = (unpack w a).1 - (unpack w b).1 + 1023 := quotientExp_eq_unpack hw a b
  obtain ⟨hla, hua⟩ := And.intro hwa.exp_ge hwa.exp_le
  obtain ⟨hlb, hub⟩ := And.intro hwb.exp_ge hwb.exp_le
  have halign := divAlign_exp_ge hw (e := qExp) (by omega) (by omega) (divSig a) (divSig b)
  exact ⟨hua, hla, by omega, by omega, by omega, by omega, by omega⟩

end Sys2Proof.Machine
end

section
/-! The rounding of an exact magnitude held in two halves (42_fp_multiplier.md R87 to R90): the high half
is the truncated significand, the low half the fraction. -/

namespace Sys2Proof.Machine

open Sys2Proof

/-! ## The rounding unit -/

/-- The rounding unit adds what rounding half to even adds, if the category is that of the discarded
fraction. -/
theorem roundIncrement_eq {packed : Word} {cat : Category} {q : ℕ} {δ : ℚ}
    (hodd : packed.toNat % 2 = q % 2) (habove : cat = .above ↔ 1 / 2 < δ)
    (hbelow : cat = .below ↔ δ < 1 / 2) :
    (roundIncrement packed cat).toNat = halfEvenIncrement q δ := by
  unfold halfEvenIncrement
  cases cat with
  | above =>
    rw [if_neg (mt hbelow.mpr (by decide)), if_pos (habove.mp rfl)]
    rfl
  | half =>
    rw [if_neg (mt hbelow.mpr (by decide)), if_neg (mt habove.mpr (by decide)), ← hodd,
      roundIncrement, BitVec.toNat_and]
    exact Nat.and_one_is_mod _
  | below =>
    rw [if_pos (hbelow.mp rfl)]
    rfl

/-- Rounding a packed pattern whose magnitude is the number below the exact value. -/
theorem roundPacked_eq_rne64 (s : BitVec 1) {packed : Word} {cat : Category} {v δ : ℚ} {k q : ℕ}
    (h : RoundingParts v k q δ) (hk : k ≤ 2045)
    (hpacked : packed.toNat = s.toNat * 2 ^ 63 + (k * 2 ^ 52 + q))
    (habove : cat = .above ↔ 1 / 2 < δ) (hbelow : cat = .below ↔ δ < 1 / 2) :
    roundPacked packed cat = rne64 s v := by
  have hq := h.sig_lt
  have hs := s.isLt
  have hinf := infPattern_toNat
  have hle := halfEvenIncrement_le q δ
  have hfin : isFinite packed = true := by
    rw [isFinite_iff]
    omega
  have hinc := roundIncrement_eq (packed := packed) (q := q) (by omega) habove hbelow
  apply BitVec.eq_of_toNat_eq
  rw [h.rne64_eq, roundPacked_toNat hfin, hinc, hpacked,
    min_eq_right (by unfold roundedNumber; omega),
    signWord_or_toNat s (by rw [BitVec.toNat_ofNat]; unfold roundedNumber; omega),
    BitVec.toNat_ofNat, roundedNumber]
  omega

/-- A value of at least 2^1024 in parts rounds to infinity. -/
theorem RoundingParts.rne64_eq_inf {v δ : ℚ} {k q : ℕ} (h : RoundingParts v k q δ) (hk : 2046 ≤ k)
    (s : BitVec 1) : rne64 s v = infPattern ||| signWord s := by
  have hsig := h.normalized
  rw [h.rne64_eq, BitVec.or_comm, min_eq_left, BitVec.ofNat_toNat, BitVec.setWidth_eq]
  rw [roundedNumber, infPattern_toNat]
  omega

/-! ## The two halves -/

section Halves

variable {hi lo : Word} {t : ℚ} (h : SameSide 2 (hi.toNat * 2 ^ 64 + lo.toNat) t)

include h

/-- The parts of the exact magnitude that the two halves stand for in units of `2 ^ (k - 1138)`. -/
theorem RoundingParts.of_halves {k : ℕ} {v : ℚ} (hlt : hi.toNat < 2 ^ 53)
    (hk : k = 0 ∨ 2 ^ 52 ≤ hi.toNat) (hv : v = t * 2 ^ ((k : ℤ) - 1138)) :
    RoundingParts v k hi.toNat (t / 2 ^ 64 - hi.toNat) := by
  have hlo := lo.isLt
  have hlow := (h.le_iff (hi.toNat * 2 ^ 63)).mp (by omega)
  have hhigh := (h.lt_iff ((hi.toNat + 1) * 2 ^ 63)).mp (by omega)
  push_cast at hlow hhigh
  refine ⟨hlt, hk, ?_, ?_, ?_⟩
  · linarith
  · linarith
  · rw [hv, unit_eq_mul (e := (k : ℤ) - 1074) (f := (k : ℤ) - 1138) 64 (by push_cast; ring)]
    ring

/-- The low half lies against its top bit as the fraction it stands for lies against a half. -/
theorem categoryOfLow_iff :
    (categoryOfLow lo = .above ↔ 1 / 2 < t / 2 ^ 64 - hi.toNat) ∧
    (categoryOfLow lo = .below ↔ t / 2 ^ 64 - hi.toNat < 1 / 2) := by
  obtain ⟨habove, _, hbelow⟩ := category_iff (categoryOfLow_eq lo)
  have hgt : 2 ^ 63 < lo.toNat ↔
      2 * (hi.toNat * 2 ^ 63 + 2 ^ 62) < hi.toNat * 2 ^ 64 + lo.toNat := by omega
  have hlt : lo.toNat < 2 ^ 63 ↔
      hi.toNat * 2 ^ 64 + lo.toNat < 2 * (hi.toNat * 2 ^ 63 + 2 ^ 62) := by omega
  have hhalf :
      (1 / 2 + hi.toNat : ℚ) * 2 ^ 64 = (2 * (hi.toNat * 2 ^ 63 + 2 ^ 62) : ℕ) := by
    push_cast
    ring
  rw [habove, hbelow, hgt, hlt, h.gt_iff, h.lt_iff, lt_sub_iff_add_lt, sub_lt_iff_lt_add,
    lt_div_iff₀ (by positivity), div_lt_iff₀ (by positivity), hhalf]
  exact ⟨Iff.rfl, Iff.rfl⟩

/-- Packing and rounding two halves that stand for the exact magnitude, once the exponent field stands
above the significand. -/
theorem mulRound_eq (s : BitVec 1) {m : Word} {k : ℕ} {v : ℚ} (hlt : hi.toNat < 2 ^ 53)
    (hk : k = 0 ∨ 2 ^ 52 ≤ hi.toNat) (hmax : k ≤ 2045) (hv : v = t * 2 ^ ((k : ℤ) - 1138))
    (hpacked : (m ||| signWord s).toNat = s.toNat * 2 ^ 63 + (k * 2 ^ 52 + hi.toNat)) :
    mulRound (signWord s) m lo = rne64 s v := by
  obtain ⟨habove, hbelow⟩ := categoryOfLow_iff h
  exact roundPacked_eq_rne64 s (.of_halves h hlt hk hv) hmax hpacked habove hbelow

end Halves

/-! ## Overflow, underflow and the normal result -/

namespace ProductAt

variable {w : ℕ} {e : ℤ} {hi lo : Word} {v : ℚ} (h : ProductAt e hi.toNat lo.toNat v)
  (s : BitVec 1)

include h

/-- The normal result of R89: the implicit bit counts as one in the exponent field. -/
theorem mulRound_normal (hlow : 1 ≤ e) (hhigh : e ≤ 2046) :
    mulRound (signWord s) ((hi &&& sigMask) ||| expToField e) lo = rne64 s v := by
  obtain ⟨hge, hlt, _, hv⟩ := h
  obtain ⟨k, hk⟩ := Int.le.dest hlow
  have hshift : (hi <<< 3).toNat = hi.toNat * 8 := by
    rw [BitVec.toNat_shiftLeft, Nat.shiftLeft_eq]
    omega
  have hback : (hi <<< 3) >>> 3 = hi := by
    apply BitVec.eq_of_toNat_eq
    rw [BitVec.toNat_ushiftRight, hshift, Nat.shiftRight_eq_div_pow]
    omega
  have hpacked := packed_toNat s (e := e) (n := hi <<< 3) (k := k) (by omega) (.inl (by omega))
  rw [hback, hshift, Nat.mul_div_cancel _ (by decide)] at hpacked
  have hscale : e - 1139 = k - 1138 := by omega
  exact mulRound_eq (.self _ _) s hlt (.inr hge) (by omega) (by rwa [← hscale]) hpacked

/-- The underflow of R88 shifts by at least one bit, so the significand has no implicit bit left. -/
theorem mulRound_underflow {d : ℕ} (hd : e + d = 1) (hpos : 1 ≤ d) (hle : d ≤ 63) :
    mulRound (signWord s) (wideShrSticky hi lo d).1 (wideShrSticky hi lo d).2 = rne64 s v := by
  obtain ⟨_, hlt, _, hv⟩ := h
  have hnum : (wideShrSticky hi lo d).1.toNat * 2 ^ 64 + (wideShrSticky hi lo d).2.toNat =
      stickyShift (hi.toNat * 2 ^ 64 + lo.toNat) d := wideShrSticky_toNat hi lo hle
  have hlo := lo.isLt
  have hpow : 2 ^ 1 ≤ 2 ^ d := Nat.pow_le_pow_right Nat.two_pos hpos
  have hsmall :=
    stickyShift_lt (x := hi.toNat * 2 ^ 64 + lo.toNat) (n := d) (m := 2 ^ 115) (by omega)
  have hside := (SameSide.self 1 (hi.toNat * 2 ^ 64 + lo.toNat)).shift (one_dvd (2 * 2 ^ d))
  rw [← hnum] at hsmall hside
  have hsign := signWord_or_toNat s (y := (wideShrSticky hi lo d).1) (by omega)
  have hunit := unit_eq_mul (e := ((0 : ℕ) : ℤ) - 1138) (f := e - 1139) d (by omega)
  refine mulRound_eq hside s (k := 0) (by omega) (.inl rfl) (by decide) ?_ ?_
  · rw [hunit, hv, mul_comm (2 ^ (e - 1139)) (2 ^ d), ← mul_assoc,
      div_mul_cancel₀ _ (by positivity)]
  · rw [BitVec.or_comm, hsign, zero_mul, zero_add]

/-- The flush of R88: the magnitude is below half the smallest subnormal. -/
theorem rne64_eq_signWord (hlow : e ≤ -63) : rne64 s v = signWord s := by
  obtain ⟨_, hlt, hlo, hv⟩ := h
  have hunit : (0 : ℚ) < 2 ^ (-1074 : ℤ) := by positivity
  have hnum : ((hi.toNat * 2 ^ 64 + lo.toNat : ℕ) : ℚ) ≤ 2 ^ 117 := by
    exact_mod_cast (by omega : hi.toNat * 2 ^ 64 + lo.toNat ≤ 2 ^ 117)
  have hsmall : v ≤ 2 ^ (-11 : ℤ) * 2 ^ (-1074 : ℤ) :=
    calc v ≤ 2 ^ 117 * 2 ^ (-63 - 1139 : ℤ) := by
          rw [hv]
          exact mul_le_mul hnum (zpow_le_zpow_right₀ one_le_two (by omega)) (by positivity)
            (by positivity)
      _ = 2 ^ (-11 : ℤ) * 2 ^ (-1074 : ℤ) := by
          rw [← zpow_natCast, ← zpow_add₀ two_ne_zero, ← zpow_add₀ two_ne_zero]
          norm_num
  have hfrac : v / 2 ^ (-1074 : ℤ) < 1 / 2 := by
    rw [div_lt_iff₀ hunit]
    exact hsmall.trans_lt (mul_lt_mul_of_pos_right (by norm_num) hunit)
  have hparts : RoundingParts v 0 0 (v / 2 ^ (-1074 : ℤ)) :=
    ⟨by decide, .inl rfl, hv ▸ by positivity, hfrac.trans (by norm_num), by
      rw [Nat.cast_zero, zero_add, Nat.cast_zero, zero_sub, div_mul_cancel₀ _ hunit.ne']⟩
  rw [hparts.rne64_eq, roundedNumber, halfEvenIncrement, if_pos hfrac]
  simp

/-- The end of the multiplier rounds the product to the pattern of `RNE64`. -/
theorem mulFinish_eq (hw : 14 ≤ w) (hlow : -1127 ≤ e) (hhigh : e ≤ 3074) :
    mulFinish w (signWord s) e hi lo = rne64 s v := by
  have hshift : expWrap w (1 - e) = 1 - e := expWrap_eq hw (by omega) (by omega)
  unfold mulFinish
  rw [hshift]
  dsimp only
  split_ifs with hover hunder hflush
  · obtain ⟨k, hk⟩ := Int.le.dest (show 1 ≤ e by omega)
    have hscale : e - 1139 = k - 1138 := by omega
    have hparts := RoundingParts.of_halves (.self 2 _) h.hi_lt (k := k) (.inr h.hi_ge)
      (hscale ▸ h.eq_mul)
    exact (hparts.rne64_eq_inf (by omega) s).symm
  · exact (h.rne64_eq_signWord s (by omega)).symm
  · obtain ⟨d, hd⟩ := Int.le.dest (show e ≤ 1 by omega)
    have hnat : (1 - e).toNat = d := by omega
    rw [hnat]
    exact h.mulRound_underflow s hd (by omega) (by omega)
  · exact h.mulRound_normal s (by omega) (by omega)

end ProductAt

end Sys2Proof.Machine
end

section
/-! MUL of finite nonzero operands (42_fp_multiplier.md R84 to R91): the exact product, rounded. -/

namespace Sys2Proof.Machine

open Sys2Proof

theorem delivers_mul {s : State} {a b r : Word}
    (h : mulEngine s.cfg.nanSignMul s.cfg.expw a b = r) : Delivers s (.mul a b) r :=
  delivers_of_unitFunction h

theorem xorSign_eq (a b : Word) : xorSign a b = signWord (signField a ^^^ signField b) := by
  rw [xorSign, and_signMask_eq, signField, BitVec.extractLsb'_xor]
  rfl

theorem xorSign_comm (a b : Word) : xorSign a b = xorSign b a := by
  rw [xorSign, BitVec.xor_comm, xorSign]

/-! ## The generic path -/

/-- The fast path is the generic one with no operand to normalize. -/
theorem mulEngine_of_generic {a b : Word} (ha : special a = false) (hb : special b = false)
    (p : NaNSign) (w : ℕ) :
    mulEngine p w a b =
      mulGeneric w a b (mulSig a) (mulSig b) (expWrap w (mulScale a + mulScale b)) := by
  unfold mulEngine
  split
  next => simp [ha, hb]
  next hfast =>
    have hnormal (x : Word) (hx : specialOrSubnormal x = false) :
        mulSig x = (sigField x).setWidth 64 ∧ mulScale x = 0 := by
      have hbelow : belowNormal x = false := by
        rw [belowNormal_eq]
        exact (Bool.or_eq_false_iff.mp hx).1
      rw [mulSig, mulScale, hbelow]
      exact ⟨rfl, rfl⟩
    rw [Bool.not_eq_true, Bool.or_eq_false_iff] at hfast
    obtain ⟨hfastA, hfastB⟩ := hfast
    obtain ⟨hsigA, hscaleA⟩ := hnormal a hfastA
    obtain ⟨hsigB, hscaleB⟩ := hnormal b hfastB
    have hzero : expWrap w (0 + 0) = 0 := Int.zero_bmod
    rw [hsigA, hscaleA, hsigB, hscaleB, hzero]

theorem mulSig_lt (x : Word) : (mulSig x).toNat < 2 ^ 53 := by
  unfold mulSig
  split
  · exact (BitVec.toNat_setWidth_of_le (by decide)).trans_lt (normalize (sigField x)).2.isLt
  · have hlt := (sigField x).isLt
    have hset : ((sigField x).setWidth 64).toNat = (sigField x).toNat :=
      BitVec.toNat_setWidth_of_le (by decide)
    omega

/-- The magnitude of an operand from what the multiplier takes of it. -/
theorem abs_value_eq_mulSig {w : ℕ} (hw : 14 ≤ w) {x : Word} (hx : special x = false) :
    |value x| = ((mulSig x ||| implBit).toNat : ℚ) * 2 ^ ((unpack w x).1 - 1075) := by
  have hwide : (widenedLarger w x).toNat = (mulSig x ||| implBit).toNat * 2 ^ 3 := by
    rw [widenedLarger, ← mulSig_eq_unpack, widenSig_toNat (mulSig_lt x),
      or_implBit_toNat (mulSig_lt x)]
    omega
  rw [(widens hw hx).abs_eq, hwide,
    unit_eq_mul (e := (unpack w x).1 - 1075) (f := (unpack w x).1 - 1078) 3 (by push_cast; ring)]
  push_cast
  ring

/-- The exact product is the 128-bit one in the unit of the product's exponent. -/
theorem abs_value_mul_eq {w : ℕ} (hw : 14 ≤ w) {a b : Word} (ha : special a = false)
    (hb : special b = false) :
    |value a * value b| =
      ((mulProduct (mulSig a) (mulSig b)).1.toNat * 2 ^ 64 +
        (mulProduct (mulSig a) (mulSig b)).2.toNat : ℕ) *
        2 ^ (productExp w a b (expWrap w (mulScale a + mulScale b)) - 1138) := by
  have hunit : (2 : ℚ) ^ ((unpack w a).1 - 1075) * 2 ^ ((unpack w b).1 - 1075) =
      2 ^ ((unpack w a).1 + (unpack w b).1 - 1023 - 1138) * 2 ^ 11 := by
    rw [← zpow_add₀ two_ne_zero, ← unit_eq_mul]
    push_cast
    ring
  rw [abs_mul, abs_value_eq_mulSig hw ha, abs_value_eq_mulSig hw hb, mul_mul_mul_comm, hunit,
    mulProduct_toNat _ (mulSig_lt b), productExp_eq_unpack hw]
  push_cast
  ring

/-- MUL of operands neither of which is special. -/
theorem mulEngine_eq_rne64 {w : ℕ} (hw : 14 ≤ w) {a b : Word} (ha : special a = false)
    (hb : special b = false) (p : NaNSign) :
    mulEngine p w a b = rne64 (signField a ^^^ signField b) |value a * value b| := by
  obtain ⟨hge, hlt⟩ := mulProduct_hi_bounds (mulSig_lt a) (mulSig_lt b)
  obtain ⟨_, _, hlow, hhigh, _⟩ := internalExponentsStayInRange w a b hw ha hb
  have hproduct := mulAlign_productAt hw hlow hhigh hge hlt (mulProduct (mulSig a) (mulSig b)).2
    (abs_value_mul_eq hw ha hb)
  obtain ⟨hlow', hhigh'⟩ := mulAlign_exp_bounds hw (le_trans (by decide) hlow)
    (le_trans hhigh (by decide)) (mulProduct (mulSig a) (mulSig b)).1
    (mulProduct (mulSig a) (mulSig b)).2
  rw [mulEngine_of_generic ha hb, mulGeneric, xorSign_eq]
  exact hproduct.mulFinish_eq _ hw hlow' hhigh'

/-- Settles O48: the aligned product is the exact one, and the end of the multiplier rounds it. -/
theorem mulOfFiniteOperandsIsTheRoundedProduct :
    Obligations.MulOfFiniteOperandsIsTheRoundedProduct := by
  intro s a b hw hnonzero
  obtain ⟨⟨ha, hb⟩, ha0, hb0⟩ := hnonzero
  exact delivers_mul (mulEngine_eq_rne64 hw (special_eq_false_iff.mpr ⟨ha, ha0⟩)
    (special_eq_false_iff.mpr ⟨hb, hb0⟩) _)

end Sys2Proof.Machine
end

section
/-! The special path of MUL (42_fp_multiplier.md R82, R83) and the two orders of the operands (R92). -/

namespace Sys2Proof.Machine

open Sys2Proof

/-! ## Classes -/

theorem specialOrSubnormal_of_special {x : Word} (h : special x = true) :
    specialOrSubnormal x = true := by
  rw [specialOrSubnormal_eq_classify, Bool.not_eq_true', ← Bool.not_eq_true, classify_isNormal_iff]
  rw [special_iff] at h
  omega

theorem isZero_eq_false_of_isInf {x : Word} (h : isInf x = true) : isZero x = false := by
  rw [isInf_iff] at h
  rw [← Bool.not_eq_true, isZero_iff]
  omega

theorem isNaN_eq_false_of_isInf {x : Word} (h : isInf x = true) : isNaN x = false := by
  rw [isInf_iff] at h
  rw [← Bool.not_eq_true, isNaN_iff]
  omega

theorem isNaN_eq_false_of_isZero {x : Word} (h : isZero x = true) : isNaN x = false := by
  rw [isZero_iff] at h
  rw [← Bool.not_eq_true, isNaN_iff]
  omega

theorem isInf_isNaN_eq_false_of_isFinite {x : Word} (h : isFinite x = true) :
    isInf x = false ∧ isNaN x = false := by
  rw [isFinite_iff] at h
  rw [← Bool.not_eq_true, ← Bool.not_eq_true, isInf_iff, isNaN_iff]
  omega

theorem special_of_isInf {x : Word} (h : isInf x = true) : special x = true :=
  special_iff.mpr (.inr (isInf_iff.mp h).ge)

/-! ## The special path -/

section SpecialPath

variable {a b : Word} (p : NaNSign) (w : ℕ)

theorem mulEngine_of_special (h : special a = true ∨ special b = true) :
    mulEngine p w a b = mulSpecial p a b := by
  have hslow : specialOrSubnormal a = true ∨ specialOrSubnormal b = true :=
    h.imp specialOrSubnormal_of_special specialOrSubnormal_of_special
  simp [mulEngine, h, hslow]

theorem mulEngine_nan_left (ha : isNaN a = true) : mulEngine p w a b = nanResult p a := by
  have hA := isNaN_iff.mp ha
  rw [mulEngine_of_special p w (.inl (special_iff.mpr (by omega))), mulSpecial, if_pos ha]

theorem mulEngine_nan_right (ha : isNaN a = false) (hb : isNaN b = true) :
    mulEngine p w a b = nanResult p b := by
  have hB := isNaN_iff.mp hb
  rw [mulEngine_of_special p w (.inr (special_iff.mpr (by omega))), mulSpecial,
    if_neg (Bool.not_eq_true _ ▸ ha), if_pos hb]

/-- The table without its NaN rows. -/
theorem mulSpecial_of_not_nan (ha : isNaN a = false) (hb : isNaN b = false) :
    mulSpecial p a b =
      if isInf a ∨ isInf b then
        if isZero a ∨ isZero b then qnan else infPattern ||| xorSign a b
      else xorSign a b := by
  have hA : isInf a = true → isZero a = false := isZero_eq_false_of_isInf
  have hB : isInf b = true → isZero b = false := isZero_eq_false_of_isInf
  unfold mulSpecial
  cases hIa : isInf a <;> cases hIb : isInf b <;> simp [ha, hb, hIa, hIb, hA, hB]

theorem mulEngine_of_inf (h : isInf a = true ∨ isInf b = true) (ha : isNaN a = false)
    (hb : isNaN b = false) :
    mulEngine p w a b =
      if isZero a ∨ isZero b then qnan else infPattern ||| xorSign a b := by
  rw [mulEngine_of_special p w (h.imp special_of_isInf special_of_isInf),
    mulSpecial_of_not_nan p ha hb, if_pos h]

theorem mulEngine_of_zero (h : isZero a = true ∨ isZero b = true) (ha : isFinite a = true)
    (hb : isFinite b = true) : mulEngine p w a b = xorSign a b := by
  obtain ⟨hInfA, hNaNA⟩ := isInf_isNaN_eq_false_of_isFinite ha
  obtain ⟨hInfB, hNaNB⟩ := isInf_isNaN_eq_false_of_isFinite hb
  rw [mulEngine_of_special p w (h.imp special_of_isZero special_of_isZero),
    mulSpecial_of_not_nan p hNaNA hNaNB, if_neg (by simp [hInfA, hInfB])]

theorem mulEngine_inf_nonzero (h : isInf a = true ∨ isInf b = true) (ha : isNaN a = false)
    (hb : isNaN b = false) (ha0 : isZero a = false) (hb0 : isZero b = false) :
    mulEngine p w a b = infPattern ||| xorSign a b :=
  (mulEngine_of_inf p w h ha hb).trans (if_neg (by simp [ha0, hb0]))

theorem mulEngine_inf_zero (ha : isInf a = true) (hb : isZero b = true) :
    mulEngine p w a b = qnan :=
  (mulEngine_of_inf p w (.inl ha) (isNaN_eq_false_of_isInf ha) (isNaN_eq_false_of_isZero hb)).trans
    (if_pos (.inr hb))

theorem mulEngine_zero_inf (ha : isZero a = true) (hb : isInf b = true) :
    mulEngine p w a b = qnan :=
  (mulEngine_of_inf p w (.inr hb) (isNaN_eq_false_of_isZero ha) (isNaN_eq_false_of_isInf hb)).trans
    (if_pos (.inl ha))

end SpecialPath

/-- Settles O46, row by row of the table. -/
theorem mulSpecialCasesFollowTheTable : Obligations.MulSpecialCasesFollowTheTable := by
  intro s a b
  dsimp only
  simp only [← isNaN_eq_classify, ← isInf_eq_classify, ← isZero_eq_classify, ← xorSign_eq]
  exact ⟨fun ha => delivers_mul (mulEngine_nan_left _ _ ha),
    fun ha hb => delivers_mul (mulEngine_nan_right _ _ ha hb),
    fun ha hb hb0 => delivers_mul (mulEngine_inf_nonzero _ _ (.inl ha) (isNaN_eq_false_of_isInf ha)
      hb (isZero_eq_false_of_isInf ha) hb0),
    fun ha hb => delivers_mul (mulEngine_inf_zero _ _ ha hb),
    fun hb ha ha0 => delivers_mul (mulEngine_inf_nonzero _ _ (.inr hb) ha (isNaN_eq_false_of_isInf hb)
      ha0 (isZero_eq_false_of_isInf hb)),
    fun ha hb => delivers_mul (mulEngine_zero_inf _ _ ha hb),
    fun ha hb => delivers_mul (mulEngine_of_zero _ _ (.inl ha) (isFinite_of_isZero ha) hb),
    fun ha hb => delivers_mul (mulEngine_of_zero _ _ (.inr hb) ha (isFinite_of_isZero hb))⟩

/-! ## Commutation -/

/-- Both orders multiply the same two factors and shift either by 11. -/
theorem mulProduct_comm {x z : Word} (hx : x.toNat < 2 ^ 53) (hz : z.toNat < 2 ^ 53) :
    mulProduct x z = mulProduct z x := by
  have hsame : (mulProduct x z).1.toNat * 2 ^ 64 + (mulProduct x z).2.toNat =
      (mulProduct z x).1.toNat * 2 ^ 64 + (mulProduct z x).2.toNat := by
    rw [mulProduct_toNat x hz, mulProduct_toNat z hx]
    ring
  have hlo := (mulProduct x z).2.isLt
  have hlo' := (mulProduct z x).2.isLt
  ext1 <;> apply BitVec.eq_of_toNat_eq <;> omega

theorem mulEngine_comm_of_generic {a b : Word} (ha : special a = false) (hb : special b = false)
    (p : NaNSign) (w : ℕ) : mulEngine p w a b = mulEngine p w b a := by
  have hexp (scale : ℤ) : productExp w a b scale = productExp w b a scale := by
    rw [productExp, productExp, add_comm (expOfField w a)]
  rw [mulEngine_of_generic ha hb, mulEngine_of_generic hb ha, mulGeneric, mulGeneric, hexp,
    add_comm (mulScale a), xorSign_comm, mulProduct_comm (mulSig_lt a) (mulSig_lt b)]

theorem mulEngine_comm_of_not_nan {a b : Word} (ha : isNaN a = false) (hb : isNaN b = false)
    (p : NaNSign) (w : ℕ) : mulEngine p w a b = mulEngine p w b a := by
  by_cases h : special a = true ∨ special b = true
  · rw [mulEngine_of_special p w h, mulEngine_of_special p w h.symm, mulSpecial_of_not_nan p ha hb,
      mulSpecial_of_not_nan p hb ha, xorSign_comm]
    simp only [or_comm]
  · obtain ⟨ha', hb'⟩ := not_or.mp h
    exact mulEngine_comm_of_generic (Bool.not_eq_true _ ▸ ha') (Bool.not_eq_true _ ▸ hb') p w

theorem mulEngine_comm {a b : Word} (h : isNaN a = false ∨ isNaN b = false) (p : NaNSign) (w : ℕ) :
    mulEngine p w a b = mulEngine p w b a := by
  cases ha : isNaN a <;> cases hb : isNaN b
  · exact mulEngine_comm_of_not_nan ha hb p w
  · rw [mulEngine_nan_right p w ha hb, mulEngine_nan_left p w hb]
  · rw [mulEngine_nan_left p w ha, mulEngine_nan_right p w hb ha]
  · simp [ha, hb] at h

/-- Settles O49: the table without its NaN rows is symmetric, and so are the product and its exponent. -/
theorem mulCommutesUnlessBothAreNaN : Obligations.MulCommutesUnlessBothAreNaN := fun s _ _ =>
  ⟨fun h => mulEngine_comm h s.cfg.nanSignMul s.cfg.expw, fun ha _ =>
    delivers_mul (mulEngine_nan_left _ _ ha)⟩

end Sys2Proof.Machine
end

section
/-! The divider's quotient and residual (43_fp_divider.md R98, R99): how large the quotient is, and why a
normal one is never a tie. -/

namespace Sys2Proof.Machine

open Sys2Proof

/-- Significands aligned as R96 leaves them: the divisor's of 53 bits, their quotient in [1, 2). -/
structure AlignedSigs (sigA sigB : ℕ) : Prop where
  divisor_ge : 2 ^ 52 ≤ sigB
  divisor_lt : sigB < 2 ^ 53
  divisor_le : sigB ≤ sigA
  dividend_lt : sigA < 2 * sigB

theorem quotientResidual_spec {sigB : ℕ} (hpos : 0 < sigB) (sigA shift : ℕ) :
    sigA * 2 ^ 52 = (quotientResidual sigA sigB shift).1 * (sigB * 2 ^ shift) +
      (quotientResidual sigA sigB shift).2 ∧
    (quotientResidual sigA sigB shift).2 < sigB * 2 ^ shift :=
  ⟨(Nat.div_add_mod' _ _).symm, Nat.mod_lt _ (Nat.mul_pos hpos (Nat.two_pow_pos _))⟩

namespace AlignedSigs

variable {sigA sigB : ℕ} (h : AlignedSigs sigA sigB)

include h

theorem divisor_pos : 0 < sigB :=
  (Nat.two_pow_pos 52).trans_le h.divisor_ge

theorem quotient_ge : 2 ^ 52 ≤ (quotientResidual sigA sigB 0).1 := by
  have hle := h.divisor_le
  refine (Nat.le_div_iff_mul_le (Nat.mul_pos h.divisor_pos (Nat.two_pow_pos 0))).mpr ?_
  omega

/-- The shift takes its number of bits from the quotient's 53. -/
theorem quotient_mul_lt (shift : ℕ) : (quotientResidual sigA sigB shift).1 * 2 ^ shift < 2 ^ 53 := by
  have hlt := h.dividend_lt
  obtain ⟨hspec, _⟩ := quotientResidual_spec h.divisor_pos sigA shift
  refine Nat.lt_of_mul_lt_mul_left (a := sigB) ?_
  calc sigB * ((quotientResidual sigA sigB shift).1 * 2 ^ shift)
      = (quotientResidual sigA sigB shift).1 * (sigB * 2 ^ shift) := by ring
    _ ≤ sigA * 2 ^ 52 := by rw [hspec]; exact Nat.le_add_right _ _
    _ < sigB * 2 ^ 53 := by omega

theorem quotient_lt (shift : ℕ) : (quotientResidual sigA sigB shift).1 < 2 ^ 53 :=
  (Nat.le_mul_of_pos_right _ (Nat.two_pow_pos shift)).trans_lt (h.quotient_mul_lt shift)

theorem quotient_lt_of_shift {shift : ℕ} (hpos : 0 < shift) :
    (quotientResidual sigA sigB shift).1 < 2 ^ 52 := by
  have hlt := h.quotient_mul_lt shift
  have hpow : 2 ^ 1 ≤ 2 ^ shift := Nat.pow_le_pow_right Nat.two_pos hpos
  have htwice := Nat.mul_le_mul_left (quotientResidual sigA sigB shift).1 hpow
  omega

/-- A tie would make the divisor a multiple of 2^53, since twice the quotient and one is odd. -/
theorem residual_ne_half : 2 * (quotientResidual sigA sigB 0).2 ≠ sigB := by
  intro htie
  obtain ⟨hspec, _⟩ := quotientResidual_spec h.divisor_pos sigA 0
  have hodd : 2 ^ 53 * sigA = (2 * (quotientResidual sigA sigB 0).1 + 1) * sigB := by
    rw [pow_zero, mul_one] at hspec
    linarith
  have hcoprime : Nat.Coprime (2 ^ 53) (2 * (quotientResidual sigA sigB 0).1 + 1) :=
    Nat.Coprime.pow_left 53 (by simp)
  have hdvd : 2 ^ 53 ∣ sigB := hcoprime.dvd_of_dvd_mul_left (Dvd.intro sigA hodd)
  exact absurd (Nat.le_of_dvd h.divisor_pos hdvd) (not_le.mpr h.divisor_lt)

end AlignedSigs

/-- Settles O51: division with remainder, and the shift takes at least one bit from the quotient. -/
theorem quotientAndResidualAreExact : Obligations.QuotientAndResidualAreExact := by
  intro sigA sigB shift hge hlt hle hdouble n d q r
  have h : AlignedSigs sigA sigB := ⟨hge, Nat.lt_of_le_pred (Nat.two_pow_pos 53) hlt, hle, hdouble⟩
  obtain ⟨hspec, hres⟩ := quotientResidual_spec h.divisor_pos sigA shift
  refine ⟨hspec, hres, ?_, fun hpos => Nat.le_pred_of_lt (h.quotient_lt_of_shift hpos)⟩
  rintro rfl
  exact ⟨h.quotient_ge, Nat.le_pred_of_lt (h.quotient_lt 0)⟩

/-- Settles O52: the residual is never half the divisor. -/
theorem normalQuotientsNeverTie : Obligations.NormalQuotientsNeverTie := by
  intro sigA sigB hge hlt hle hdouble hhalf
  have h : AlignedSigs sigA sigB := ⟨hge, Nat.lt_of_le_pred (Nat.two_pow_pos 53) hlt, hle, hdouble⟩
  obtain ⟨_, htie, _⟩ := category_iff (a := 2 * (quotientResidual sigA sigB 0).2) (b := sigB) rfl
  exact h.residual_ne_half (htie.mp hhalf)

end Sys2Proof.Machine
end

section
/-! The end of the divider (43_fp_divider.md R98 to R100): the exact quotient in parts, with the residual
over the shifted divisor as its fraction, is rounded as `RNE64` rounds it. -/

namespace Sys2Proof.Machine

open Sys2Proof

/-- Aligned significands that give with the exponent `e` the magnitude `v` (R96). -/
structure QuotientAt (e : ℤ) (sigA sigB : ℕ) (v : ℚ) : Prop extends AlignedSigs sigA sigB where
  eq_mul : v = (sigA / sigB : ℚ) * 2 ^ (e - 1023)

theorem divPack_toNat (s : BitVec 1) {e : ℤ} {k q : ℕ} (hexp : max e 1 = k + 1) (hk : k ≤ 2045)
    (hq : q < 2 ^ 53) :
    (divPack (signWord s) e q).toNat = s.toNat * 2 ^ 63 + (k * 2 ^ 52 + q) := by
  have hnat : (max e 1 - 1).toNat = k := by omega
  have hnum : (BitVec.ofNat 64 (k * 2 ^ 52 + q)).toNat = k * 2 ^ 52 + q := by
    rw [BitVec.toNat_ofNat]
    omega
  rw [divPack, hnat, signWord_or_toNat s (by omega), hnum]

/-- The doubled residual lies against the divisor as their quotient lies against a half. -/
theorem categoryOfResidual_iff {d : ℕ} (hd : 0 < d) (r : ℕ) :
    (categoryOfResidual r d = .above ↔ 1 / 2 < (r / d : ℚ)) ∧
    (categoryOfResidual r d = .below ↔ (r / d : ℚ) < 1 / 2) := by
  have hd' : (0 : ℚ) < d := by exact_mod_cast hd
  obtain ⟨habove, _, hbelow⟩ := category_iff (a := 2 * r) (b := d) (c := categoryOfResidual r d) rfl
  rw [habove, hbelow, div_lt_div_iff₀ two_pos hd', div_lt_div_iff₀ hd' two_pos]
  norm_cast
  omega

/-- The shift of R93 raises the exponent to 1, or leaves a higher one. -/
theorem exists_quotientShift {w : ℕ} (hw : 14 ≤ w) {e : ℤ} (hlow : -1078 ≤ e) :
    ∃ shift : ℕ, quotientShift w e = shift ∧ e + shift = max e 1 := by
  unfold quotientShift
  split
  · exact ⟨0, rfl, by omega⟩
  · exact ⟨(1 - e).toNat, by rw [expWrap_eq hw (by omega) (by omega)]; omega, by omega⟩

namespace QuotientAt

variable {w : ℕ} {e : ℤ} {sigA sigB : ℕ} {v : ℚ} (h : QuotientAt e sigA sigB v) (s : BitVec 1)

include h

/-- The quotient and the residual over the shifted divisor are the parts of the magnitude, once the
shift brings the exponent into the range of the patterns. -/
theorem roundingParts {k shift : ℕ} (hexp : e + shift = k + 1) (hk : k = 0 ∨ shift = 0) :
    RoundingParts v k (quotientResidual sigA sigB shift).1
      ((quotientResidual sigA sigB shift).2 / (sigB * 2 ^ shift : ℕ)) := by
  obtain ⟨hspec, hres⟩ := quotientResidual_spec h.divisor_pos sigA shift
  have hB : (0 : ℚ) < sigB := by exact_mod_cast h.divisor_pos
  have hD : (0 : ℚ) < (sigB * 2 ^ shift : ℕ) := by exact_mod_cast (Nat.zero_le _).trans_lt hres
  refine ⟨h.quotient_lt shift, hk.imp_right ?_, by positivity, ?_, ?_⟩
  · rintro rfl
    exact h.quotient_ge
  · rw [div_lt_one hD]
    exact_mod_cast hres
  · have hnum : (sigA : ℚ) * 2 ^ 52 =
        (quotientResidual sigA sigB shift).1 * (sigB * 2 ^ shift : ℕ) +
          (quotientResidual sigA sigB shift).2 := by
      exact_mod_cast hspec
    have hunit : (2 : ℚ) ^ (e - 1023) * 2 ^ shift = 2 ^ ((k : ℤ) - 1074) * 2 ^ 52 := by
      rw [← unit_eq_mul (e := e - 1023 + shift) shift rfl, ← unit_eq_mul 52 rfl]
      congr 1
      omega
    rw [h.eq_mul, ← mul_div_cancel_right₀ ((quotientResidual sigA sigB shift).1 : ℚ) hD.ne',
      ← add_div, ← hnum, div_mul_eq_mul_div, div_mul_eq_mul_div, div_eq_div_iff hB.ne' hD.ne']
    push_cast
    linear_combination (sigA : ℚ) * sigB * hunit

/-- The quotient shifted to its place is packed and rounded (R98, R99). -/
theorem roundPacked_eq {shift : ℕ} (hshift : e + shift = max e 1) (hmax : e ≤ 2046) :
    roundPacked (divPack (signWord s) e (quotientResidual sigA sigB shift).1)
      (categoryOfResidual (quotientResidual sigA sigB shift).2 (sigB * 2 ^ shift)) = rne64 s v := by
  obtain ⟨k, hk⟩ : ∃ k : ℕ, max e 1 = k + 1 := ⟨(max e 1 - 1).toNat, by omega⟩
  obtain ⟨habove, hbelow⟩ := categoryOfResidual_iff
    (Nat.mul_pos h.divisor_pos (Nat.two_pow_pos shift)) (quotientResidual sigA sigB shift).2
  exact roundPacked_eq_rne64 s (h.roundingParts (by omega) (by omega)) (by omega)
    (divPack_toNat s hk (by omega) (h.quotient_lt shift)) habove hbelow

/-- The flush of R100: the quotient is 0 and the residual below half the shifted divisor. -/
theorem rne64_eq_signWord (hlow : e ≤ -63) : rne64 s v = signWord s := by
  obtain ⟨shift, hshift⟩ := Int.le.dest (show e ≤ 1 by omega)
  have hpow : 2 ^ 64 ≤ 2 ^ shift := Nat.pow_le_pow_right Nat.two_pos (by omega)
  have hzero : (quotientResidual sigA sigB shift).1 = 0 := by
    have hlt := h.quotient_mul_lt shift
    have hmul := Nat.mul_le_mul_left (quotientResidual sigA sigB shift).1 hpow
    omega
  have hsmall : 2 * (quotientResidual sigA sigB shift).2 < sigB * 2 ^ shift := by
    obtain ⟨hspec, _⟩ := quotientResidual_spec h.divisor_pos sigA shift
    have hdouble := h.dividend_lt
    have hmul := Nat.mul_le_mul_left sigB hpow
    rw [hzero, zero_mul, zero_add] at hspec
    omega
  have hbelow : ((quotientResidual sigA sigB shift).2 / (sigB * 2 ^ shift : ℕ) : ℚ) < 1 / 2 := by
    rw [div_lt_div_iff₀ (by exact_mod_cast (Nat.zero_le _).trans_lt hsmall) two_pos]
    norm_cast
    omega
  have hparts := h.roundingParts (k := 0) (shift := shift) (by omega) (.inl rfl)
  rw [hparts.rne64_eq, roundedNumber, halfEvenIncrement, if_pos hbelow, hzero]
  simp

/-- The end of the divider rounds the quotient to the pattern of `RNE64`. -/
theorem divFinish_eq (hw : 14 ≤ w) (hlow : -1078 ≤ e) :
    divFinish w (signWord s) e sigA sigB = rne64 s v := by
  obtain ⟨shift, hshift, hsum⟩ := exists_quotientShift hw hlow
  unfold divFinish
  rw [hshift]
  dsimp only
  split_ifs with hover hflush
  · have hparts := h.roundingParts (k := (e - 1).toNat) (shift := 0) (by omega) (.inr rfl)
    exact (hparts.rne64_eq_inf (by omega) s).symm
  · exact (h.rne64_eq_signWord s (by omega)).symm
  · exact h.roundPacked_eq s hsum (by omega)

end QuotientAt

end Sys2Proof.Machine
end

section
/-! DIV of finite nonzero operands (43_fp_divider.md R95 to R101): the exact quotient, rounded. -/

namespace Sys2Proof.Machine

open Sys2Proof

theorem delivers_div {s : State} {a b r : Word}
    (h : divEngine s.cfg.nanSignDiv s.cfg.expw a b = r) : Delivers s (.div a b) r :=
  delivers_of_unitFunction h

theorem divSig_eq_mulSig (x : Word) : divSig x = (mulSig x ||| implBit).toNat := by
  simp [divSig, mulSig, belowNormal_eq]

theorem divSig_bounds (x : Word) : 2 ^ 52 ≤ divSig x ∧ divSig x < 2 ^ 53 := by
  rw [divSig_eq_mulSig, or_implBit_toNat (mulSig_lt x)]
  omega

section Widths

variable {w : ℕ} (hw : 14 ≤ w)

include hw

/-- The magnitude of an operand from what the divider takes of it. -/
theorem abs_value_eq_divSig {x : Word} (hx : special x = false) :
    |value x| = divSig x * 2 ^ ((unpack w x).1 - 1075) := by
  rw [divSig_eq_mulSig, abs_value_eq_mulSig hw hx]

/-- The exact quotient is that of the significands in the unit of the quotient's exponent. -/
theorem abs_value_div_eq {a b : Word} (ha : special a = false) (hb : special b = false) :
    |value a / value b| = (divSig a / divSig b : ℚ) * 2 ^ (quotientExp w a b - 1023) := by
  have hunit : (2 : ℚ) ^ ((unpack w a).1 - 1075) / 2 ^ ((unpack w b).1 - 1075) =
      2 ^ (quotientExp w a b - 1023) := by
    rw [← zpow_sub₀ two_ne_zero, quotientExp_eq_unpack hw]
    congr 1
    ring
  rw [abs_div, abs_value_eq_divSig hw ha, abs_value_eq_divSig hw hb, mul_div_mul_comm, hunit]

/-- A dividend significand below the divisor's is doubled, and the exponent lowered by one. -/
theorem divAlign_quotientAt {e : ℤ} (hlow : -1077 ≤ e) (hhigh : e ≤ 3123) {sigA sigB : ℕ} {v : ℚ}
    (hA : 2 ^ 52 ≤ sigA ∧ sigA < 2 ^ 53) (hB : 2 ^ 52 ≤ sigB ∧ sigB < 2 ^ 53)
    (hv : v = (sigA / sigB : ℚ) * 2 ^ (e - 1023)) :
    QuotientAt (divAlign w e sigA sigB).1 (divAlign w e sigA sigB).2 sigB v := by
  obtain ⟨hgeB, hltB⟩ := hB
  unfold divAlign
  rw [expWrap_eq hw (by omega) (by omega)]
  split
  next hlt =>
    have hunit := unit_eq_mul (e := e - 1023) (f := e - 1 - 1023) 1 (by push_cast; ring)
    refine ⟨⟨hgeB, hltB, by dsimp only; omega, by dsimp only; omega⟩, ?_⟩
    rw [hv, hunit]
    push_cast
    ring
  next hge => exact ⟨⟨hgeB, hltB, by dsimp only; omega, by dsimp only; omega⟩, hv⟩

/-- DIV of operands neither of which is special. -/
theorem divEngine_eq_rne64 {a b : Word} (ha : special a = false) (hb : special b = false)
    (p : NaNSign) :
    divEngine p w a b = rne64 (signField a ^^^ signField b) |value a / value b| := by
  obtain ⟨hlow, hhigh⟩ := quotientExp_bounds hw a b
  obtain ⟨hlow', _⟩ := divAlign_exp_bounds hw hlow hhigh (divSig a) (divSig b)
  have hquotient := divAlign_quotientAt hw hlow hhigh (divSig_bounds a) (divSig_bounds b)
    (abs_value_div_eq hw ha hb)
  rw [divEngine, if_neg (by simp [ha, hb]), divGeneric, xorSign_eq]
  exact hquotient.divFinish_eq _ hw hlow'

end Widths

/-- Settles O53: the aligned significands give the exact quotient, and the end of the divider rounds
it. -/
theorem divOfFiniteOperandsIsTheRoundedQuotient :
    Obligations.DivOfFiniteOperandsIsTheRoundedQuotient := by
  intro s a b hw hnonzero
  obtain ⟨⟨ha, hb⟩, ha0, hb0⟩ := hnonzero
  exact delivers_div (divEngine_eq_rne64 hw (special_eq_false_iff.mpr ⟨ha, ha0⟩)
    (special_eq_false_iff.mpr ⟨hb, hb0⟩) _)

theorem value_onePattern : value 0x3FF0000000000000#64 = 1 := by
  have hsign : signField 0x3FF0000000000000#64 = 0#1 := by decide
  have hexp : expField 0x3FF0000000000000#64 = 1023#11 := by decide
  have hsig : sigField 0x3FF0000000000000#64 = 0#52 := by decide
  rw [value, hsign, hexp, hsig, if_neg (by decide), if_neg (by decide)]
  norm_num

theorem rne64_one : rne64 0#1 1 = 0x3FF0000000000000#64 := by
  have hfix := referenceRoundingFixesFinitePatterns 0x3FF0000000000000#64 (by decide)
  rwa [value_onePattern, abs_one] at hfix

/-- Settles O54: the exact quotient is 1, and the sign that of two equal ones. -/
theorem dividingByItselfGivesOne : Obligations.DividingByItselfGivesOne := by
  intro s a hw ha ha0
  have hspecial := special_eq_false_iff.mpr ⟨ha, ha0⟩
  have hne : value a ≠ 0 := abs_pos.mp (widens hw hspecial).abs_pos
  apply delivers_div
  rw [divEngine_eq_rne64 hw hspecial hspecial, BitVec.xor_self, div_self hne, abs_one, rne64_one]

end Sys2Proof.Machine
end

section
/-! The special path of DIV (43_fp_divider.md R94). -/

namespace Sys2Proof.Machine

open Sys2Proof

section SpecialPath

variable {a b : Word} (p : NaNSign) (w : ℕ)

theorem divEngine_of_special (h : special a = true ∨ special b = true) :
    divEngine p w a b = divSpecial p a b := by
  simp [divEngine, h]

theorem divEngine_nan_left (ha : isNaN a = true) : divEngine p w a b = nanResult p a := by
  have hA := isNaN_iff.mp ha
  rw [divEngine_of_special p w (.inl (special_iff.mpr (by omega))), divSpecial, if_pos ha]

theorem divEngine_nan_right (ha : isNaN a = false) (hb : isNaN b = true) :
    divEngine p w a b = nanResult p b := by
  have hB := isNaN_iff.mp hb
  rw [divEngine_of_special p w (.inr (special_iff.mpr (by omega))), divSpecial,
    if_neg (Bool.not_eq_true _ ▸ ha), if_pos hb]

theorem divEngine_inf_left (ha : isInf a = true) (hb : isNaN b = false) :
    divEngine p w a b = if isInf b then qnan else infPattern ||| xorSign a b := by
  rw [divEngine_of_special p w (.inl (special_of_isInf ha)), divSpecial,
    if_neg (by simp [isNaN_eq_false_of_isInf ha]), if_neg (by simp [hb]), if_pos ha]

theorem divEngine_inf_right (ha : isFinite a = true) (hb : isInf b = true) :
    divEngine p w a b = xorSign a b := by
  obtain ⟨hInf, hNaN⟩ := isInf_isNaN_eq_false_of_isFinite ha
  rw [divEngine_of_special p w (.inr (special_of_isInf hb)), divSpecial, if_neg (by simp [hNaN]),
    if_neg (by simp [isNaN_eq_false_of_isInf hb]), if_neg (by simp [hInf]), if_pos hb]

/-- The table without its NaN and infinity rows. -/
theorem divEngine_of_zero (h : isZero a = true ∨ isZero b = true) (ha : isFinite a = true)
    (hb : isFinite b = true) :
    divEngine p w a b =
      if isZero a then if isZero b then qnan else xorSign a b else infPattern ||| xorSign a b := by
  obtain ⟨hInfA, hNaNA⟩ := isInf_isNaN_eq_false_of_isFinite ha
  obtain ⟨hInfB, hNaNB⟩ := isInf_isNaN_eq_false_of_isFinite hb
  rw [divEngine_of_special p w (h.imp special_of_isZero special_of_isZero)]
  simp [divSpecial, hInfA, hNaNA, hInfB, hNaNB]

theorem divEngine_zero_left (ha : isZero a = true) (hb : isFinite b = true) :
    divEngine p w a b = if isZero b then qnan else xorSign a b :=
  (divEngine_of_zero p w (.inl ha) (isFinite_of_isZero ha) hb).trans (if_pos ha)

theorem divEngine_zero_right (ha : isFinite a = true) (ha0 : isZero a = false)
    (hb : isZero b = true) : divEngine p w a b = infPattern ||| xorSign a b :=
  (divEngine_of_zero p w (.inr hb) ha (isFinite_of_isZero hb)).trans (if_neg (by simp [ha0]))

end SpecialPath

/-- Settles O50, row by row of the table. -/
theorem divSpecialCasesFollowTheTable : Obligations.DivSpecialCasesFollowTheTable := by
  intro s a b
  dsimp only
  simp only [← isNaN_eq_classify, ← isInf_eq_classify, ← isZero_eq_classify, ← xorSign_eq]
  refine ⟨fun ha => delivers_div (divEngine_nan_left _ _ ha),
    fun ha hb => delivers_div (divEngine_nan_right _ _ ha hb),
    fun ha hb => delivers_div ?infInf, fun ha hb => delivers_div ?infFinite,
    fun ha hb => delivers_div (divEngine_inf_right _ _ ha hb),
    fun ha hb => delivers_div ?zeroZero, fun ha hb hb0 => delivers_div ?zeroNonzero,
    fun ha ha0 hb => delivers_div (divEngine_zero_right _ _ ha ha0 hb)⟩
  case infInf => rw [divEngine_inf_left _ _ ha (isNaN_eq_false_of_isInf hb), if_pos hb]
  case infFinite =>
    obtain ⟨hInf, hNaN⟩ := isInf_isNaN_eq_false_of_isFinite hb
    rw [divEngine_inf_left _ _ ha hNaN, if_neg (by simp [hInf])]
  case zeroZero => rw [divEngine_zero_left _ _ ha (isFinite_of_isZero hb), if_pos hb]
  case zeroNonzero => rw [divEngine_zero_left _ _ ha hb, if_neg (by simp [hb0])]

end Sys2Proof.Machine
end

section
/-! The candidate quotient of the reciprocal scheme (43_fp_divider.md R97): how far an accurate
reciprocal leaves it from the truncated quotient. -/

namespace Sys2Proof.Machine

open Sys2Proof

/-- Two fractions at most one apart, shifted by any number of bits, have whole parts at most one
apart. -/
theorem div_mul_le_div_mul_add_one {m n c d s : ℕ} (hc : 0 < c) (hd : 0 < d) (hs : 0 < s)
    (h : m * d ≤ (n + d) * c) : m / (c * s) ≤ n / (d * s) + 1 := by
  have hwhole : m / c ≤ n / d + 1 := by
    rw [← Nat.add_div_right n hd, Nat.le_div_iff_mul_le hd]
    refine Nat.le_of_mul_le_mul_right (c := c) ?_ hc
    calc m / c * d * c = m / c * c * d := by ring
      _ ≤ m * d := Nat.mul_le_mul_right d (Nat.div_mul_le_self m c)
      _ ≤ (n + d) * c := h
  calc m / (c * s) = m / c / s := (Nat.div_div_eq_div_mul m c s).symm
    _ ≤ (n / d + s) / s := Nat.div_le_div_right (by omega)
    _ = n / (d * s) + 1 := by rw [Nat.add_div_right _ hs, Nat.div_div_eq_div_mul]

/-- The candidate is the product of reciprocal and dividend without its low 64 bits, shifted. -/
theorem candidateQuotient_eq {x sigA : ℕ} (hx : x < 2 ^ 64) (hA : sigA < 2 ^ 64) (shift : ℕ) :
    candidateQuotient x sigA shift = sigA * x / (2 ^ 64 * 2 ^ shift) := by
  have hmul := wideningMultiplierIsExact (BitVec.ofNat 64 sigA) (BitVec.ofNat 64 x)
  have hlow := (wmul (BitVec.ofNat 64 sigA) (BitVec.ofNat 64 x)).2.isLt
  rw [BitVec.toNat_ofNat, BitVec.toNat_ofNat, Nat.mod_eq_of_lt hx, Nat.mod_eq_of_lt hA] at hmul
  have hhigh : (wmul (BitVec.ofNat 64 sigA) (BitVec.ofNat 64 x)).1.toNat = sigA * x / 2 ^ 64 := by
    omega
  rw [candidateQuotient, hhigh, Nat.div_div_eq_div_mul]

theorem reciprocalAccurate_iff {x sigB : ℕ} :
    reciprocalAccurate x sigB ↔
      x * sigB ≤ 2 ^ 116 + 220 * sigB ∧ 2 ^ 116 ≤ x * sigB + 220 * sigB := by
  have hprecision : reciprocalPrecision = 220 := rfl
  rw [reciprocalAccurate, hprecision, ← Nat.cast_mul]
  omega

/-- 220 units of the reciprocal's last place are less than one unit of a quotient of 54 bits. -/
theorem product_near {x sigA sigB : ℕ} (hA : sigA < 2 ^ 54) (hx : reciprocalAccurate x sigB) :
    sigA * x * sigB ≤ (sigA * 2 ^ 52 + sigB) * 2 ^ 64 ∧
    sigA * 2 ^ 52 * 2 ^ 64 ≤ (sigA * x + 2 ^ 64) * sigB := by
  obtain ⟨hupper, hlower⟩ := reciprocalAccurate_iff.mp hx
  have herror : sigA * (220 * sigB) ≤ 2 ^ 62 * sigB := by
    rw [← mul_assoc]
    exact Nat.mul_le_mul_right sigB (by omega)
  have hupper' := Nat.mul_le_mul_left sigA hupper
  have hlower' := Nat.mul_le_mul_left sigA hlower
  constructor <;> linarith

/-- Settles O56: product and dividend, over their divisors, are less than one apart. -/
theorem accurateReciprocalLeavesOneCorrection :
    Obligations.AccurateReciprocalLeavesOneCorrection := by
  intro x sigA sigB shift hx hA hB haccurate
  obtain ⟨hupper, hlower⟩ := product_near hA haccurate
  rw [candidateQuotient_eq hx (by omega)]
  exact ⟨div_mul_le_div_mul_add_one (by positivity) hB (by positivity) hupper,
    div_mul_le_div_mul_add_one hB (by positivity) (by positivity) hlower⟩

end Sys2Proof.Machine
end

section
/-! How accurate the refined reciprocal is (43_fp_divider.md R97) with the parameters of log entry 17: a
Newton-Raphson iteration squares the relative error, up to its truncations, and never rises to 1 for the
least divisor. -/

namespace Sys2Proof.Machine

open Sys2Proof

/-! ## Iterations -/

theorem newtonIterate_add (k b m n x : ℕ) :
    newtonIterate k b (m + n) x = newtonIterate k b n (newtonIterate k b m x) := by
  induction m generalizing x with
  | zero => rw [Nat.zero_add, newtonIterate]
  | succ m ih => rw [Nat.add_right_comm, newtonIterate, newtonIterate, ih]

/-- What every iteration keeps holds after any number of them. -/
theorem newtonIterate_keeps {P : ℕ → Prop} {k b : ℕ} (hstep : ∀ x, P x → P (newtonStep k b x))
    (n : ℕ) {x : ℕ} (h : P x) : P (newtonIterate k b n x) := by
  induction n generalizing x with
  | zero => exact h
  | succ n ih => exact ih (hstep x h)

/-! ## The relative error -/

/-- The relative error `1 − b · x` of a reciprocal `x` of `b`, both with `k` fraction bits, in units of
`2 ^ (-2 * k)`. -/
def relativeError (k b x : ℕ) : ℤ :=
  2 ^ k * 2 ^ k - b * x

/-- An iteration squares the error; its truncations raise it by less than `b` and lower it by at most
`b * x / 2 ^ k`. -/
theorem relativeError_newtonStep {k b x : ℕ} (hb : 0 < b)
    (hlow : -(2 ^ k * 2 ^ k) ≤ relativeError k b x) :
    relativeError k b (newtonStep k b x) * (2 ^ k * 2 ^ k) <
      relativeError k b x ^ 2 + b * (2 ^ k * 2 ^ k) ∧
    relativeError k b x ^ 2 ≤
      relativeError k b (newtonStep k b x) * (2 ^ k * 2 ^ k) + b * x * 2 ^ k := by
  unfold relativeError at *
  have hfit : b * x ≤ 2 * 2 ^ k * 2 ^ k := by zify; linarith
  obtain ⟨hupper, hlower⟩ := newtonStep_bounds hfit
  zify at hupper hlower hb
  generalize (2 : ℤ) ^ k = K at *
  generalize (newtonStep k b x : ℤ) = y at *
  constructor
  · linarith [mul_lt_mul_of_pos_left hlower hb]
  · linarith [mul_le_mul_of_nonneg_left hupper hb.le]

/-! ## Half width -/

section HalfWidth

variable {b : ℕ} (hge : 2 ^ 32 ≤ b) (hlt : b < 2 ^ 33)

include hge hlt

/-- One half-width iteration, with bounds on the error before and after it. -/
theorem relativeError_halfStep {x : ℕ} {m m' : ℤ} (hm : m ≤ 2 ^ 64)
    (hm' : m ^ 2 + 2 ^ 97 ≤ 2 ^ 64 * m')
    (hx : -m ≤ relativeError 32 b x ∧ relativeError 32 b x ≤ m) :
    -2 ^ 33 ≤ relativeError 32 b (newtonStep 32 b x) ∧
      relativeError 32 b (newtonStep 32 b x) ≤ m' := by
  obtain ⟨hlow, hhigh⟩ := hx
  have hsquare := sq_le_sq' hlow hhigh
  have hnonneg := sq_nonneg (relativeError 32 b x)
  have hfit : (b * x : ℤ) ≤ 2 ^ 65 := by unfold relativeError at hlow; omega
  obtain ⟨hupper, hlower⟩ :=
    relativeError_newtonStep (k := 32) (b := b) (x := x) (by omega) (by omega)
  constructor <;> omega

/-- The linear approximation is worst where the divisor comes near 2, and 11/128 bounds its error. -/
theorem relativeError_recipSeed :
    -(11 * 2 ^ 57) ≤ relativeError 32 b (0x17504F333 - b / 2) ∧
      relativeError 32 b (0x17504F333 - b / 2) ≤ 11 * 2 ^ 57 := by
  have hhalf : ((0x17504F333 - b / 2 : ℕ) : ℤ) = 0x17504F333 - (b / 2 : ℕ) := by omega
  have hsquare : 2 * relativeError 32 b (0x17504F333 - b / 2) =
      (b - 0x17504F333) ^ 2 + (2 ^ 65 - 0x17504F333 ^ 2) - (b % 2 : ℕ) * b := by
    have hb : (b : ℤ) = 2 * (b / 2 : ℕ) + (b % 2 : ℕ) := by omega
    rw [relativeError, hhalf]
    generalize ((b / 2 : ℕ) : ℤ) = h at *
    linear_combination (-b : ℤ) * hb
  have hnonneg := sq_nonneg ((b : ℤ) - 0x17504F333)
  have hedge : ((b : ℤ) - 0x17504F333) ^ 2 ≤ (2 ^ 33 - 0x17504F333) ^ 2 :=
    sq_le_sq' (by omega) (by omega)
  have hparity : (0 : ℤ) ≤ (b % 2 : ℕ) * b ∧ ((b % 2 : ℕ) * b : ℤ) ≤ 2 ^ 33 := by
    obtain h | h := Nat.mod_two_eq_zero_or_one b <;> rw [h] <;> omega
  constructor <;> omega

/-- Three half-width iterations, or more, leave an error that a further one keeps. -/
theorem relativeError_half {iters : ℕ} (hiters : 3 ≤ iters) :
    -2 ^ 33 ≤ relativeError 32 b (newtonIterate 32 b iters (0x17504F333 - b / 2)) ∧
      relativeError 32 b (newtonIterate 32 b iters (0x17504F333 - b / 2)) ≤ 3786 * 2 ^ 24 := by
  have hseed := relativeError_recipSeed hge hlt
  obtain ⟨hlow1, hhigh1⟩ :=
    relativeError_halfStep hge hlt (m' := 121 * 2 ^ 50 + 2 ^ 33) (by norm_num) (by norm_num) hseed
  obtain ⟨hlow2, hhigh2⟩ :=
    relativeError_halfStep hge hlt (m' := 1831 * 2 ^ 39) (by norm_num) (by norm_num)
      ⟨by omega, hhigh1⟩
  have hthird :=
    relativeError_halfStep hge hlt (m' := 3786 * 2 ^ 24) (by norm_num) (by norm_num)
      ⟨by omega, hhigh2⟩
  obtain ⟨n, rfl⟩ := Nat.exists_eq_add_of_le hiters
  rw [newtonIterate_add]
  refine newtonIterate_keeps
    (P := fun x => -2 ^ 33 ≤ relativeError 32 b x ∧ relativeError 32 b x ≤ 3786 * 2 ^ 24)
    (fun x hx => ?_) n hthird
  exact relativeError_halfStep hge hlt (by norm_num) (by norm_num) ⟨by omega, hx.2⟩

end HalfWidth

/-! ## Full width -/

theorem divisorFixed_full (sigB : ℕ) : divisorFixed fullWidth sigB = sigB * 2 ^ 12 := by
  rw [divisorFixed, fullWidth]
  omega

/-- The bits of the divisor below the half width lower the error by less than `x` of the
half-width units. -/
theorem relativeError_widen {sigB x : ℕ} (hb : 2 ^ 32 ≤ divisorFixed 32 sigB)
    (hlow : -2 ^ 33 ≤ relativeError 32 (divisorFixed 32 sigB) x)
    (hhigh : relativeError 32 (divisorFixed 32 sigB) x ≤ 3786 * 2 ^ 24) :
    -(3786 * 2 ^ 88) ≤ relativeError 64 (sigB * 2 ^ 12) (x * 2 ^ 32) ∧
      relativeError 64 (sigB * 2 ^ 12) (x * 2 ^ 32) ≤ 3786 * 2 ^ 88 := by
  obtain ⟨rest, hrest, hsplit⟩ :
      ∃ rest < 2 ^ 20, sigB = 2 ^ 20 * divisorFixed 32 sigB + rest :=
    ⟨sigB % 2 ^ 20, by omega, by unfold divisorFixed; omega⟩
  have hwide : relativeError 64 (sigB * 2 ^ 12) (x * 2 ^ 32) =
      2 ^ 64 * relativeError 32 (divisorFixed 32 sigB) x - 2 ^ 44 * (rest * x : ℕ) := by
    zify at hsplit
    unfold relativeError
    push_cast
    linear_combination (-2 ^ 44 * x : ℤ) * hsplit
  have hx := Nat.mul_le_mul_right x hb
  have hloss := Nat.mul_le_mul_right x hrest.le
  rw [hwide]
  unfold relativeError at *
  constructor <;> omega

/-- The full-width iteration makes a reciprocal accurate whose error the half-width ones have brought
below the square root of 219 units. -/
theorem reciprocalAccurate_fullStep {sigB x : ℕ} (hB : 2 ^ 52 ≤ sigB)
    (hlow : -(3786 * 2 ^ 88) ≤ relativeError 64 (sigB * 2 ^ 12) x)
    (hhigh : relativeError 64 (sigB * 2 ^ 12) x ≤ 3786 * 2 ^ 88) :
    reciprocalAccurate (newtonStep 64 (sigB * 2 ^ 12) x) sigB := by
  have hsquare := sq_le_sq' hlow hhigh
  have hnonneg := sq_nonneg (relativeError 64 (sigB * 2 ^ 12) x)
  obtain ⟨hupper, hlower⟩ := relativeError_newtonStep (k := 64) (b := sigB * 2 ^ 12) (x := x)
    (by omega) (by omega)
  have herror : relativeError 64 (sigB * 2 ^ 12) (newtonStep 64 (sigB * 2 ^ 12) x) =
      2 ^ 12 * (2 ^ 116 - (newtonStep 64 (sigB * 2 ^ 12) x * sigB : ℕ)) := by
    unfold relativeError
    push_cast
    ring
  have hfit : ((sigB * 2 ^ 12 : ℕ) * x : ℤ) ≤ 2 ^ 129 := by unfold relativeError at hlow; omega
  rw [herror] at hupper hlower
  rw [reciprocalAccurate_iff]
  generalize newtonStep 64 (sigB * 2 ^ 12) x * sigB = product at *
  omega

/-! ## The least divisor -/

/-- For the divisor 1 an iteration from below 1 stays below it. -/
theorem newtonStep_one_lt {k x : ℕ} (hx : x < 2 ^ k) : newtonStep k (2 ^ k) x < 2 ^ k := by
  have hpos : 0 < 2 ^ k := Nat.two_pow_pos k
  obtain ⟨gap, hgap⟩ := Nat.exists_eq_add_of_lt hx
  have hfactor : 2 * 2 ^ k - x = x + 2 * (gap + 1) := by omega
  rw [newtonStep, Nat.mul_div_cancel_left x hpos, Nat.div_lt_iff_lt_mul hpos, hfactor, hgap]
  nlinarith

/-! ## The reciprocal -/

section Scheme

variable {c : Config} {sigB : ℕ} (hwidth : c.divHalfWidth = 32) (hC : c.divC = 0x17504F333)

include hwidth hC

/-- The reciprocal with the width and the constant of log entry 17. -/
theorem reciprocal_eq :
    reciprocal c sigB = newtonStep 64 (sigB * 2 ^ 12)
      (newtonIterate 32 (divisorFixed 32 sigB) c.divHalfIters
        (0x17504F333 - divisorFixed 32 sigB / 2) * 2 ^ 32) := by
  rw [reciprocal, hwidth, hC, divisorFixed_full, recipSeed, divFullIters, fullWidth]
  rw [newtonIterate, newtonIterate]
  congr 1
  omega

theorem reciprocal_accurate (hge : 2 ^ 52 ≤ sigB) (hlt : sigB < 2 ^ 53)
    (hiters : 3 ≤ c.divHalfIters) : reciprocalAccurate (reciprocal c sigB) sigB := by
  have hb : 2 ^ 32 ≤ divisorFixed 32 sigB ∧ divisorFixed 32 sigB < 2 ^ 33 := by
    unfold divisorFixed
    omega
  obtain ⟨hlow, hhigh⟩ := relativeError_half hb.1 hb.2 hiters
  obtain ⟨hlow', hhigh'⟩ := relativeError_widen hb.1 hlow hhigh
  rw [reciprocal_eq hwidth hC]
  exact reciprocalAccurate_fullStep hge hlow' hhigh'

/-- The reciprocal of 1 comes from below, and any other one lies more than 220 units below 1. -/
theorem reciprocal_lt (hge : 2 ^ 52 ≤ sigB)
    (haccurate : reciprocalAccurate (reciprocal c sigB) sigB) : reciprocal c sigB < 2 ^ 64 := by
  obtain rfl | hgt := hge.eq_or_lt
  · have hdivisor : divisorFixed 32 (2 ^ 52) = 2 ^ 32 := rfl
    have hhalf : newtonIterate 32 (2 ^ 32) c.divHalfIters (0x17504F333 - 2 ^ 32 / 2) < 2 ^ 32 :=
      newtonIterate_keeps (P := (· < 2 ^ 32)) (fun _ => newtonStep_one_lt) _ (by norm_num)
    rw [reciprocal_eq hwidth hC, hdivisor]
    exact newtonStep_one_lt (k := 64) (by omega)
  · obtain ⟨hupper, _⟩ := reciprocalAccurate_iff.mp haccurate
    by_contra hbig
    have hmul := Nat.mul_le_mul_right sigB (not_lt.mp hbig)
    omega

end Scheme

/-- Settles O55: an accurate reciprocal leaves one correction, and the error of three or more half-width
iterations is small enough for the full-width one. -/
theorem reciprocalSchemeDeliversTheExactQuotient :
    Obligations.ReciprocalSchemeDeliversTheExactQuotient := by
  intro c sigB hge hle
  have hpos : 0 < sigB := (Nat.two_pow_pos 52).trans_le hge
  refine ⟨fun hfits haccurate sigA shift hA => ?_, fun hwidth hC hiters => ?_⟩
  · obtain ⟨hupper, hlower⟩ :=
      accurateReciprocalLeavesOneCorrection _ sigA sigB shift hfits hA hpos haccurate
    exact correctQuotient_eq (Nat.mul_pos hpos (Nat.two_pow_pos shift)) hupper hlower
  · have haccurate :=
      reciprocal_accurate hwidth hC hge (Nat.lt_of_le_pred (Nat.two_pow_pos 53) hle) hiters
    exact ⟨reciprocal_lt hwidth hC hge haccurate, haccurate⟩

end Sys2Proof.Machine
end

section
/-! What stops the unit (60_exceptions.md R102): its operations complete for all operands, and a step is
refused only for a reserved op code (30_encoding.md R42) or for two results in one cycle
(70_reset_and_hazards.md R120). -/

namespace Sys2Proof.Machine

open Sys2Proof

/-! ## Accepting a request -/

/-- Only a result of latency 0 beside another one keeps a running registered unit from accepting a
request. -/
theorem exists_exec_eq_next {s : State} {i : Instr}
    (hfree : isCombinational s.cfg = true ∨ s.awaitingReset = true ∨ latencyOf s.cfg i ≠ 0 ∨
      s.outValid = false) : ∃ t, exec i s = .next t := by
  cases hexec : exec i s with
  | next t => exact ⟨t, rfl⟩
  | fault f => cases f
  | refused e =>
    obtain ⟨_, hreg, hrun, hlat, hvalid⟩ := accept_refused (exec_eq_accept i s ▸ hexec)
    simp [hreg, hrun, hlat, hvalid] at hfree

/-- Settles O8: the hypothesis excludes the one refusal there is, and each form says which state is
next. -/
theorem allFiveOperationsComplete : Obligations.AllFiveOperationsComplete := by
  intro s i hfree
  obtain ⟨t, hexec⟩ := exists_exec_eq_next hfree
  refine ⟨t, hexec, fun hcomb => ?_, fun hreg hwait => ?_⟩
  · exact Host.Outcome.next.inj (hexec.symm.trans (exec_of_combinational i hcomb))
  · exact Host.Outcome.next.inj (hexec.symm.trans (exec_of_awaitingReset i hreg hwait))

/-! ## Steps that go on -/

theorem exists_decode_of_requestDefined {s : State} (h : requestDefined s = true) :
    ∃ i, decode (requestOn s) = .ok i := by
  obtain ⟨i, hi⟩ := exists_encode_of_wf h
  exact ⟨i, hi ▸ decode_encode i⟩

theorem beginCycle_outValid_of_dueNow_eq_nil {s t : State} (h : beginCycle s = .next t)
    (hrun : s.awaitingReset = false) (hnone : dueNow s = []) : t.outValid = false := by
  rcases beginCycle_cases h with ⟨hwait, _⟩ | ⟨_, _, rfl⟩ | ⟨_, e, hdue, _⟩
  · simp [hrun] at hwait
  · rfl
  · cases hdue.symm.trans hnone

/-- Without a collision the request on the ports may still be accepted once the cycle has begun. -/
theorem exists_exec_of_noCollision {s t : State} {i : Instr} (hfree : noCollision s)
    (hbegin : beginCycle s = .next t) (hpresent : requestPresent s = true)
    (hdecode : decode (requestOn s) = .ok i) : ∃ u, exec i t = .next u := by
  obtain ⟨hcfg, _, _, _, _, hwait⟩ := beginCycle_frame hbegin
  apply exists_exec_eq_next
  rw [hcfg, hwait]
  rcases hfree with hpowerUp | ⟨_, hlat⟩
  · exact .inr (.inl hpowerUp)
  cases hrun : s.awaitingReset with
  | true => exact .inr (.inl rfl)
  | false =>
    by_cases hnone : dueNow s = []
    · exact .inr (.inr (.inr (beginCycle_outValid_of_dueNow_eq_nil hbegin hrun hnone)))
    · exact .inr (.inr (.inl (hlat hnone hpresent i hdecode)))

theorem exists_step_registered {s : State} (hreg : isCombinational s.cfg = false)
    (hfree : noCollision s) (hdefined : requestPresent s = true → requestDefined s = true) :
    ∃ t, step s = .next t := by
  obtain ⟨t, hbegin⟩ := exists_beginCycle_of_noCollision hfree
  cases hpresent : requestPresent s with
  | false =>
    exact ⟨clockEdge t, by
      simp [step_of_registered hreg, hbegin, beginCycle_requestPresent hbegin, hpresent]⟩
  | true =>
    obtain ⟨i, hdecode⟩ := exists_decode_of_requestDefined (hdefined hpresent)
    obtain ⟨u, hexec⟩ := exists_exec_of_noCollision hfree hbegin hpresent hdecode
    obtain ⟨_, hreq, _⟩ := beginCycle_frame hbegin
    have hissue : issue t = .next u := issue_eq_next.mpr ⟨i, hreq ▸ hdecode, hexec⟩
    exact ⟨clockEdge u, by
      simp [step_of_registered hreg, hbegin, beginCycle_requestPresent hbegin, hpresent, hissue]⟩

/-! ## Steps that are refused -/

theorem issue_refused {s : State} {r : Refusal} (h : issue s = .refused r) :
    (r = .reservedOp s.op ∧ requestDefined s = false) ∨
      (r = .resultCollision ∧ isCombinational s.cfg = false) := by
  cases hdefined : requestDefined s with
  | false =>
    rw [issue_of_reserved hdefined] at h
    cases h
    exact .inl ⟨rfl, rfl⟩
  | true =>
    obtain ⟨i, hdecode⟩ := exists_decode_of_requestDefined hdefined
    rw [issue_of_decode hdecode, exec_eq_accept] at h
    obtain ⟨hr, hreg, _⟩ := accept_refused h
    exact .inr ⟨hr, hreg⟩

/-- A registered cycle is refused at its start or on issuing its request; the edge refuses nothing. -/
theorem step_registered_refused {s : State} {r : Refusal} (hreg : isCombinational s.cfg = false)
    (h : step s = .refused r) :
    beginCycle s = .refused r ∨ ∃ t, beginCycle s = .next t ∧ issue t = .refused r := by
  rw [step_of_registered hreg, andThen_eq_refused] at h
  refine h.imp_right fun ⟨t, hbegin, hrest⟩ => ⟨t, hbegin, ?_⟩
  rcases andThen_eq_refused.mp hrest with hissue | ⟨_, _, hedge⟩
  · split at hissue
    · exact hissue
    · cases hissue
  · cases hedge

/-- Settles O11: the steps that go on by form; a refusal comes from the start of a registered cycle,
which refuses two results, or from issuing the request, which the start of the cycle leaves as it is. -/
theorem onlyReservedCodesAndCollisionsStop : Obligations.OnlyReservedCodesAndCollisionsStop := by
  intro s
  refine ⟨fun hcomb hdefined => ?_, exists_step_registered, fun r hrefused => ?_⟩
  · obtain ⟨i, hdecode⟩ := exists_decode_of_requestDefined hdefined
    exact ⟨_, step_combinational_of_decode hcomb hdecode⟩
  cases hform : isCombinational s.cfg with
  | true =>
    rw [step_of_combinational hform] at hrefused
    exact hform ▸ issue_refused hrefused
  | false =>
    rcases step_registered_refused hform hrefused with hbegin | ⟨t, hbegin, hissue⟩
    · obtain ⟨hcollision, _⟩ := beginCycle_refused hbegin
      exact .inr ⟨hcollision, rfl⟩
    · obtain ⟨_, hreq, _⟩ := beginCycle_frame hbegin
      have hop : t.op = s.op := congrArg Request.op hreq
      have hdefined : requestDefined t = requestDefined s := congrArg Request.wf hreq
      rw [← hop, ← hdefined]
      exact (issue_refused hissue).imp_right fun ⟨hr, _⟩ => ⟨hr, rfl⟩

end Sys2Proof.Machine
end

section
/-! The rules of a registered cycle (70_reset_and_hazards.md R116, R117, R120): how it begins by the
number of results due in it, how it reads with and without a request, what accepting a request keeps of
what is shown and in flight, and that a running unit keeps running. -/

namespace Sys2Proof.Machine

open Sys2Proof

/-- The registered form past its first reset (10_state.md R19, 70_reset_and_hazards.md R116). -/
structure State.Running (s : State) : Prop where
  registered : isCombinational s.cfg = false
  pastReset : s.awaitingReset = false

/-! ## The outputs of a cycle -/

@[simp] theorem State.showNone_cfg (s : State) : s.showNone.cfg = s.cfg := rfl

@[simp] theorem State.showNone_rst (s : State) : s.showNone.rst = s.rst := rfl

@[simp] theorem State.showNone_outValid (s : State) : s.showNone.outValid = false := rfl

@[simp] theorem State.showNone_pipe (s : State) : s.showNone.pipe = s.pipe := rfl

theorem State.showEntry_of_clear {s : State} {e : InFlight} (h : e.overlapped = false) :
    s.showEntry e = s.showResult e.result :=
  if_neg (by simp [h])

theorem State.showEntry_of_overlapped {s : State} {e : InFlight} (h : e.overlapped = true) :
    s.showEntry e = s.showUnspecified :=
  if_pos h

@[simp] theorem State.showEntry_outValid (s : State) (e : InFlight) :
    (s.showEntry e).outValid = true := by
  unfold State.showEntry; split <;> rfl

/-! ## The start of a cycle -/

theorem mem_dueNow {s : State} {e : InFlight} :
    e ∈ dueNow s ↔ e ∈ s.pipe ∧ e.age = latencyOf s.cfg e.request := by
  simp [dueNow, isDue]

theorem beginCycle_of_awaitingReset {s : State} (h : s.awaitingReset = true) :
    beginCycle s = .next s.showPowerUp :=
  if_pos h

theorem beginCycle_of_none_due {s : State} (hrun : s.awaitingReset = false) (hdue : dueNow s = []) :
    beginCycle s = .next s.showNone := by
  rw [dueNow] at hdue
  simp [beginCycle, hrun, hdue]

theorem beginCycle_of_one_due {s : State} {e : InFlight} (hrun : s.awaitingReset = false)
    (hdue : dueNow s = [e]) :
    beginCycle s = .next ((s.setPipe (s.pipe.filter fun d => !isDue s.cfg d)).showEntry e) := by
  rw [dueNow] at hdue
  simp [beginCycle, hrun, hdue]

theorem beginCycle_of_two_due {s : State} (hrun : s.awaitingReset = false)
    (hdue : 2 ≤ (dueNow s).length) : beginCycle s = .refused .resultCollision := by
  match hlist : dueNow s, hdue with
  | _ :: _ :: _, _ =>
    rw [dueNow] at hlist
    simp [beginCycle, hrun, hlist]

/-- A request that is due and not overlapped is the one whose result the cycle shows. -/
theorem beginCycle_shows_due {s t : State} {e : InFlight} (h : beginCycle s = .next t)
    (hrun : s.awaitingReset = false) (hdue : e ∈ dueNow s) (hclear : e.overlapped = false) :
    t.y = e.result ∧ t.outValid = true := by
  rcases beginCycle_cases h with ⟨hwait, _⟩ | ⟨_, hnone, _⟩ | ⟨_, d, hone, rfl⟩
  · simp [hrun] at hwait
  · rw [dueNow, hnone] at hdue
    cases hdue
  · rw [dueNow, hone, List.mem_singleton] at hdue
    subst hdue
    rw [State.showEntry_of_clear hclear]
    exact ⟨rfl, rfl⟩

/-- A request that is not due stays in flight when a cycle begins. -/
theorem beginCycle_keeps_pending {s t : State} {e : InFlight} (h : beginCycle s = .next t)
    (hmem : e ∈ s.pipe) (hage : e.age ≠ latencyOf s.cfg e.request) : e ∈ t.pipe := by
  have hrest : e ∈ s.pipe.filter fun d => !isDue s.cfg d := by simp [hmem, isDue, hage]
  rcases beginCycle_cases h with ⟨_, rfl⟩ | ⟨_, _, rfl⟩ | ⟨_, d, _, rfl⟩
  · exact hmem
  · exact hmem
  · simpa using hrest

/-! ## Accepting a request -/

/-- A request never marks an older one that is at least `II` cycles old, so that one stays as it is. -/
theorem exec_keeps_spaced {i : Instr} {s t : State} {e : InFlight} (h : exec i s = .next t)
    (hmem : e ∈ s.pipe) (hage : s.cfg.ii ≤ e.age) : e ∈ t.pipe := by
  have hmark : e ∈ pipeAfterRequest s := by
    unfold pipeAfterRequest
    split
    · exact hmem
    · exact List.mem_map.mpr ⟨e, hmem, if_neg (Nat.not_lt.mpr hage)⟩
  rw [exec_eq_accept] at h
  rcases accept_cases h with ⟨_, rfl⟩ | ⟨_, _, rfl⟩ | ⟨_, _, _, _, _, rfl⟩ | ⟨_, _, _, _, _, rfl⟩ |
    ⟨_, _, _, rfl⟩
  · exact hmem
  · exact hmem
  · exact hmem
  · exact hmark
  · exact List.mem_append_left _ hmark

/-- A request accepted beside a result that is shown leaves that result on the outputs. -/
theorem exec_keeps_shown {i : Instr} {s t : State} (h : exec i s = .next t)
    (hreg : isCombinational s.cfg = false) (hshown : s.outValid = true) :
    t.y = s.y ∧ t.outValid = true := by
  rw [exec_eq_accept] at h
  rcases accept_cases h with ⟨hcomb, _⟩ | ⟨_, _, rfl⟩ | ⟨_, _, _, hnone, _⟩ | ⟨_, _, _, hnone, _⟩ |
    ⟨_, _, _, rfl⟩
  · simp [hreg] at hcomb
  · exact ⟨rfl, hshown⟩
  · simp [hshown] at hnone
  · simp [hshown] at hnone
  · exact ⟨rfl, hshown⟩

/-- A request of latency 0 beside a result that is shown is refused. -/
theorem exec_of_collision {i : Instr} {s : State} (hrun : s.Running) (hlat : latencyOf s.cfg i = 0)
    (hshown : s.outValid = true) : exec i s = .refused .resultCollision := by
  simp [exec_eq_accept, accept, enterPipeline, hrun.registered, hrun.pastReset, hlat, hshown]

/-! ## A whole cycle -/

theorem step_of_request_absent {s : State} (hreg : isCombinational s.cfg = false)
    (habsent : requestPresent s = false) :
    step s = andThen (beginCycle s) fun t => .next (clockEdge t) := by
  rw [step_of_registered hreg]
  refine andThen_congr fun t hbegin => ?_
  simp [beginCycle_requestPresent hbegin, habsent]

theorem step_of_request_present {s : State} {i : Instr} (hreg : isCombinational s.cfg = false)
    (hpresent : requestPresent s = true) (hdecode : decode (requestOn s) = .ok i) :
    step s = andThen (beginCycle s) fun t => andThen (exec i t) fun u => .next (clockEdge u) := by
  obtain ⟨_, hstep, _⟩ := stepRunsTheDecodedInstruction s i hdecode
  exact hstep hreg hpresent

theorem requestPresent_iff {s : State} :
    requestPresent s = true ↔ s.inValid = true ∧ s.rst = false := by
  simp [requestPresent]

theorem requestPresent_of_not_inValid {s : State} (h : s.inValid = false) :
    requestPresent s = false := by
  simp [requestPresent, h]

theorem requestPresent_of_rst {s : State} (h : s.rst = true) : requestPresent s = false := by
  simp [requestPresent, h]

/-- Every registered cycle ends with the edge, which alone can end the wait for a reset. -/
theorem step_awaitingReset {s u : State} (hreg : isCombinational s.cfg = false)
    (h : step s = .next u) : u.awaitingReset = (s.awaitingReset && !s.rst) := by
  rcases step_cases h with ⟨hcomb, _⟩ | ⟨_, t, hbegin, hrest⟩
  · simp [hreg] at hcomb
  obtain ⟨_, _, _, hrst, _, hwait⟩ := beginCycle_frame hbegin
  rcases hrest with ⟨_, rfl⟩ | ⟨_, i, v, _, hexec, rfl⟩
  · simp [hrst, hwait]
  · obtain ⟨_, _, _, hrst', hwait'⟩ := exec_frame hexec
    simp [hrst', hwait', hrst, hwait]

theorem State.Running.drive {s : State} (h : s.Running) (j : Inputs) : (s.drive j).Running :=
  ⟨by simpa using h.registered, by simpa using h.pastReset⟩

theorem State.Running.after_beginCycle {s t : State} (h : s.Running)
    (hbegin : beginCycle s = .next t) : t.Running := by
  obtain ⟨hcfg, _, _, _, _, hwait⟩ := beginCycle_frame hbegin
  exact ⟨hcfg ▸ h.registered, hwait ▸ h.pastReset⟩

theorem State.Running.after_step {s u : State} (h : s.Running) (hstep : step s = .next u) :
    u.Running := by
  obtain ⟨hcfg, _⟩ := stepsChangeNoParameterAndNoInput s u hstep
  exact ⟨hcfg ▸ h.registered, by simp [step_awaitingReset h.registered hstep, h.pastReset]⟩

end Sys2Proof.Machine
end

section
/-! The latency of a request (70_reset_and_hazards.md R117): followed from the cycle of its acceptance,
a request that nothing overlaps stays in flight, one cycle older each cycle, until its result is shown. -/

namespace Sys2Proof.Machine

open Sys2Proof

/-! ## The cycle of the acceptance -/

/-- Request `i` as it enters the pipeline in a cycle with no request less than `II` cycles before. -/
def InFlight.accepted (c : Config) (i : Instr) : InFlight where
  request := i
  age := 0
  result := unitFunction c i
  overlapped := false

@[simp] theorem InFlight.accepted_request (c : Config) (i : Instr) :
    (InFlight.accepted c i).request = i := rfl

@[simp] theorem InFlight.accepted_age (c : Config) (i : Instr) :
    (InFlight.accepted c i).age = 0 := rfl

theorem exec_of_spaced {s : State} {i : Instr} (hrun : s.Running) (hbusy : s.busy = 0)
    (hlat : latencyOf s.cfg i ≠ 0) :
    exec i s = .next ((s.setBusy s.cfg.ii).setPipe (s.pipe ++ [.accepted s.cfg i])) := by
  obtain ⟨_, hdelivers⟩ := delivers_of_unitFunction (s := s) (i := i) rfl
  obtain ⟨hpending, _⟩ := hdelivers hrun.registered hrun.pastReset hbusy
  exact hpending hlat

theorem exec_of_spaced_immediate {s : State} {i : Instr} (hrun : s.Running) (hbusy : s.busy = 0)
    (hlat : latencyOf s.cfg i = 0) (hfree : s.outValid = false) :
    exec i s = .next ((s.setBusy s.cfg.ii).setOutputs (unitFunction s.cfg i) true) := by
  obtain ⟨_, hdelivers⟩ := delivers_of_unitFunction (s := s) (i := i) rfl
  obtain ⟨_, himmediate⟩ := hdelivers hrun.registered hrun.pastReset hbusy
  exact himmediate hlat hfree

/-- Driven with the inputs of a request, the ports carry that request. -/
theorem drive_requesting {s : State} (i : Instr) :
    requestPresent (s.drive (requesting i)) = true ∧
      decode (requestOn (s.drive (requesting i))) = .ok i := by
  simp [requestPresent, requesting]

/-- A cycle that accepts a request in a unit with no spacing to keep shows its result at latency 0 and
has the request in flight, one cycle old, otherwise. -/
theorem State.Running.step_accepts {s u : State} {i : Instr} (h : s.Running) (hbusy : s.busy = 0)
    (hpresent : requestPresent s = true) (hdecode : decode (requestOn s) = .ok i)
    (hstep : step s = .next u) :
    (latencyOf s.cfg i = 0 → u.y = unitFunction s.cfg i ∧ u.outValid = true) ∧
    (latencyOf s.cfg i ≠ 0 → (InFlight.accepted s.cfg i).older ∈ u.pipe) := by
  rw [step_of_request_present h.registered hpresent hdecode] at hstep
  obtain ⟨t, hbegin, hrest⟩ := andThen_eq_next.mp hstep
  obtain ⟨v, hexec, hedge⟩ := andThen_eq_next.mp hrest
  obtain ⟨hcfg, _, _, hrst, hbusy', _⟩ := beginCycle_frame hbegin
  have hspaced : t.busy = 0 := hbusy'.trans hbusy
  cases hedge
  refine ⟨fun hlat => ?_, fun hlat => ?_⟩ <;> rw [← hcfg] at hlat ⊢
  · cases hshown : t.outValid with
    | true => simp [exec_of_collision (h.after_beginCycle hbegin) hlat hshown] at hexec
    | false =>
      rw [exec_of_spaced_immediate (h.after_beginCycle hbegin) hspaced hlat hshown] at hexec
      cases hexec
      exact ⟨rfl, rfl⟩
  · rw [exec_of_spaced (h.after_beginCycle hbegin) hspaced hlat] at hexec
    cases hexec
    obtain ⟨_, hnoReset⟩ := requestPresent_iff.mp hpresent
    simp [hrst, hnoReset]

/-! ## The cycles in flight -/

/-- In the cycle in which a request is due its result is shown, whatever else the cycle does. -/
theorem State.Running.step_shows_due {s u : State} {e : InFlight} (h : s.Running)
    (hdue : e ∈ dueNow s) (hclear : e.overlapped = false) (hstep : step s = .next u) :
    u.y = e.result ∧ u.outValid = true := by
  rcases step_cases hstep with ⟨hcomb, _⟩ | ⟨_, t, hbegin, hrest⟩
  · simp [h.registered] at hcomb
  obtain ⟨hy, hvalid⟩ := beginCycle_shows_due hbegin h.pastReset hdue hclear
  rcases hrest with ⟨_, rfl⟩ | ⟨_, i, v, _, hexec, rfl⟩
  · exact ⟨hy, hvalid⟩
  · obtain ⟨hy', hvalid'⟩ := exec_keeps_shown hexec (h.after_beginCycle hbegin).registered hvalid
    exact ⟨hy'.trans hy, hvalid'⟩

/-- In a cycle in which it is not due a request grows older unmarked, if no reset comes and no
other request sooner than `II`. -/
theorem State.Running.step_keeps_pending {s u : State} {e : InFlight} (h : s.Running)
    (hmem : e ∈ s.pipe) (hage : e.age ≠ latencyOf s.cfg e.request) (hrst : s.rst = false)
    (hspaced : e.age < s.cfg.ii → s.inValid = false) (hstep : step s = .next u) :
    e.older ∈ u.pipe := by
  rcases step_cases hstep with ⟨hcomb, _⟩ | ⟨_, t, hbegin, hrest⟩
  · simp [h.registered] at hcomb
  have hkept := beginCycle_keeps_pending hbegin hmem hage
  obtain ⟨hcfg, _, _, hrst', _, _⟩ := beginCycle_frame hbegin
  rcases hrest with ⟨_, rfl⟩ | ⟨hpresent, i, v, _, hexec, rfl⟩
  · simpa [hrst', hrst] using ⟨e, hkept, rfl⟩
  · have hold : t.cfg.ii ≤ e.age := by
      by_contra hyoung
      rw [hcfg] at hyoung
      have habsent := requestPresent_of_not_inValid (hspaced (Nat.lt_of_not_le hyoung))
      simp [beginCycle_requestPresent hbegin, habsent] at hpresent
    obtain ⟨_, _, _, hrst'', _⟩ := exec_frame hexec
    simpa [hrst'', hrst', hrst] using ⟨e, exec_keeps_spaced hexec hkept hold, rfl⟩

/-- A request in flight shows its result in the last cycle of a schedule that reaches its latency there,
with no reset before that cycle and no request sooner than `II`. -/
theorem State.Running.cycles_show_result {j : Inputs} {js : List Inputs} {s u : State}
    {e : InFlight} (h : s.Running) (hmem : e ∈ s.pipe) (hclear : e.overlapped = false)
    (hlen : e.age + js.length = latencyOf s.cfg e.request)
    (hrst : ∀ k ∈ (j :: js).dropLast, k.rst = false)
    (hspaced : ∀ (n : Nat) (k : Inputs), (j :: js)[n]? = some k → n + e.age < s.cfg.ii →
      k.inValid = false)
    (hcycles : cycles (j :: js) s = .next u) : u.y = e.result ∧ u.outValid = true := by
  induction js generalizing j s e with
  | nil =>
    obtain ⟨t, hstep, hlast⟩ := andThen_eq_next.mp hcycles
    cases hlast
    exact (h.drive j).step_shows_due (mem_dueNow.mpr (by simpa using ⟨hmem, hlen⟩)) hclear hstep
  | cons k ks ih =>
    obtain ⟨t, hstep, hrest⟩ := andThen_eq_next.mp hcycles
    obtain ⟨hcfg, _⟩ := stepsChangeNoParameterAndNoInput _ t hstep
    rw [drive_cfg] at hcfg
    rw [List.length_cons] at hlen
    rw [List.dropLast_cons_cons, List.forall_mem_cons] at hrst
    obtain ⟨hrstNow, hrstLater⟩ := hrst
    have hpending : e.older ∈ t.pipe :=
      (h.drive j).step_keeps_pending (by simpa using hmem) (by rw [drive_cfg]; omega)
        (by simpa using hrstNow) (by simpa using hspaced 0 j rfl) hstep
    refine ih (e := e.older) ((h.drive j).after_step hstep) hpending hclear ?_ hrstLater
      (fun n k' hk hn => ?_) hrest
    · rw [hcfg, InFlight.older_age, InFlight.older_request]
      omega
    · rw [hcfg, InFlight.older_age] at hn
      exact hspaced (n + 1) k' hk (by omega)

/-- Settles O12: at latency 0 the cycle of the acceptance shows the result; otherwise it leaves the
request in flight, one cycle old, and the remaining cycles bring it to its latency. -/
theorem resultAppearsAfterItsLatency : Obligations.ResultAppearsAfterItsLatency := by
  intro s t i ins hreg hwait hbusy hlen hrst hspaced hcycles
  have hrun : (s.drive (requesting i)).Running := State.Running.drive ⟨hreg, hwait⟩ _
  obtain ⟨hpresent, hdecode⟩ := drive_requesting (s := s) i
  obtain ⟨u, hstep, hrest⟩ := andThen_eq_next.mp hcycles
  obtain ⟨hcfg, _⟩ := stepsChangeNoParameterAndNoInput _ u hstep
  obtain ⟨hshown, hpending⟩ := hrun.step_accepts (by simpa using hbusy) hpresent hdecode hstep
  rw [drive_cfg] at hcfg hshown hpending
  cases ins with
  | nil =>
    cases hrest
    exact hshown hlen.symm
  | cons j js =>
    rw [List.length_cons] at hlen
    refine (hrun.after_step hstep).cycles_show_result (hpending (by omega)) rfl ?_ hrst
      (fun n k hk hn => hspaced n k hk ?_) hrest
    · rw [hcfg]
      simp only [InFlight.older_age, InFlight.older_request, InFlight.accepted_age,
        InFlight.accepted_request]
      omega
    · rw [hcfg] at hn
      exact hn

end Sys2Proof.Machine
end

section
/-! Cycles without a request (70_reset_and_hazards.md R116, R117): an idle unit shows nothing, and one
with a single request in flight shows nothing but that request's result. -/

namespace Sys2Proof.Machine

open Sys2Proof

/-! ## One cycle -/

theorem State.Running.step_quiet_of_none_due {s : State} (h : s.Running)
    (habsent : requestPresent s = false) (hdue : dueNow s = []) :
    step s = .next (clockEdge s.showNone) := by
  rw [step_of_request_absent h.registered habsent, beginCycle_of_none_due h.pastReset hdue,
    andThen_next]

theorem State.Running.step_quiet_of_one_due {s : State} {e : InFlight} (h : s.Running)
    (habsent : requestPresent s = false) (hdue : dueNow s = [e]) :
    step s = .next
      (clockEdge ((s.setPipe (s.pipe.filter fun d => !isDue s.cfg d)).showEntry e)) := by
  rw [step_of_request_absent h.registered habsent, beginCycle_of_one_due h.pastReset hdue,
    andThen_next]

/-! ## Schedules without a request -/

/-- With nothing in flight a schedule without a request runs on, and each of its cycles has
`out_valid = 0`. -/
theorem State.Running.cycles_idle {ins : List Inputs} {s : State} (h : s.Running)
    (hpipe : s.pipe = []) (hquiet : ∀ j ∈ ins, j.inValid = false) :
    ∃ u, cycles ins s = .next u ∧ (u.outValid = true → ins = []) := by
  induction ins generalizing s with
  | nil => exact ⟨s, rfl, fun _ => rfl⟩
  | cons j js ih =>
    obtain ⟨hnow, hlater⟩ := List.forall_mem_cons.mp hquiet
    have habsent := requestPresent_of_not_inValid (s := s.drive j) (by simpa using hnow)
    have hstep := (h.drive j).step_quiet_of_none_due habsent (by simp [dueNow, hpipe])
    have hempty : (clockEdge (s.drive j).showNone).pipe = [] := by simp [hpipe]
    obtain ⟨u, hrest, hvalid⟩ := ih ((h.drive j).after_step hstep) hempty hlater
    refine ⟨u, by rw [cycles_cons, hstep, andThen_next, hrest], fun hu => ?_⟩
    obtain rfl := hvalid hu
    cases hrest
    cases hu

/-- With one request in flight a schedule without a request and without a reset runs on, and at most
the cycle in which that request reaches its latency has `out_valid = 1`. -/
theorem State.Running.cycles_one_pending {ins : List Inputs} {s : State} {e : InFlight}
    (h : s.Running) (hpipe : s.pipe = [e]) (hage : e.age ≤ latencyOf s.cfg e.request)
    (hnone : s.outValid = false) (hquiet : ∀ j ∈ ins, j.inValid = false ∧ j.rst = false) :
    ∃ u, cycles ins s = .next u ∧
      (u.outValid = true → e.age + ins.length = latencyOf s.cfg e.request + 1) := by
  induction ins generalizing s e with
  | nil => exact ⟨s, rfl, fun hu => by simp [hnone] at hu⟩
  | cons j js ih =>
    obtain ⟨⟨hnow, hrst⟩, hlater⟩ := List.forall_mem_cons.mp hquiet
    have habsent := requestPresent_of_not_inValid (s := s.drive j) (by simpa using hnow)
    rw [cycles_cons]
    by_cases hdue : e.age = latencyOf s.cfg e.request
    · have hstep := (h.drive j).step_quiet_of_one_due (e := e) habsent
        (by simp [dueNow, hpipe, isDue, hdue])
      obtain ⟨u, hrest, hvalid⟩ := ((h.drive j).after_step hstep).cycles_idle
        (by simp [hpipe, isDue, hdue]) fun k hk => (hlater k hk).1
      refine ⟨u, by rw [hstep, andThen_next, hrest], fun hu => ?_⟩
      simp [hvalid hu, hdue]
    · have hstep := (h.drive j).step_quiet_of_none_due habsent
        (by simp [dueNow, hpipe, isDue, hdue])
      have hcfg : (clockEdge (s.drive j).showNone).cfg = s.cfg := by simp
      obtain ⟨u, hrest, hvalid⟩ := ih (e := e.older) ((h.drive j).after_step hstep)
        (by simp [hpipe, hrst]) (by rw [hcfg]; exact Nat.lt_of_le_of_ne hage hdue) rfl hlater
      refine ⟨u, by rw [hstep, andThen_next, hrest], fun hu => ?_⟩
      have hlen := hvalid hu
      rw [hcfg, InFlight.older_age, InFlight.older_request] at hlen
      rw [List.length_cons]
      omega

/-! ## An idle unit and a unit under reset -/

/-- The start of a cycle with nothing in flight shows nothing, so the request it then accepts is either
shown at once or alone in flight. -/
theorem State.Running.step_accepts_idle {s : State} {i : Instr} (h : s.Running) (hbusy : s.busy = 0)
    (hpipe : s.pipe = []) (hpresent : requestPresent s = true)
    (hdecode : decode (requestOn s) = .ok i) :
    ∃ u, step s = .next u ∧
      (latencyOf s.cfg i = 0 → u.pipe = []) ∧
      (latencyOf s.cfg i ≠ 0 →
        u.pipe = [(InFlight.accepted s.cfg i).older] ∧ u.outValid = false) := by
  have hbegin := beginCycle_of_none_due h.pastReset (s := s) (by simp [dueNow, hpipe])
  obtain ⟨_, hrst⟩ := requestPresent_iff.mp hpresent
  rw [step_of_request_present h.registered hpresent hdecode, hbegin, andThen_next]
  have hrun := h.after_beginCycle hbegin
  by_cases hlat : latencyOf s.cfg i = 0
  · rw [exec_of_spaced_immediate hrun hbusy hlat rfl]
    exact ⟨_, rfl, fun _ => by simp [hpipe], fun hne => absurd hlat hne⟩
  · rw [exec_of_spaced hrun hbusy hlat]
    exact ⟨_, rfl, fun heq => absurd heq hlat, fun _ => by simp [hpipe, hrst]⟩

/-- Settles O13: the cycle of the acceptance leaves the request alone in flight, or nothing at latency
0, and from there the quiet cycles run on; the result and its cycle are those of O12. -/
theorem anIdleUnitAnswersExactlyOnce : Obligations.AnIdleUnitAnswersExactlyOnce := by
  intro s i ins hreg hwait hbusy hpipe hquiet
  have hrun : (s.drive (requesting i)).Running := State.Running.drive ⟨hreg, hwait⟩ _
  obtain ⟨hpresent, hdecode⟩ := drive_requesting (s := s) i
  obtain ⟨t, hstep, himmediate, hpending⟩ :=
    hrun.step_accepts_idle (by simpa using hbusy) (by simpa using hpipe) hpresent hdecode
  obtain ⟨hcfg, _⟩ := stepsChangeNoParameterAndNoInput _ t hstep
  rw [drive_cfg] at hcfg himmediate hpending
  have hruns : ∃ u, cycles ins t = .next u ∧
      (u.outValid = true → ins.length = latencyOf s.cfg i) := by
    by_cases hlat : latencyOf s.cfg i = 0
    · obtain ⟨u, hrest, hvalid⟩ := (hrun.after_step hstep).cycles_idle (himmediate hlat)
        fun j hj => (hquiet j hj).1
      exact ⟨u, hrest, fun hu => by simp [hvalid hu, hlat]⟩
    · obtain ⟨hone, hnone⟩ := hpending hlat
      obtain ⟨u, hrest, hvalid⟩ := (hrun.after_step hstep).cycles_one_pending hone
        (by rw [hcfg]; exact Nat.pos_of_ne_zero hlat) hnone hquiet
      refine ⟨u, hrest, fun hu => ?_⟩
      have hlen := hvalid hu
      rw [hcfg] at hlen
      simp only [InFlight.older_age, InFlight.older_request, InFlight.accepted_age,
        InFlight.accepted_request] at hlen
      omega
  obtain ⟨u, hrest, hvalid⟩ := hruns
  have hcycles : cycles (requesting i :: ins) s = .next u := by
    rw [cycles_cons, hstep, andThen_next, hrest]
  have hshown := fun hlen => resultAppearsAfterItsLatency s u i ins hreg hwait hbusy hlen
    (fun j hj => (hquiet j (List.mem_of_mem_dropLast hj)).2)
    (fun n j hj _ => (hquiet j (List.mem_of_getElem? hj)).1) hcycles
  refine ⟨u, hcycles, ⟨hvalid, fun hlen => ?_⟩, fun hlen => ?_⟩ <;> obtain ⟨hy, hv⟩ := hshown hlen
  · exact hv
  · exact hy

/-- A cycle that ends with `rst = 1` takes no request and leaves nothing in flight. -/
theorem step_of_reset {s t : State} (hreg : isCombinational s.cfg = false) (hrst : s.rst = true)
    (hstep : step s = .next t) : t.pipe = [] ∧ t.Running ∧ t.busy = s.busy - 1 := by
  have hwait := step_awaitingReset hreg hstep
  rw [step_of_request_absent hreg (requestPresent_of_rst hrst)] at hstep
  obtain ⟨u, hbegin, hedge⟩ := andThen_eq_next.mp hstep
  obtain ⟨hcfg, _, _, hrst', hbusy, _⟩ := beginCycle_frame hbegin
  cases hedge
  exact ⟨by simp [hrst', hrst], ⟨by simpa [hcfg] using hreg, by simpa [hrst] using hwait⟩,
    by simp [hbusy]⟩

/-- Before the first reset a cycle shows free values, with a request and without one. -/
theorem step_of_awaitingReset {s t : State} (hreg : isCombinational s.cfg = false)
    (hwait : s.awaitingReset = true) (hstep : step s = .next t) :
    t.y = Config.freeWord s.draws ∧ t.outValid = Config.freeBit s.draws := by
  rcases step_cases hstep with ⟨hcomb, _⟩ | ⟨_, u, hbegin, hrest⟩
  · simp [hreg] at hcomb
  rw [beginCycle_of_awaitingReset hwait] at hbegin
  cases hbegin
  rcases hrest with ⟨_, rfl⟩ | ⟨_, i, v, _, hexec, rfl⟩
  · exact ⟨rfl, rfl⟩
  · rw [exec_of_awaitingReset (s := s.showPowerUp) i hreg hwait] at hexec
    cases hexec
    exact ⟨rfl, rfl⟩

/-- Settles O17: the cycle of the reset leaves an idle running unit, which shows nothing until it is
given a request; the combinational form reads neither `rst` nor `in_valid`. -/
theorem resetDiscardsEverythingInFlight : Obligations.ResetDiscardsEverythingInFlight := by
  refine ⟨fun s t hreg hrst hstep => ?_, fun s t hreg hrst hstep ins hne hquiet => ?_,
    fun s t => step_of_awaitingReset, fun s t v r hcomb hstep => ?_⟩
  · obtain ⟨hpipe, hrun, hbusy⟩ := step_of_reset hreg hrst hstep
    exact ⟨hpipe, hrun.pastReset, hbusy⟩
  · obtain ⟨hpipe, hrun, _⟩ := step_of_reset hreg hrst hstep
    obtain ⟨u, hcycles, hvalid⟩ := hrun.cycles_idle hpipe hquiet
    exact ⟨u, hcycles, Bool.eq_false_of_not_eq_true (hne ∘ hvalid)⟩
  · obtain ⟨i, hdecode, _⟩ := issue_eq_next.mp (step_of_combinational hcomb ▸ hstep)
    rw [step_combinational_of_decode hcomb hdecode] at hstep
    cases hstep
    exact step_combinational_of_decode (s := s.setControl v r) hcomb hdecode

end Sys2Proof.Machine
end

section
/-! Where requests come too close (70_reset_and_hazards.md R117, R120): what an overlapped request shows,
and when two results fall in one cycle. With all latencies equal the older of two requests in flight is
always the nearer to its result, so they never do. -/

namespace Sys2Proof.Machine

open Sys2Proof

/-! ## Requests sooner than `II` -/

theorem exec_of_too_soon {s : State} {i : Instr} (hrun : s.Running) (hbusy : s.busy ≠ 0)
    (hlat : latencyOf s.cfg i ≠ 0) :
    exec i s = .next ((s.setBusy s.cfg.ii).setPipe (markOverlapped s.cfg.ii s.pipe ++
      [{ InFlight.accepted s.cfg i with overlapped := true }])) := by
  simp only [exec_eq_accept, accept, enterPipeline, pipeAfterRequest, hrun.registered, hrun.pastReset,
    Bool.false_eq_true, if_false, if_neg hbusy, if_neg hlat, decide_eq_true hbusy]
  rfl

theorem exec_of_too_soon_immediate {s : State} {i : Instr} (hrun : s.Running) (hbusy : s.busy ≠ 0)
    (hlat : latencyOf s.cfg i = 0) (hfree : s.outValid = false) :
    exec i s = .next
      ((s.setPipe (markOverlapped s.cfg.ii s.pipe)).setBusy s.cfg.ii).showUnspecified := by
  simp [exec_eq_accept, accept, enterPipeline, pipeAfterRequest, hrun.registered, hrun.pastReset,
    hbusy, hlat, hfree]

/-- Settles O14: by the two forms of accepting a request too soon; the marking reaches every request
younger than `II`, and a marked one shows a free value. -/
theorem requestsTooSoonAreUnspecified : Obligations.RequestsTooSoonAreUnspecified := by
  intro s i hreg hwait hbusy
  refine ⟨fun hlat => ?_, fun hlat hfree => ?_, fun p e hmem hyoung => ?_,
    fun t e hover ht => ?_⟩
  · exact ⟨_, _, exec_of_too_soon ⟨hreg, hwait⟩ hbusy hlat, rfl, rfl, rfl, rfl, rfl⟩
  · exact ⟨_, exec_of_too_soon_immediate ⟨hreg, hwait⟩ hbusy hlat hfree, rfl, rfl, rfl, rfl⟩
  · exact List.mem_map.mpr ⟨e, hmem, if_pos hyoung⟩
  · rw [ht, State.showEntry_of_overlapped hover]
    exact ⟨rfl, rfl⟩

/-! ## Two results in one cycle -/

/-- Settles O15: two results due refuse the cycle at its start; one due stands on the outputs when the
request of latency 0 would show its own. -/
theorem twoResultsInOneCycleAreRefused : Obligations.TwoResultsInOneCycleAreRefused := by
  intro s hreg hwait
  refine ⟨fun htwo => ?_, fun hone hpresent i hdecode hlat => ?_⟩
  · rw [step_of_registered hreg, beginCycle_of_two_due hwait htwo, andThen_refused]
  · obtain ⟨e, hdue⟩ := List.length_eq_one_iff.mp hone
    have hbegin := beginCycle_of_one_due hwait hdue
    have hrun := State.Running.after_beginCycle ⟨hreg, hwait⟩ hbegin
    obtain ⟨hcfg, _⟩ := beginCycle_frame hbegin
    rw [step_of_request_present hreg hpresent hdecode, hbegin, andThen_next,
      exec_of_collision hrun (by rw [hcfg, hlat]) (State.showEntry_outValid _ e), andThen_refused]

/-! ## Equal latencies -/

theorem isCombinational_iff {c : Config} :
    isCombinational c = true ↔ ∀ i : Instr, latencyOf c i = 0 := by
  simp only [isCombinational, Bool.and_eq_true, decide_eq_true_eq]
  constructor
  · rintro ⟨⟨⟨⟨hadd, hsub⟩, hmul⟩, hdiv⟩, hneg⟩ (_ | _ | _ | _ | _)
    · exact hadd
    · exact hsub
    · exact hmul
    · exact hdiv
    · exact hneg
  · exact fun h => ⟨⟨⟨⟨h (.add 0 0), h (.sub 0 0)⟩, h (.mul 0 0)⟩, h (.div 0 0)⟩, h (.neg 0 0)⟩

/-- Among requests of one latency none behind the oldest is due: it is younger than the oldest, which
is not past its latency. -/
theorem State.Inv.dueNow_eq {s : State} (h : s.Inv) (heq : latenciesEqual s.cfg) :
    dueNow s = (s.pipe.head?.filter (isDue s.cfg)).toList := by
  have hlawful := h.inFlightLawful
  have hspaced := h.inFlightSpaced
  cases hpipe : s.pipe with
  | nil => simp [dueNow, hpipe]
  | cons d ds =>
    rw [hpipe] at hlawful hspaced
    have hbehind : ds.filter (isDue s.cfg) = [] := by
      refine List.filter_eq_nil_iff.mpr fun e he hdue => ?_
      obtain ⟨hyounger, _⟩ := List.rel_of_pairwise_cons hspaced he
      obtain ⟨_, hoverdue, _⟩ := hlawful d List.mem_cons_self
      have hage : e.age = latencyOf s.cfg e.request := by simpa [isDue] using hdue
      rw [heq d.request e.request] at hoverdue
      omega
    rw [dueNow, hpipe, List.filter_cons, hbehind, List.head?_cons, Option.filter_some]
    split <;> rfl

/-- Issuing is refused for a collision only under an instruction of latency 0. -/
theorem exists_latency_zero_of_issue_collision {s : State}
    (h : issue s = .refused .resultCollision) : ∃ i, latencyOf s.cfg i = 0 := by
  cases hdefined : requestDefined s with
  | false =>
    rw [issue_of_reserved hdefined] at h
    cases h
  | true =>
    obtain ⟨i, hdecode⟩ := exists_decode_of_requestDefined hdefined
    rw [issue_of_decode hdecode, exec_eq_accept] at h
    obtain ⟨_, _, _, hlat, _⟩ := accept_refused h
    exact ⟨i, hlat⟩

/-- Settles O16: at most the oldest request is due; a collision on issuing would need a latency of 0,
and so, all being equal, the combinational form. -/
theorem equalLatenciesKeepOrderAndNeverCollide :
    Obligations.EqualLatenciesKeepOrderAndNeverCollide := by
  intro s hinv hreg heq
  have hdue := hinv.dueNow_eq heq
  have hone : (dueNow s).length ≤ 1 := hdue ▸ Option.length_toList_le
  refine ⟨fun e he => ?_, hone, fun hrefused => ?_⟩
  · rw [hdue, Option.mem_toList, Option.filter_eq_some_iff] at he
    obtain ⟨hhead, _⟩ := he
    exact hhead
  · rcases step_registered_refused hreg hrefused with hbegin | ⟨t, hbegin, hissue⟩
    · obtain ⟨_, _, htwo⟩ := beginCycle_refused hbegin
      exact absurd hone (Nat.not_le.mpr htwo)
    · obtain ⟨i, hlat⟩ := exists_latency_zero_of_issue_collision hissue
      obtain ⟨hcfg, _⟩ := beginCycle_frame hbegin
      rw [hcfg] at hlat
      simp [isCombinational_iff.mpr fun j => (heq j i).trans hlat] at hreg

end Sys2Proof.Machine
end

section
/-! `y` of the combinational form between a move of the requester and the next step
(70_reset_and_hazards.md R119, 10_state.md R18). -/

namespace Sys2Proof.Machine

open Sys2Proof

theorem drive_y_of_moved {s : State} {j : Inputs} (hcomb : isCombinational s.cfg = true)
    (hmoved : j.req ≠ requestOn s) : (s.drive j).y = Config.freeWord s.draws := by
  rw [drive_y, if_pos ⟨hcomb, hmoved⟩]

theorem drive_y_of_same {s : State} {j : Inputs} (hsame : j.req = requestOn s) :
    (s.drive j).y = s.y := by
  rw [drive_y, if_neg fun hboth => hboth.2 hsame]

/-- Settles O21: the driven ports carry the request, so the next step drives `y` with its result; a
step leaves the request on the ports, so driving the same one again leaves that result on `y`. -/
theorem unsettledOutputIsAnyValue : Obligations.UnsettledOutputIsAnyValue := by
  intro s j i hcomb hdecode
  refine ⟨drive_y_of_moved hcomb, fun hsame => ⟨drive_y_of_same hsame, fun u hstep => ?_⟩, ?_⟩
  · rw [step_combinational_of_decode hcomb (hsame ▸ hdecode)] at hstep
    cases hstep
    exact drive_y_of_same (s := s.setY _) hsame
  · exact ⟨_, step_combinational_of_decode (s := s.drive j) (i := i) (by simpa using hcomb)
      (by simpa using hdecode), by simp⟩

end Sys2Proof.Machine
end
